-- ==== Sys2Proof/Word.lean ====
section
/-!
DEFINITION. Word.lean: the word types of the block (00_scope.md R11).

A byte is 8 bits, a word is 32 or 64 bits by the descriptor, a command word is 32 bits; all are unsigned. The bit and
byte-order operations over them stand in Machine/Bits.lean.
-/

namespace Sys2Proof

/-- A byte: an unsigned value 0 to 255 (R11). -/
abbrev Byte := BitVec 8

/-- A word of the 32-bit descriptors SHA1, SHA256, MD5 (R8, R11). -/
abbrev Word32 := BitVec 32

/-- A word of SHA512, and the physical width of a digest register (R8, R21). -/
abbrev Word64 := BitVec 64

/-- A command word `CW` on the port `cmd` (30_encoding.md R73). -/
abbrev CommandWord := BitVec 32

end Sys2Proof
end

