-- ==== Sys2Proof/Machine/Bits.lean ====
section
/-!
DEFINITION. Bits.lean: the word and byte-order operations of 00_scope.md R13 to R16.

Addition on words is `+` of `BitVec`, which is modulo `2^W` (R13); AND, OR, XOR, NOT are `&&&`, `|||`, `^^^`, `~~~` (R14).
-/

namespace Sys2Proof.Machine

/-- `ROTL_n(x)`, for `0 <= n < W` (R14). -/
def rotl {w : Nat} (n : Nat) (x : BitVec w) : BitVec w := (x <<< n) ||| (x >>> (w - n))

/-- `ROTR_n(x) = ROTL_(W-n)(x)`, for `0 < n < W` (R14). -/
def rotr {w : Nat} (n : Nat) (x : BitVec w) : BitVec w := rotl (w - n) x

/-- `SHR_n(x)`, the logical right shift (R14). -/
def shr {w : Nat} (n : Nat) (x : BitVec w) : BitVec w := x >>> n

/-- `le(b)`: the value of a byte sequence, least significant byte first (R15). -/
def leValue : List Byte → Nat
  | [] => 0
  | b :: bs => b.toNat + 256 * leValue bs

/-- `be(b)`: the value of a byte sequence, most significant byte first (R15). -/
def beValue (bs : List Byte) : Nat := leValue bs.reverse

/-- `to_le(v, k)`: the k bytes of `v`, least significant first (R15); of a larger `v` the low k bytes. -/
def toLe (v : Nat) : Nat → List Byte
  | 0 => []
  | k + 1 => BitVec.ofNat 8 v :: toLe (v / 256) k

/-- `to_be(v, k)`: the k bytes of `v`, most significant first (R15). -/
def toBe (v k : Nat) : List Byte := (toLe v k).reverse

/-- `zeros(n)`: n bytes 0x00 (R12). -/
def zeros (n : Nat) : List Byte := List.replicate n 0x00#8

/-- `A[i .. i+n-1]` (R12). -/
def slice (xs : List Byte) (i n : Nat) : List Byte := (xs.drop i).take n

/-- `for t = start .. start + count - 1`: the pseudocode loop, the body given the index and the running value (R16). -/
def loop {σ : Type} (body : Nat → σ → σ) : Nat → Nat → σ → σ
  | _, 0, v => v
  | t, count + 1, v => loop body (t + 1) count (body t v)

/-- The extension loop of a message schedule: `count` new words, each computed by `next` from the words so far. The list is
held NEWEST FIRST, so that `W[t-j]` is its entry `j - 1` (`back`). -/
def extend {α : Type} (next : List α → α) : Nat → List α → List α
  | 0, ws => ws
  | count + 1, ws => extend next count (next ws :: ws)

/-- `W[t-j]` of a schedule held newest first, when `W[t]` is about to be computed. -/
def back {w : Nat} (ws : List (BitVec w)) (j : Nat) : BitVec w := ws.getD (j - 1) 0

end Sys2Proof.Machine
end

