-- ==== Sys2Proof/Config.lean ====
section
/-!
DEFINITION. Config.lean: what is fixed for the machine.

The closed set of algorithms (00_scope.md R2), the physical capacities (R10), and the FREE VALUES that stand for what a
reset leaves unspecified (70_reset_and_hazards.md R190, 10_state.md R38). The descriptor of each algorithm and the constant
tables stand in Machine/Descriptor.lean and Machine/Tables.lean.
-/

namespace Sys2Proof

/-- The four algorithm variants, "a closed tagged variant (enum)" (R2, 10_state.md R23). -/
inductive Algorithm where
  | sha1
  | sha256
  | sha512
  | md5
deriving DecidableEq, Repr

/-- Physical capacity of the chunk buffer BUF in bytes (R10, 10_state.md R29). -/
def Config.bufCapacity : Nat := 128

/-- FREE VALUE (log 5): what digest register `i` holds after the reset event with number `k`. It has no body: R190 calls the
value unspecified. -/
opaque Config.resetH : Nat → Nat → Word64

/-- FREE VALUE (log 5): what PROCESSED holds after the reset event with number `k` (R190). -/
opaque Config.resetProcessed : Nat → Word64

/-- FREE VALUE (log 5): what BUFLEN holds after the reset event with number `k` (R190). -/
opaque Config.resetBuflen : Nat → Byte

end Sys2Proof
end

