-- ==== Sys2Proof/Syntax.lean ====
section
/-!
DEFINITION. Syntax.lean: the instructions, one constructor per row of spec/opcode_table.json.

The three commands have a 32-bit command word (format CMD32, 30_encoding.md R73 to R77). The six micro-operations have
rows of format UOP, selected by the value of ALG, and no command word (R79); their operands are data the invoking command
hands over, not part of an encoding, and are held in State.
-/

namespace Sys2Proof

/-- The commands and micro-operations of HASHCMD version 1 (R74, R79). -/
inductive Instr where
  /-- `CREATE tag` (40_lifecycle.md R90): the tag is the 8-bit value of `arg[7:0]`, recognised or not. -/
  | create (tag : BitVec 8)
  /-- `UPDATE n` (41_chunk_buffer.md R100): `n` is the number of payload bytes that follow on `din`. -/
  | update (n : Nat)
  /-- `DIGEST` (46_padding_finalizer.md R150). -/
  | digest
  /-- `COMPRESS.SHA1` (42_sha1_compress.md R110). -/
  | compressSha1
  /-- `COMPRESS.SHA256` (43_sha256_compress.md R120). -/
  | compressSha256
  /-- `COMPRESS.SHA512` (44_sha512_compress.md R130). -/
  | compressSha512
  /-- `COMPRESS.MD5` (45_md5_compress.md R140). -/
  | compressMd5
  /-- `PAD` (46_padding_finalizer.md R152). -/
  | pad
  /-- `SERIALIZE` (47_state_serializer.md R160). -/
  | serialize
deriving DecidableEq, Repr

end Sys2Proof
end

