-- ==== Sys2Proof/WellFormed.lean ====
section
/-!
DEFINITION. WellFormed.lean: which terms of `Instr` are instructions of the block.

The tag of CREATE is eight bits by its type, and every tag is a legal operand (30_encoding.md R75, R78: an unrecognised tag
is a fault of CREATE, not an illegal word). The payload length of UPDATE is a count; it must fit the 24 bits of `arg` (R76).
-/

namespace Sys2Proof

/-- The largest payload of one UPDATE is `2^24 - 1` bytes (R76, 00_scope.md R10). -/
def Instr.wellFormed : Instr → Bool
  | .create _ => true
  | .update n => decide (n < 2 ^ 24)
  | .digest => true
  | .compressSha1 => true
  | .compressSha256 => true
  | .compressSha512 => true
  | .compressMd5 => true
  | .pad => true
  | .serialize => true

end Sys2Proof
end

