-- ==== Sys2Proof/Decode.lean ====
section
/-!
DEFINITION. Decode.lean: the decoder of command words and of micro-operation selections, and the encoder.

30_encoding.md R73 to R80. A command word is presented whole on a 32-bit port and has no byte order, so the decoder reads the
32-bit value. A micro-operation has no command word: what selects it is which of the three units is invoked and the 8-bit
value of ALG (R79), so the rows of format UOP are decoded from those two. Decoding is total and rejects by name.
-/

namespace Sys2Proof

/-- The 8-bit tag of an algorithm (R72). -/
def Algorithm.tag : Algorithm → BitVec 8
  | .sha1 => 0x01#8
  | .sha256 => 0x02#8
  | .sha512 => 0x03#8
  | .md5 => 0x04#8

/-- The algorithm a tag names, none where the tag is unrecognised: 0x00 and 0x05 to 0xFF (R72). -/
def Algorithm.ofTag (tag : BitVec 8) : Option Algorithm :=
  if tag = 0x01#8 then some .sha1
  else if tag = 0x02#8 then some .sha256
  else if tag = 0x03#8 then some .sha512
  else if tag = 0x04#8 then some .md5
  else none

/-- The three kinds of internal micro-operation (R79): `Compress`, `PAD`, `SERIALIZE`. -/
inductive UopKind where
  | compress
  | pad
  | serialize
deriving DecidableEq, Repr

/-- What the decoder reads: a command word of format CMD32, or an invoked kind with the value of ALG, format UOP. -/
inductive Code where
  | cmd (word : CommandWord)
  | uop (kind : UopKind) (alg : BitVec 8)
deriving DecidableEq, Repr

/-- Why a word is rejected: the three conditions of R78, and a UOP selection by a value of ALG that is no recognised tag. -/
inductive DecodeError where
  /-- `op` is not 0x01, 0x02 or 0x03. -/
  | unassignedOpcode
  /-- `op = 0x01` and `arg[23:8]` is not zero. -/
  | createReservedBits
  /-- `op = 0x03` and `arg` is not zero. -/
  | digestReservedBits
  /-- no UOP row is selected by this value of ALG. -/
  | unrecognisedAlg
deriving DecidableEq, Repr

/-- `op = CW[31:24]` (R73). -/
def opField (word : CommandWord) : BitVec 8 := word.extractLsb' 24 8

/-- `arg = CW[23:0]` (R73). -/
def argField (word : CommandWord) : BitVec 24 := word.extractLsb' 0 24

/-- `arg[7:0]`, the tag of a CREATE word (R75). -/
def tagField (word : CommandWord) : BitVec 8 := word.extractLsb' 0 8

/-- `arg[23:8]`, the reserved field of a CREATE word (R75). -/
def reservedField (word : CommandWord) : BitVec 16 := word.extractLsb' 8 16

/-- The decoder of command words (R74 to R78, R80 steps 1 and 3). -/
def decodeCommand (word : CommandWord) : Except DecodeError Instr :=
  if opField word = 0x01#8 then
    if reservedField word = 0#16 then .ok (.create (tagField word)) else .error .createReservedBits
  else if opField word = 0x02#8 then .ok (.update (argField word).toNat)
  else if opField word = 0x03#8 then
    if argField word = 0#24 then .ok .digest else .error .digestReservedBits
  else .error .unassignedOpcode

/-- The COMPRESS micro-operation of an algorithm (R79, 00_scope.md R17). -/
def compressOf : Algorithm → Instr
  | .sha1 => .compressSha1
  | .sha256 => .compressSha256
  | .sha512 => .compressSha512
  | .md5 => .compressMd5

/-- The micro-operation of a kind under an algorithm (R79): PAD and SERIALIZE are single micro-operations, parameterised by
the descriptor. -/
def uopOf (kind : UopKind) (a : Algorithm) : Instr :=
  match kind with
  | .compress => compressOf a
  | .pad => .pad
  | .serialize => .serialize

/-- The selection of a micro-operation by the value of ALG (R79). -/
def decodeUop (kind : UopKind) (alg : BitVec 8) : Except DecodeError Instr :=
  match Algorithm.ofTag alg with
  | some a => .ok (uopOf kind a)
  | none => .error .unrecognisedAlg

/-- The decoder over both formats. -/
def decode : Code → Except DecodeError Instr
  | .cmd word => decodeCommand word
  | .uop kind alg => decodeUop kind alg

/-- How many payload bytes on `din` belong to a word: `n` of any word with `op = 0x02`, else none (R80 step 1, R81). -/
def payloadLength (word : CommandWord) : Nat :=
  if opField word = 0x02#8 then (argField word).toNat else 0

/-- The encoder (R75, R76, R77, R79). PAD and SERIALIZE are selected under every recognised tag; `a` says under which. -/
def encode (a : Algorithm) : Instr → Code
  | .create tag => .cmd (0x01#8 ++ 0x0000#16 ++ tag)
  | .update n => .cmd (0x02#8 ++ BitVec.ofNat 24 n)
  | .digest => .cmd 0x03000000#32
  | .compressSha1 => .uop .compress 0x01#8
  | .compressSha256 => .uop .compress 0x02#8
  | .compressSha512 => .uop .compress 0x03#8
  | .compressMd5 => .uop .compress 0x04#8
  | .pad => .uop .pad a.tag
  | .serialize => .uop .serialize a.tag

/-- The instruction the decoder reads from a table word of `nbits` bits: a command word (32), or the value of ALG (8). Eight
bits of ALG alone select a COMPRESS row; the rows of PAD and SERIALIZE have mask 0x00 and are told apart from it by the
invoked kind only, which a table word does not carry (log 12). -/
def decodeTableWord (nbits w : Nat) : Option Instr :=
  if nbits = 32 then (decode (.cmd (BitVec.ofNat 32 w))).toOption
  else if nbits = 8 then (decode (.uop .compress (BitVec.ofNat 8 w))).toOption
  else none

end Sys2Proof
end

