-- ==== Sys2Proof/Machine/State.lean ====
section
/-!
DEFINITION. State.lean: everything the spec gives the machine, as plain data, and the machine after reset.

10_state.md R20 to R38. INVENTORY.md lists each field with its rule and its reset value.
-/

namespace Sys2Proof.Machine

/-- PHASE, the lifecycle position (R24). Its two-bit code is `Phase.code`. -/
inductive Phase where
  /-- 0: no computation exists. -/
  | idle
  /-- 1: a computation exists and accepts UPDATE and DIGEST. -/
  | active
  /-- 2: the computation has been digested. -/
  | done
  /-- 3: a fault was raised; every command is ignored until reset. -/
  | faulted
deriving DecidableEq, Repr

/-- CAUSE, the fault cause (R26). Its four-bit code is `Cause.code`; the codes 5 to 15 are never held. -/
inductive Cause where
  | none
  | unsupportedAlgorithm
  | illegalCommand
  | notCreated
  | useAfterDigest
deriving DecidableEq, Repr

/-- The register file H: eight 64-bit registers (R21). -/
structure Digest where
  h0 : Word64
  h1 : Word64
  h2 : Word64
  h3 : Word64
  h4 : Word64
  h5 : Word64
  h6 : Word64
  h7 : Word64
deriving DecidableEq, Repr

/-- All eight registers zero. -/
def Digest.zero : Digest := ⟨0, 0, 0, 0, 0, 0, 0, 0⟩

/-- The contents of BUF (R29): the bytes ever written, at strictly rising addresses. An address that is not listed has no
value (log 6). -/
abbrev Memory := List Host.Cell

/-- A micro-operation that has been invoked, with the operands its invoker hands over (30_encoding.md R79): the chunk of
COMPRESS (R110), the unprocessed bytes and the bit length of PAD (R152); SERIALIZE takes the words of H (R160). -/
inductive Uop where
  | compress (chunk : List Byte)
  | pad (rest : List Byte) (bitLength : Word64)
  | serialize
deriving DecidableEq, Repr

/-- Which unit an invocation addresses. -/
def Uop.kind : Uop → UopKind
  | .compress _ => .compress
  | .pad _ _ => .pad
  | .serialize => .serialize

/-- The complete state of one instance of the block (R20). -/
structure State where
  /-- Running Digest `H[0..7]` (R21, R22). -/
  h : Digest
  /-- `ALG` (R23). -/
  alg : BitVec 8
  /-- `PHASE` (R24). -/
  phase : Phase
  /-- `CAUSE` (R26). -/
  cause : Cause
  /-- `PROCESSED` (R27). -/
  processed : Word64
  /-- `BUFLEN` (R28). -/
  buflen : Byte
  /-- `BUF[0..127]` (R29). -/
  buf : Memory
  /-- `cmd`: the command words presented and not yet taken, oldest first (R35). -/
  cmd : List CommandWord
  /-- `din`: the payload bytes presented and not yet taken, oldest first (R35). -/
  din : List Byte
  /-- `dout`: the bytes emitted, first to last (R35). -/
  dout : List Byte
  /-- the reset request on the port `rst` (30_encoding.md R70, log 2). -/
  rst : Bool
  /-- the UPDATE at the head of `cmd` has begun: a step has taken it and found its payload incomplete (R71, 70_reset_and_hazards.md R190,
  log 23). -/
  begun : Bool
  /-- the micro-operation invoked and not yet run, none between commands (R79, log 7). -/
  uop : Option Uop
  /-- the transient buffer `PAD` (R33, log 7). -/
  pad : List Byte
  /-- the bytes the last SERIALIZE micro-operation returned (47_state_serializer.md R160, log 7). -/
  ser : List Byte
  /-- the model's own counter of reset events, the index of the free values of Config (log 5). -/
  free : Nat
deriving DecidableEq, Repr

/-- The machine after reset (R38, 70_reset_and_hazards.md R190): PHASE, CAUSE and ALG as the spec gives them; H, PROCESSED,
BUFLEN and the transients, which it leaves unspecified, zero or empty (log 4); nothing listed in BUF (log 6); nothing presented
and nothing emitted. -/
def State.reset : State :=
  { h := Digest.zero, alg := 0x00#8, phase := .idle, cause := .none, processed := 0, buflen := 0, buf := [], cmd := [],
    din := [], dout := [], rst := false, begun := false, uop := .none, pad := [], ser := [], free := 0 }

/-- Why the MODEL stops. None of these is a fault of the block (those are next states, 60_exceptions.md R171); each stands
where the spec defines no operation, is SAFE (the model stops where it would otherwise have to invent an effect), and is met by
no run from reset (log 11). -/
inductive Fault where
  /-- `MemRead` or `MemWrite` outside `addr + n <= C` (20_memory.md R53). Raised by UPDATE and DIGEST. Safe. -/
  | bufferRange
  /-- a read of a byte of BUF that nothing has written (10_state.md R38). Raised by UPDATE and DIGEST. Safe. -/
  | unwrittenByte
  /-- a descriptor is needed and ALG holds none of the four tags (00_scope.md R17, 10_state.md R23). Raised by UPDATE, DIGEST,
  PAD, SERIALIZE, and by the step where an invoked micro-operation is selected by no value of ALG. Safe. -/
  | noAlgorithm
  /-- a micro-operation without its invocation, so without operands (30_encoding.md R79). Raised by the six micro-operations.
  Safe. -/
  | noInvocation
  /-- `Compress` on a chunk that is not exactly C bytes (00_scope.md R17). Raised by the four COMPRESS micro-operations. Safe. -/
  | chunkLength
deriving DecidableEq, Repr

/-- Why the model refuses. -/
inductive Refusal where
  /-- the instruction has no meaning in the model yet. Raised by `exec` alone. Safe. -/
  | notModelled (mnemonic : String)
  /-- a reset requested in the middle of a command (R190, 93_implementation_defined.md U13: `refuse`). Raised by the step. Safe
  (log 3); that an UPDATE has begun once a step has found its payload incomplete is the model's choice (log 23). -/
  | resetMidCommand
deriving DecidableEq, Repr

/-- The outcome of a step of this machine. -/
abbrev Result := Host.Outcome State Fault Refusal

end Sys2Proof.Machine
end

