-- ==== Sys2Proof/Machine/Descriptor.lean ====
section
/-!
DEFINITION. Descriptor.lean: the algorithm descriptors of 00_scope.md R8, one column a function.

The initial vector and the round constants of a descriptor stand in Machine/Tables.lean.
-/

namespace Sys2Proof

/-- C, the chunk size in bytes. -/
def Algorithm.chunkBytes : Algorithm → Nat
  | .sha1 => 64
  | .sha256 => 64
  | .sha512 => 128
  | .md5 => 64

/-- W/8, the bytes of a digest word. -/
def Algorithm.wordBytes : Algorithm → Nat
  | .sha1 => 4
  | .sha256 => 4
  | .sha512 => 8
  | .md5 => 4

/-- N, the number of digest words. -/
def Algorithm.digestWords : Algorithm → Nat
  | .sha1 => 5
  | .sha256 => 8
  | .sha512 => 8
  | .md5 => 4

/-- F, the length-field bytes. -/
def Algorithm.lengthBytes : Algorithm → Nat
  | .sha1 => 8
  | .sha256 => 8
  | .sha512 => 16
  | .md5 => 8

/-- D = N x W/8, the digest bytes. -/
def Algorithm.digestBytes (a : Algorithm) : Nat := a.digestWords * a.wordBytes

/-- R, the rounds of the compression function. -/
def Algorithm.rounds : Algorithm → Nat
  | .sha1 => 80
  | .sha256 => 64
  | .sha512 => 80
  | .md5 => 64

/-- The byte order of words and length field: big-endian but for MD5 (20_memory.md R50, 90_conflicts.md C1). -/
def Algorithm.bigEndian : Algorithm → Bool
  | .sha1 => true
  | .sha256 => true
  | .sha512 => true
  | .md5 => false

end Sys2Proof

namespace Sys2Proof.Machine

/-- The descriptor ALG selects, or the model's stop where ALG holds no recognised tag (10_state.md R23). -/
def selected (s : State) : Except Fault Algorithm :=
  match Algorithm.ofTag s.alg with
  | some a => .ok a
  | none => .error .noAlgorithm

end Sys2Proof.Machine
end

