-- ==== Sys2Proof/Machine/Ops.lean ====
section
/-!
DEFINITION. Ops.lean: the named operations over BUF, the streams and the lifecycle registers.

The pseudocode primitives of 00_scope.md R16, fault entry (60_exceptions.md R171), which is this block's way of taking an
exception, and the reset event (70_reset_and_hazards.md R190), the only way out of a fault (R177: there is no return).
-/

namespace Sys2Proof.Machine

/-! ### BUF -/

/-- The canonical form from address `lo` on: addresses strictly rising and inside BUF (10_state.md R29). An unlisted address has
no value, so no entry repeats what an unlisted address reads as. -/
def Memory.wfFrom : Nat → Memory → Bool
  | _, [] => true
  | lo, (a, _) :: m => decide (lo ≤ a) && decide (a < Config.bufCapacity) && Memory.wfFrom (a + 1) m

/-- The canonical form of BUF. -/
def Memory.wf (m : Memory) : Bool := Memory.wfFrom 0 m

/-- One byte of BUF; none where nothing has written it. -/
def Memory.read : Memory → Nat → Option Byte
  | [], _ => none
  | (k, b) :: m, a => if k = a then some b else Memory.read m a

/-- One byte written, in address order. -/
def Memory.write : Memory → Nat → Byte → Memory
  | [], a, v => [(a, v)]
  | (k, b) :: m, a, v =>
    if a < k then (a, v) :: (k, b) :: m
    else if a = k then (a, v) :: m
    else (k, b) :: Memory.write m a v

/-- The `n` bytes from `addr` up, or the model's stop at one that nothing has written (log 6). -/
def Memory.readBytes (m : Memory) : Nat → Nat → Except Fault (List Byte)
  | _, 0 => .ok []
  | addr, n + 1 =>
    match m.read addr with
    | none => .error .unwrittenByte
    | some b =>
      match Memory.readBytes m (addr + 1) n with
      | .ok bs => .ok (b :: bs)
      | .error e => .error e

/-- The bytes written from `addr` up. -/
def Memory.writeBytes : Memory → Nat → List Byte → Memory
  | m, _, [] => m
  | m, addr, b :: bs => Memory.writeBytes (m.write addr b) (addr + 1) bs

/-- `MemRead(addr, n)`: `BUF[addr .. addr+n-1]`, defined for `addr + n <= C` (R16, 20_memory.md R53). -/
def memRead (c addr n : Nat) (m : Memory) : Except Fault (List Byte) :=
  if addr + n ≤ c then m.readBytes addr n else .error .bufferRange

/-- `MemWrite(addr, n, v)` with `n = len(v)`, defined for `addr + n <= C` (R16, 20_memory.md R53). -/
def memWrite (c addr : Nat) (v : List Byte) (m : Memory) : Except Fault Memory :=
  if addr + v.length ≤ c then .ok (m.writeBytes addr v) else .error .bufferRange

/-! ### Streams -/

/-- The command word at the head of `cmd` is consumed (20_memory.md R55, 30_encoding.md R80). -/
def retire (s : State) : State := { s with cmd := s.cmd.tail }

/-- Fewer than `n` bytes have been presented on `din`: a command that takes `n` waits (30_encoding.md R71). -/
def starved (n : Nat) (s : State) : Bool := decide (s.din.length < n)

/-- The UPDATE at the head of `cmd` waits for the rest of its payload (R71): nothing is consumed, and it has begun (log 1, log 23). -/
def awaitPayload (s : State) : State := { s with begun := true }

/-- What `din.take(n)` removes, the wait for it being over (R71, log 23); the bytes it returns are `s.din.take n`. -/
def dropPayload (n : Nat) (s : State) : State := { s with din := s.din.drop n, begun := false }

/-- `dout.emit(b)` (R71). -/
def emit (bs : List Byte) (s : State) : State := { s with dout := s.dout ++ bs }

/-! ### Faults and reset -/

/-- Fault entry, `raise X` (60_exceptions.md R171): CAUSE takes the code, PHASE becomes FAULTED, nothing else is saved or
changed. -/
def raise (c : Cause) (s : State) : State := { s with cause := c, phase := .faulted }

/-- H after reset event number `k`: unspecified, a free value in each register (R190, log 5). -/
def resetDigest (k : Nat) : Digest :=
  ⟨Config.resetH k 0, Config.resetH k 1, Config.resetH k 2, Config.resetH k 3,
   Config.resetH k 4, Config.resetH k 5, Config.resetH k 6, Config.resetH k 7⟩

/-- The reset event (R190): PHASE, CAUSE, ALG; nothing consumed from `cmd` or `din`, `dout` as it was. What R190 leaves
unspecified is a free value, for BUF no value, for the transients none (log 5, log 6). The request is taken (log 2). -/
def resetEvent (s : State) : State :=
  { s with
    phase := .idle, cause := .none, alg := 0x00#8
    h := resetDigest s.free, processed := Config.resetProcessed s.free, buflen := Config.resetBuflen s.free, buf := []
    rst := false, begun := false, uop := none, pad := [], ser := [], free := s.free + 1 }

/-! ### Outcomes -/

/-- A meaning's result as an outcome of the step. -/
def finish : Except Fault State → Result
  | .ok s => .next s
  | .error e => .fault e

end Sys2Proof.Machine
end

