-- ==== Sys2Proof/Machine/Operands.lean ====
section
/-!
DEFINITION. Operands.lean: every form in which a command or micro-operation obtains an operand.

The words of H under a 32-bit and a 64-bit descriptor (10_state.md R21), the words of a chunk in the byte order of the descriptor
(20_memory.md R50), the operands of an invoked micro-operation (30_encoding.md R79), the unprocessed bytes and the bit length
(46_padding_finalizer.md R150, R151).
-/

namespace Sys2Proof.Machine

/-! ### Words of H -/

/-- A digest register read under a 32-bit descriptor: its bits 31 to 0 (R21). -/
def low32 (x : Word64) : Word32 := x.setWidth 32

/-- `zext_64` of a 32-bit word written to a digest register: bits 63 to 32 are zero (R16, R21). -/
def zext64 (x : Word32) : Word64 := x.setWidth 64

/-- `H[0..7]` in order. -/
def Digest.words (h : Digest) : List Word64 := [h.h0, h.h1, h.h2, h.h3, h.h4, h.h5, h.h6, h.h7]

/-- The four working variables of MD5 (10_state.md R32). -/
structure Work4 where
  a : Word32
  b : Word32
  c : Word32
  d : Word32
deriving DecidableEq, Repr

/-- The five working variables of SHA-1 (10_state.md R32). -/
structure Work5 where
  a : Word32
  b : Word32
  c : Word32
  d : Word32
  e : Word32
deriving DecidableEq, Repr

/-- The eight working variables of SHA-256 and SHA-512 (10_state.md R32). -/
structure Work8 (w : Nat) where
  a : BitVec w
  b : BitVec w
  c : BitVec w
  d : BitVec w
  e : BitVec w
  f : BitVec w
  g : BitVec w
  h : BitVec w
deriving DecidableEq, Repr

/-- `H[0..3]` as four 32-bit words. -/
def Digest.load4 (h : Digest) : Work4 := ⟨low32 h.h0, low32 h.h1, low32 h.h2, low32 h.h3⟩

/-- `H[0..3] <- v`; the other registers keep their value (R21). -/
def Digest.store4 (h : Digest) (v : Work4) : Digest :=
  { h with h0 := zext64 v.a, h1 := zext64 v.b, h2 := zext64 v.c, h3 := zext64 v.d }

/-- `H[0..4]` as five 32-bit words. -/
def Digest.load5 (h : Digest) : Work5 := ⟨low32 h.h0, low32 h.h1, low32 h.h2, low32 h.h3, low32 h.h4⟩

/-- `H[0..4] <- v`; the other registers keep their value (R21). -/
def Digest.store5 (h : Digest) (v : Work5) : Digest :=
  { h with h0 := zext64 v.a, h1 := zext64 v.b, h2 := zext64 v.c, h3 := zext64 v.d, h4 := zext64 v.e }

/-- `H[0..7]` as eight 32-bit words. -/
def Digest.load8 (h : Digest) : Work8 32 :=
  ⟨low32 h.h0, low32 h.h1, low32 h.h2, low32 h.h3, low32 h.h4, low32 h.h5, low32 h.h6, low32 h.h7⟩

/-- `H[0..7] <- v`, 32-bit words. -/
def Digest.store8 (v : Work8 32) : Digest :=
  ⟨zext64 v.a, zext64 v.b, zext64 v.c, zext64 v.d, zext64 v.e, zext64 v.f, zext64 v.g, zext64 v.h⟩

/-- `H[0..7]` as eight 64-bit words. -/
def Digest.load64 (h : Digest) : Work8 64 := ⟨h.h0, h.h1, h.h2, h.h3, h.h4, h.h5, h.h6, h.h7⟩

/-- `H[0..7] <- v`, 64-bit words. -/
def Digest.store64 (v : Work8 64) : Digest := ⟨v.a, v.b, v.c, v.d, v.e, v.f, v.g, v.h⟩

/-! ### Words of a chunk -/

/-- `be(chunk[4t .. 4t+3])` (R50). -/
def beWord32 (chunk : List Byte) (t : Nat) : Word32 := BitVec.ofNat 32 (beValue (slice chunk (4 * t) 4))

/-- `be(chunk[8t .. 8t+7])` (R50). -/
def beWord64 (chunk : List Byte) (t : Nat) : Word64 := BitVec.ofNat 64 (beValue (slice chunk (8 * t) 8))

/-- `le(chunk[4j .. 4j+3])` (R50). -/
def leWord32 (chunk : List Byte) (j : Nat) : Word32 := BitVec.ofNat 32 (leValue (slice chunk (4 * j) 4))

/-- The sixteen parsed words of a chunk, word 0 first (step 1 of every compression function). -/
def parseWords {w : Nat} (word : List Byte → Nat → BitVec w) (chunk : List Byte) : List (BitVec w) :=
  (List.range 16).map (word chunk)

/-! ### Operands of an invoked micro-operation -/

/-- The chunk handed to COMPRESS, exactly C bytes (00_scope.md R17). -/
def invokedChunk (a : Algorithm) (s : State) : Except Fault (List Byte) :=
  match s.uop with
  | some (.compress chunk) => if chunk.length = a.chunkBytes then .ok chunk else .error .chunkLength
  | some (.pad _ _) => .error .noInvocation
  | some .serialize => .error .noInvocation
  | none => .error .noInvocation

/-- The unprocessed bytes and the bit length handed to PAD (R152). -/
def invokedPad (s : State) : Except Fault (List Byte × Word64) :=
  match s.uop with
  | some (.pad rest bitLength) => .ok (rest, bitLength)
  | some (.compress _) => .error .noInvocation
  | some .serialize => .error .noInvocation
  | none => .error .noInvocation

/-- SERIALIZE has been invoked; its operand is H (R160). -/
def invokedSerialize (s : State) : Except Fault Unit :=
  match s.uop with
  | some .serialize => .ok ()
  | some (.compress _) => .error .noInvocation
  | some (.pad _ _) => .error .noInvocation
  | none => .error .noInvocation

/-! ### Operands of DIGEST -/

/-- `MemRead(0, BUFLEN)`: the unprocessed bytes (R150). -/
def unprocessed (a : Algorithm) (s : State) : Except Fault (List Byte) :=
  memRead a.chunkBytes 0 s.buflen.toNat s.buf

/-- The bit length L: `total <- (PROCESSED + BUFLEN) mod 2^64`, `L <- (total * 8) mod 2^64` (R151). -/
def bitLength (s : State) : Word64 := (s.processed + s.buflen.setWidth 64) * 8#64

end Sys2Proof.Machine
end

