-- ==== Sys2Proof/Machine/Tables.lean ====
section
/-!
DEFINITION. Tables.lean: the constant tables of 10_state.md R34, read-only and shared by all instances.

The spec prints every entry and marks each as general knowledge that its source does not hold (00_scope.md R5,
93_implementation_defined.md G2 to G8); the known answers of 95_test_vectors.md V1 to V5 check them (log 14).
-/

namespace Sys2Proof.Machine

/-- `IV_SHA1` (42_sha1_compress.md R111); H[5..7] are zero (40_lifecycle.md R90). -/
def ivSha1 : Digest :=
  ⟨0x67452301, 0xefcdab89, 0x98badcfe, 0x10325476, 0xc3d2e1f0, 0, 0, 0⟩

/-- `IV_SHA256` (43_sha256_compress.md R121). -/
def ivSha256 : Digest :=
  ⟨0x6a09e667, 0xbb67ae85, 0x3c6ef372, 0xa54ff53a, 0x510e527f, 0x9b05688c, 0x1f83d9ab, 0x5be0cd19⟩

/-- `IV_SHA512` (44_sha512_compress.md R131). -/
def ivSha512 : Digest :=
  ⟨0x6a09e667f3bcc908, 0xbb67ae8584caa73b, 0x3c6ef372fe94f82b, 0xa54ff53a5f1d36f1,
   0x510e527fade682d1, 0x9b05688c2b3e6c1f, 0x1f83d9abfb41bd6b, 0x5be0cd19137e2179⟩

/-- `IV_MD5` (45_md5_compress.md R141); H[4..7] are zero (40_lifecycle.md R90). -/
def ivMd5 : Digest :=
  ⟨0x67452301, 0xefcdab89, 0x98badcfe, 0x10325476, 0, 0, 0, 0⟩

/-- `IV_tag`, what CREATE loads into H, zero-extended (40_lifecycle.md R90, R91). -/
def initialVector : Algorithm → Digest
  | .sha1 => ivSha1
  | .sha256 => ivSha256
  | .sha512 => ivSha512
  | .md5 => ivMd5

/-- `K_SHA1[q]`, `q = floor(t / 20)` (42_sha1_compress.md R112). -/
def kSha1 (q : Nat) : Word32 :=
  if q = 0 then 0x5a827999 else if q = 1 then 0x6ed9eba1 else if q = 2 then 0x8f1bbcdc else 0xca62c1d6

/-- `K_SHA256[0..63]` (43_sha256_compress.md R122), a row of the spec a line. -/
def kSha256Table : List (BitVec 32) :=
  [0x428a2f98#32, 0x71374491#32, 0xb5c0fbcf#32, 0xe9b5dba5#32, 0x3956c25b#32, 0x59f111f1#32, 0x923f82a4#32, 0xab1c5ed5#32] ++
  [0xd807aa98#32, 0x12835b01#32, 0x243185be#32, 0x550c7dc3#32, 0x72be5d74#32, 0x80deb1fe#32, 0x9bdc06a7#32, 0xc19bf174#32] ++
  [0xe49b69c1#32, 0xefbe4786#32, 0x0fc19dc6#32, 0x240ca1cc#32, 0x2de92c6f#32, 0x4a7484aa#32, 0x5cb0a9dc#32, 0x76f988da#32] ++
  [0x983e5152#32, 0xa831c66d#32, 0xb00327c8#32, 0xbf597fc7#32, 0xc6e00bf3#32, 0xd5a79147#32, 0x06ca6351#32, 0x14292967#32] ++
  [0x27b70a85#32, 0x2e1b2138#32, 0x4d2c6dfc#32, 0x53380d13#32, 0x650a7354#32, 0x766a0abb#32, 0x81c2c92e#32, 0x92722c85#32] ++
  [0xa2bfe8a1#32, 0xa81a664b#32, 0xc24b8b70#32, 0xc76c51a3#32, 0xd192e819#32, 0xd6990624#32, 0xf40e3585#32, 0x106aa070#32] ++
  [0x19a4c116#32, 0x1e376c08#32, 0x2748774c#32, 0x34b0bcb5#32, 0x391c0cb3#32, 0x4ed8aa4a#32, 0x5b9cca4f#32, 0x682e6ff3#32] ++
  [0x748f82ee#32, 0x78a5636f#32, 0x84c87814#32, 0x8cc70208#32, 0x90befffa#32, 0xa4506ceb#32, 0xbef9a3f7#32, 0xc67178f2#32]

/-- `K_SHA256[t]`. -/
def kSha256 (t : Nat) : Word32 := kSha256Table.getD t 0

/-- `K_SHA512[0..79]` (44_sha512_compress.md R132), a row of the spec a line. -/
def kSha512Table : List (BitVec 64) :=
  [0x428a2f98d728ae22#64, 0x7137449123ef65cd#64, 0xb5c0fbcfec4d3b2f#64, 0xe9b5dba58189dbbc#64] ++
  [0x3956c25bf348b538#64, 0x59f111f1b605d019#64, 0x923f82a4af194f9b#64, 0xab1c5ed5da6d8118#64] ++
  [0xd807aa98a3030242#64, 0x12835b0145706fbe#64, 0x243185be4ee4b28c#64, 0x550c7dc3d5ffb4e2#64] ++
  [0x72be5d74f27b896f#64, 0x80deb1fe3b1696b1#64, 0x9bdc06a725c71235#64, 0xc19bf174cf692694#64] ++
  [0xe49b69c19ef14ad2#64, 0xefbe4786384f25e3#64, 0x0fc19dc68b8cd5b5#64, 0x240ca1cc77ac9c65#64] ++
  [0x2de92c6f592b0275#64, 0x4a7484aa6ea6e483#64, 0x5cb0a9dcbd41fbd4#64, 0x76f988da831153b5#64] ++
  [0x983e5152ee66dfab#64, 0xa831c66d2db43210#64, 0xb00327c898fb213f#64, 0xbf597fc7beef0ee4#64] ++
  [0xc6e00bf33da88fc2#64, 0xd5a79147930aa725#64, 0x06ca6351e003826f#64, 0x142929670a0e6e70#64] ++
  [0x27b70a8546d22ffc#64, 0x2e1b21385c26c926#64, 0x4d2c6dfc5ac42aed#64, 0x53380d139d95b3df#64] ++
  [0x650a73548baf63de#64, 0x766a0abb3c77b2a8#64, 0x81c2c92e47edaee6#64, 0x92722c851482353b#64] ++
  [0xa2bfe8a14cf10364#64, 0xa81a664bbc423001#64, 0xc24b8b70d0f89791#64, 0xc76c51a30654be30#64] ++
  [0xd192e819d6ef5218#64, 0xd69906245565a910#64, 0xf40e35855771202a#64, 0x106aa07032bbd1b8#64] ++
  [0x19a4c116b8d2d0c8#64, 0x1e376c085141ab53#64, 0x2748774cdf8eeb99#64, 0x34b0bcb5e19b48a8#64] ++
  [0x391c0cb3c5c95a63#64, 0x4ed8aa4ae3418acb#64, 0x5b9cca4f7763e373#64, 0x682e6ff3d6b2b8a3#64] ++
  [0x748f82ee5defb2fc#64, 0x78a5636f43172f60#64, 0x84c87814a1f0ab72#64, 0x8cc702081a6439ec#64] ++
  [0x90befffa23631e28#64, 0xa4506cebde82bde9#64, 0xbef9a3f7b2c67915#64, 0xc67178f2e372532b#64] ++
  [0xca273eceea26619c#64, 0xd186b8c721c0c207#64, 0xeada7dd6cde0eb1e#64, 0xf57d4f7fee6ed178#64] ++
  [0x06f067aa72176fba#64, 0x0a637dc5a2c898a6#64, 0x113f9804bef90dae#64, 0x1b710b35131c471b#64] ++
  [0x28db77f523047d84#64, 0x32caab7b40c72493#64, 0x3c9ebe0a15c9bebc#64, 0x431d67c49c100d4c#64] ++
  [0x4cc5d4becb3e42b6#64, 0x597f299cfc657e2a#64, 0x5fcb6fab3ad6faec#64, 0x6c44198c4a475817#64]

/-- `K_SHA512[t]`. -/
def kSha512 (t : Nat) : Word64 := kSha512Table.getD t 0

/-- `K_MD5[0..63]` (45_md5_compress.md R142), a row of the spec a line. -/
def kMd5Table : List (BitVec 32) :=
  [0xd76aa478#32, 0xe8c7b756#32, 0x242070db#32, 0xc1bdceee#32, 0xf57c0faf#32, 0x4787c62a#32, 0xa8304613#32, 0xfd469501#32] ++
  [0x698098d8#32, 0x8b44f7af#32, 0xffff5bb1#32, 0x895cd7be#32, 0x6b901122#32, 0xfd987193#32, 0xa679438e#32, 0x49b40821#32] ++
  [0xf61e2562#32, 0xc040b340#32, 0x265e5a51#32, 0xe9b6c7aa#32, 0xd62f105d#32, 0x02441453#32, 0xd8a1e681#32, 0xe7d3fbc8#32] ++
  [0x21e1cde6#32, 0xc33707d6#32, 0xf4d50d87#32, 0x455a14ed#32, 0xa9e3e905#32, 0xfcefa3f8#32, 0x676f02d9#32, 0x8d2a4c8a#32] ++
  [0xfffa3942#32, 0x8771f681#32, 0x6d9d6122#32, 0xfde5380c#32, 0xa4beea44#32, 0x4bdecfa9#32, 0xf6bb4b60#32, 0xbebfbc70#32] ++
  [0x289b7ec6#32, 0xeaa127fa#32, 0xd4ef3085#32, 0x04881d05#32, 0xd9d4d039#32, 0xe6db99e5#32, 0x1fa27cf8#32, 0xc4ac5665#32] ++
  [0xf4292244#32, 0x432aff97#32, 0xab9423a7#32, 0xfc93a039#32, 0x655b59c3#32, 0x8f0ccc92#32, 0xffeff47d#32, 0x85845dd1#32] ++
  [0x6fa87e4f#32, 0xfe2ce6e0#32, 0xa3014314#32, 0x4e0811a1#32, 0xf7537e82#32, 0xbd3af235#32, 0x2ad7d2bb#32, 0xeb86d391#32]

/-- `K_MD5[i]`. -/
def kMd5 (i : Nat) : Word32 := kMd5Table.getD i 0

/-- `S_MD5[i]`: the amounts of the group `floor(i / 16)`, by `i mod 4` (45_md5_compress.md R143). -/
def sMd5 (i : Nat) : Nat :=
  let row :=
    if i / 16 = 0 then [7, 12, 17, 22]
    else if i / 16 = 1 then [5, 9, 14, 20]
    else if i / 16 = 2 then [4, 11, 16, 23]
    else [6, 10, 15, 21]
  row.getD (i % 4) 0

/-- `g_MD5(i)`, the message-order permutation (45_md5_compress.md R144). -/
def gMd5 (i : Nat) : Nat :=
  if i / 16 = 0 then i
  else if i / 16 = 1 then (5 * i + 1) % 16
  else if i / 16 = 2 then (3 * i + 5) % 16
  else (7 * i) % 16

end Sys2Proof.Machine
end

