-- ==== Sys2Proof/Machine/Md5.lean ====
section
/-!
DEFINITION. Md5.lean: the sub-block md5_compression_core (45_md5_compress.md). Little-endian (R147, 90_conflicts.md C1), four words
(C2), no schedule extension (C8).
-/

namespace Sys2Proof.Machine

/-- `f_i(b, c, d)` by the group `floor(i / 16)` (R145). -/
def md5F (i : Nat) (b c d : Word32) : Word32 :=
  if i / 16 = 0 then (b &&& c) ||| (~~~b &&& d)
  else if i / 16 = 1 then (b &&& d) ||| (c &&& ~~~d)
  else if i / 16 = 2 then b ^^^ c ^^^ d
  else c ^^^ (b ||| ~~~d)

/-- The message words `X[0..15]` of a chunk (R140 step 1, R147). -/
def md5Words (chunk : List Byte) : List Word32 := parseWords leWord32 chunk

/-- One step (R140 step 4, R146). -/
def md5Step (xs : List Word32) (i : Nat) (v : Work4) : Work4 :=
  { a := v.d
    b := v.b + rotl (sMd5 i) (v.a + md5F i v.b v.c v.d + kMd5 i + xs.getD (gMd5 i) 0)
    c := v.b
    d := v.c }

/-- The working variables after the first `count` steps. -/
def md5Steps (count : Nat) (hin : Work4) (chunk : List Byte) : Work4 := loop (md5Step (md5Words chunk)) 0 count hin

/-- `COMPRESS.MD5(Hin, chunk)` on four words (R140). -/
def md5Compress (hin : Work4) (chunk : List Byte) : Work4 :=
  let v := md5Steps 64 hin chunk
  ⟨hin.a + v.a, hin.b + v.b, hin.c + v.c, hin.d + v.d⟩

/-- `H[0..3] <- COMPRESS.MD5(H[0..3], chunk)`. -/
def compressMd5 (h : Digest) (chunk : List Byte) : Digest := h.store4 (md5Compress h.load4 chunk)

/-- The micro-operation COMPRESS.MD5 (R140), with the write of its result to H that its invoker makes (log 8). -/
def execCompressMd5 (s : State) : Result :=
  finish <| match invokedChunk .md5 s with
    | .ok chunk => .ok { s with h := compressMd5 s.h chunk, uop := none }
    | .error e => .error e

end Sys2Proof.Machine
end

