-- ==== Sys2Proof/Machine/Sha1.lean ====
section
/-!
DEFINITION. Sha1.lean: the sub-block sha1_compression_core (42_sha1_compress.md).
-/

namespace Sys2Proof.Machine

/-- `f_q(b, c, d)` (R112): choice, parity, majority, parity. -/
def sha1F (q : Nat) (b c d : Word32) : Word32 :=
  if q = 0 then (b &&& c) ^^^ (~~~b &&& d)
  else if q = 1 then b ^^^ c ^^^ d
  else if q = 2 then (b &&& c) ^^^ (b &&& d) ^^^ (c &&& d)
  else b ^^^ c ^^^ d

/-- The next word of the schedule (R110 step 2, R113). -/
def sha1Next (ws : List Word32) : Word32 := rotl 1 (back ws 3 ^^^ back ws 8 ^^^ back ws 14 ^^^ back ws 16)

/-- The message schedule `W[0..79]` of a chunk (R113). -/
def sha1Schedule (chunk : List Byte) : List Word32 :=
  (extend sha1Next 64 (parseWords beWord32 chunk).reverse).reverse

/-- One round (R110 step 4, R114). -/
def sha1Round (ws : List Word32) (t : Nat) (v : Work5) : Work5 :=
  { a := rotl 5 v.a + sha1F (t / 20) v.b v.c v.d + v.e + kSha1 (t / 20) + ws.getD t 0
    b := v.a
    c := rotl 30 v.b
    d := v.c
    e := v.d }

/-- The working variables after the first `count` rounds. -/
def sha1Rounds (count : Nat) (hin : Work5) (chunk : List Byte) : Work5 :=
  loop (sha1Round (sha1Schedule chunk)) 0 count hin

/-- `COMPRESS.SHA1(Hin, chunk)` on five words (R110), with the add-back of step 5 (R115). -/
def sha1Compress (hin : Work5) (chunk : List Byte) : Work5 :=
  let v := sha1Rounds 80 hin chunk
  ⟨hin.a + v.a, hin.b + v.b, hin.c + v.c, hin.d + v.d, hin.e + v.e⟩

/-- `H[0..4] <- COMPRESS.SHA1(H[0..4], chunk)`. -/
def compressSha1 (h : Digest) (chunk : List Byte) : Digest := h.store5 (sha1Compress h.load5 chunk)

/-- The micro-operation COMPRESS.SHA1 (R110), with the write of its result to H that its invoker makes (log 8). -/
def execCompressSha1 (s : State) : Result :=
  finish <| match invokedChunk .sha1 s with
    | .ok chunk => .ok { s with h := compressSha1 s.h chunk, uop := none }
    | .error e => .error e

end Sys2Proof.Machine
end

