-- ==== Sys2Proof/Machine/Sha2.lean ====
section
/-!
DEFINITION. Sha2.lean: what SHA-256 and SHA-512 share, at any word width.

43_sha256_compress.md R120 and 44_sha512_compress.md R130 have one pseudocode with different widths, sigma functions, constants and
round counts (R134); the sigma functions are never shared (R133) and stand in Sha256.lean and Sha512.lean.
-/

namespace Sys2Proof.Machine

/-- `Ch(x, y, z)` (R123, R133). -/
def sha2Ch {w : Nat} (x y z : BitVec w) : BitVec w := (x &&& y) ^^^ (~~~x &&& z)

/-- `Maj(x, y, z)` (R123, R133). -/
def sha2Maj {w : Nat} (x y z : BitVec w) : BitVec w := (x &&& y) ^^^ (x &&& z) ^^^ (y &&& z)

/-- The next word of the schedule, given the small-sigma functions (step 2 of R120, R130). -/
def sha2Next {w : Nat} (ssig0 ssig1 : BitVec w → BitVec w) (ws : List (BitVec w)) : BitVec w :=
  ssig1 (back ws 2) + back ws 7 + ssig0 (back ws 15) + back ws 16

/-- One round, given the capital-sigma functions, the round constant and the schedule word (step 4 of R120, R130, and R125). -/
def sha2Round {w : Nat} (bsig0 bsig1 : BitVec w → BitVec w) (k wt : BitVec w) (v : Work8 w) : Work8 w :=
  let t1 := v.h + bsig1 v.e + sha2Ch v.e v.f v.g + k + wt
  let t2 := bsig0 v.a + sha2Maj v.a v.b v.c
  { a := t1 + t2, b := v.a, c := v.b, d := v.c, e := v.d + t1, f := v.e, g := v.f, h := v.g }

/-- The add-back (step 5 of R120, R130, and R126). -/
def Work8.add {w : Nat} (x y : Work8 w) : Work8 w :=
  ⟨x.a + y.a, x.b + y.b, x.c + y.c, x.d + y.d, x.e + y.e, x.f + y.f, x.g + y.g, x.h + y.h⟩

end Sys2Proof.Machine
end

