-- ==== Sys2Proof/Machine/Sha256.lean ====
section
/-!
DEFINITION. Sha256.lean: the sub-block sha256_compression_core (43_sha256_compress.md).
-/

namespace Sys2Proof.Machine

/-- `BSIG0` (R123). -/
def sha256BSig0 (x : Word32) : Word32 := rotr 2 x ^^^ rotr 13 x ^^^ rotr 22 x

/-- `BSIG1` (R123). -/
def sha256BSig1 (x : Word32) : Word32 := rotr 6 x ^^^ rotr 11 x ^^^ rotr 25 x

/-- `SSIG0` (R123). -/
def sha256SSig0 (x : Word32) : Word32 := rotr 7 x ^^^ rotr 18 x ^^^ shr 3 x

/-- `SSIG1` (R123). -/
def sha256SSig1 (x : Word32) : Word32 := rotr 17 x ^^^ rotr 19 x ^^^ shr 10 x

/-- The message schedule `W[0..63]` of a chunk (R124). -/
def sha256Schedule (chunk : List Byte) : List Word32 :=
  (extend (sha2Next sha256SSig0 sha256SSig1) 48 (parseWords beWord32 chunk).reverse).reverse

/-- One round (R120 step 4, R125). -/
def sha256Round (ws : List Word32) (t : Nat) (v : Work8 32) : Work8 32 :=
  sha2Round sha256BSig0 sha256BSig1 (kSha256 t) (ws.getD t 0) v

/-- The working variables after the first `count` rounds. -/
def sha256Rounds (count : Nat) (hin : Work8 32) (chunk : List Byte) : Work8 32 :=
  loop (sha256Round (sha256Schedule chunk)) 0 count hin

/-- `COMPRESS.SHA256(Hin, chunk)` on eight 32-bit words (R120). -/
def sha256Compress (hin : Work8 32) (chunk : List Byte) : Work8 32 := hin.add (sha256Rounds 64 hin chunk)

/-- `H[0..7] <- COMPRESS.SHA256(H[0..7], chunk)`. -/
def compressSha256 (h : Digest) (chunk : List Byte) : Digest := Digest.store8 (sha256Compress h.load8 chunk)

/-- The micro-operation COMPRESS.SHA256 (R120), with the write of its result to H that its invoker makes (log 8). -/
def execCompressSha256 (s : State) : Result :=
  finish <| match invokedChunk .sha256 s with
    | .ok chunk => .ok { s with h := compressSha256 s.h chunk, uop := none }
    | .error e => .error e

end Sys2Proof.Machine
end

