-- ==== Sys2Proof/Machine/Sha512.lean ====
section
/-!
DEFINITION. Sha512.lean: the sub-block sha512_compression_core (44_sha512_compress.md).
-/

namespace Sys2Proof.Machine

/-- `BSIG0` (R133). -/
def sha512BSig0 (x : Word64) : Word64 := rotr 28 x ^^^ rotr 34 x ^^^ rotr 39 x

/-- `BSIG1` (R133). -/
def sha512BSig1 (x : Word64) : Word64 := rotr 14 x ^^^ rotr 18 x ^^^ rotr 41 x

/-- `SSIG0` (R133). -/
def sha512SSig0 (x : Word64) : Word64 := rotr 1 x ^^^ rotr 8 x ^^^ shr 7 x

/-- `SSIG1` (R133). -/
def sha512SSig1 (x : Word64) : Word64 := rotr 19 x ^^^ rotr 61 x ^^^ shr 6 x

/-- The message schedule `W[0..79]` of a chunk (R134). -/
def sha512Schedule (chunk : List Byte) : List Word64 :=
  (extend (sha2Next sha512SSig0 sha512SSig1) 64 (parseWords beWord64 chunk).reverse).reverse

/-- One round (R130 step 4, R134). -/
def sha512Round (ws : List Word64) (t : Nat) (v : Work8 64) : Work8 64 :=
  sha2Round sha512BSig0 sha512BSig1 (kSha512 t) (ws.getD t 0) v

/-- The working variables after the first `count` rounds. -/
def sha512Rounds (count : Nat) (hin : Work8 64) (chunk : List Byte) : Work8 64 :=
  loop (sha512Round (sha512Schedule chunk)) 0 count hin

/-- `COMPRESS.SHA512(Hin, chunk)` on eight 64-bit words (R130). -/
def sha512Compress (hin : Work8 64) (chunk : List Byte) : Work8 64 := hin.add (sha512Rounds 80 hin chunk)

/-- `H[0..7] <- COMPRESS.SHA512(H[0..7], chunk)`. -/
def compressSha512 (h : Digest) (chunk : List Byte) : Digest := Digest.store64 (sha512Compress h.load64 chunk)

/-- The micro-operation COMPRESS.SHA512 (R130), with the write of its result to H that its invoker makes (log 8). -/
def execCompressSha512 (s : State) : Result :=
  finish <| match invokedChunk .sha512 s with
    | .ok chunk => .ok { s with h := compressSha512 s.h chunk, uop := none }
    | .error e => .error e

end Sys2Proof.Machine
end

