-- ==== Sys2Proof/Machine/Compress.lean ====
section
/-!
DEFINITION. Compress.lean: the per-algorithm dispatch `Compress(alg, Hin, chunk)` (00_scope.md R17) and its loop over chunks.
-/

namespace Sys2Proof.Machine

/-- `H[0..N-1] <- Compress(ALG, H[0..N-1], chunk)` (R17, 30_encoding.md R79). -/
def compress (a : Algorithm) (h : Digest) (chunk : List Byte) : Digest :=
  match a with
  | .sha1 => compressSha1 h chunk
  | .sha256 => compressSha256 h chunk
  | .sha512 => compressSha512 h chunk
  | .md5 => compressMd5 h chunk

/-- `count` consecutive chunks of C bytes compressed in order, each on the H the one before produced (41_chunk_buffer.md R102,
46_padding_finalizer.md R153). -/
def compressChunks (a : Algorithm) : Nat → Digest → List Byte → Digest
  | 0, h, _ => h
  | count + 1, h, bytes =>
    compressChunks a count (compress a h (bytes.take a.chunkBytes)) (bytes.drop a.chunkBytes)

end Sys2Proof.Machine
end

