-- ==== Sys2Proof/Machine/Lifecycle.lean ====
section
/-!
DEFINITION. Lifecycle.lean: the command CREATE, and the order of the checks every command word goes through.

40_lifecycle.md R90, 30_encoding.md R80, 60_exceptions.md R172 to R174.
-/

namespace Sys2Proof.Machine

/-- Steps 2 and 4 of the decode procedure for UPDATE and DIGEST (R80, R172, R173), on the state after the word and its payload
have been consumed: ignored in FAULTED, NotCreated in IDLE, UseAfterDigest in DONE, otherwise the command's body. -/
def inActivePhase (body : State → Except Fault State) (s : State) : Except Fault State :=
  match s.phase with
  | .faulted => .ok s
  | .idle => .ok (raise .notCreated s)
  | .done => .ok (raise .useAfterDigest s)
  | .active => body s

/-- The full initialisation CREATE runs for a recognised tag (R90); BUF is not written (10_state.md R29). -/
def beginComputation (a : Algorithm) (s : State) : State :=
  { s with alg := a.tag, h := initialVector a, processed := 0, buflen := 0, phase := .active }

/-- What CREATE does once its word is consumed: ignored in FAULTED (R173), UnsupportedAlgorithm before anything is written
(R90, R175), else the initialisation. -/
def createBody (tag : BitVec 8) (s : State) : State :=
  if s.phase = .faulted then s
  else match Algorithm.ofTag tag with
    | none => raise .unsupportedAlgorithm s
    | some a => beginComputation a s

/-- `CREATE tag` (R90). -/
def execCreate (tag : BitVec 8) (s : State) : Result := .next (createBody tag (retire s))

/-- A word that is no command (30_encoding.md R78): ignored in FAULTED, else IllegalCommand. Nothing is taken from `din`. -/
def illegalWord (s : State) : State :=
  if s.phase = .faulted then retire s else raise .illegalCommand (retire s)

end Sys2Proof.Machine
end

