-- ==== Sys2Proof/Machine/ChunkBuffer.lean ====
section
/-!
DEFINITION. ChunkBuffer.lean: the sub-block hash_chunk_buffer and the command UPDATE (41_chunk_buffer.md).
-/

namespace Sys2Proof.Machine

/-- What the `while` loop of R100 carries: H, PROCESSED and the payload bytes from `pos` on. -/
structure Drain where
  h : Digest
  processed : Word64
  rest : List Byte
deriving DecidableEq, Repr

/-- The `while` loop of R100, `count` times: compress C bytes of the payload, count them, go on behind them (R102, R103). -/
def drainLoop (a : Algorithm) : Nat → Drain → Drain
  | 0, d => d
  | count + 1, d =>
    drainLoop a count
      { h := compress a d.h (d.rest.take a.chunkBytes)
        processed := d.processed + BitVec.ofNat 64 a.chunkBytes
        rest := d.rest.drop a.chunkBytes }

/-- The loop runs while at least C bytes remain. -/
def drain (a : Algorithm) (d : Drain) : Drain := drainLoop a (d.rest.length / a.chunkBytes) d

/-- The buffering branch of R100 (R101). -/
def bufferOnly (a : Algorithm) (data : List Byte) (s : State) : Except Fault State :=
  match memWrite a.chunkBytes s.buflen.toNat data s.buf with
  | .error e => .error e
  | .ok buf => .ok { s with buf := buf, buflen := BitVec.ofNat 8 (s.buflen.toNat + data.length) }

/-- The completing branch of R100 (R102). -/
def completeAndDrain (a : Algorithm) (data : List Byte) (s : State) : Except Fault State :=
  let k := a.chunkBytes - s.buflen.toNat
  match memWrite a.chunkBytes s.buflen.toNat (data.take k) s.buf with
  | .error e => .error e
  | .ok full =>
    match memRead a.chunkBytes 0 a.chunkBytes full with
    | .error e => .error e
    | .ok chunk =>
      let d := drain a
        { h := compress a s.h chunk
          processed := s.processed + BitVec.ofNat 64 a.chunkBytes
          rest := data.drop k }
      match memWrite a.chunkBytes 0 d.rest full with
      | .error e => .error e
      | .ok buf =>
        .ok { s with h := d.h, processed := d.processed, buf := buf, buflen := BitVec.ofNat 8 d.rest.length }

/-- `UPDATE(n, data)` in phase ACTIVE (R100). -/
def updateBody (data : List Byte) (s : State) : Except Fault State :=
  match selected s with
  | .error e => .error e
  | .ok a =>
    if s.buflen.toNat + data.length < a.chunkBytes then bufferOnly a data s else completeAndDrain a data s

/-- `UPDATE n` (R100). It waits, with nothing consumed and itself begun (log 23), until its n payload bytes have all been presented (30_encoding.md R71,
log 1); they are consumed in every phase (R81). -/
def execUpdate (n : Nat) (s : State) : Result :=
  if starved n s then .next (awaitPayload s)
  else finish (inActivePhase (updateBody (s.din.take n)) (dropPayload n (retire s)))

end Sys2Proof.Machine
end

