-- ==== Sys2Proof/Machine/Serializer.lean ====
section
/-!
DEFINITION. Serializer.lean: the sub-block hash_state_serializer, SERIALIZE (47_state_serializer.md).
-/

namespace Sys2Proof.Machine

/-- The bytes of one digest word: big-endian, for MD5 little-endian (R160, R161). -/
def wordToBytes (a : Algorithm) (x : Word64) : List Byte :=
  if a.bigEndian then toBe x.toNat a.wordBytes else toLe x.toNat a.wordBytes

/-- `SERIALIZE(H[0..N-1])`: the words in array order (R160). -/
def serialize (a : Algorithm) (h : Digest) : List Byte :=
  (h.words.take a.digestWords).flatMap (wordToBytes a)

/-- The micro-operation SERIALIZE (R160): it returns the bytes to its invoker and writes no other state (log 7). -/
def execSerialize (s : State) : Result :=
  finish <| match invokedSerialize s with
    | .error e => .error e
    | .ok () => match selected s with
      | .error e => .error e
      | .ok a => .ok { s with ser := serialize a s.h, uop := none }

end Sys2Proof.Machine
end

