-- ==== Sys2Proof/Machine/Finalizer.lean ====
section
/-!
DEFINITION. Finalizer.lean: the sub-block hash_padding_finalizer, PAD and the command DIGEST (46_padding_finalizer.md).
-/

namespace Sys2Proof.Machine

/-- `z`, the number of zero bytes PAD appends for `b` unprocessed bytes: `(C - F - (b + 1)) mod C` (R152), the remainder of the
integer in `0 .. C-1` (00_scope.md R13). -/
def padZeros (a : Algorithm) (b : Nat) : Nat :=
  (((a.chunkBytes : Int) - (a.lengthBytes : Int) - ((b : Int) + 1)) % (a.chunkBytes : Int)).toNat

/-- `LF`, the length field (R152, R157). -/
def lengthField (a : Algorithm) (bits : Word64) : List Byte :=
  match a with
  | .sha1 => toBe bits.toNat 8
  | .sha256 => toBe bits.toNat 8
  | .sha512 => zeros 8 ++ toBe bits.toNat 8
  | .md5 => toLe bits.toNat 8

/-- `PAD(rest, L)`: the padded tail (R152). -/
def padTail (a : Algorithm) (rest : List Byte) (bits : Word64) : List Byte :=
  rest ++ [0x80#8] ++ zeros (padZeros a rest.length) ++ lengthField a bits

/-- The micro-operation PAD (R152): it writes only the transient buffer PAD. -/
def execPad (s : State) : Result :=
  finish <| match invokedPad s with
    | .error e => .error e
    | .ok (rest, bits) => match selected s with
      | .error e => .error e
      | .ok a => .ok { s with pad := padTail a rest bits, uop := none }

/-- `DIGEST()` in phase ACTIVE (R150): PROCESSED, BUFLEN and BUF are not written (R155). -/
def digestBody (s : State) : Except Fault State :=
  match selected s with
  | .error e => .error e
  | .ok a =>
    match unprocessed a s with
    | .error e => .error e
    | .ok rest =>
      let tail := padTail a rest (bitLength s)
      let h := compressChunks a (tail.length / a.chunkBytes) s.h tail
      .ok { emit (serialize a h) { s with h := h } with phase := .done }

/-- `DIGEST` (R150). -/
def execDigest (s : State) : Result := finish (inActivePhase digestBody (retire s))

end Sys2Proof.Machine
end

