-- ==== Sys2Proof/Machine/Dispatch.lean ====
section
/-!
DEFINITION. Dispatch.lean: one arm per constructor of `Instr`.
-/

namespace Sys2Proof.Machine

def exec (i : Instr) (s : State) : Host.Outcome State Fault Refusal :=
  match i with
  | .create tag => Sys2Proof.Machine.execCreate tag s
  | .update n => Sys2Proof.Machine.execUpdate n s
  | .digest => Sys2Proof.Machine.execDigest s
  | .compressSha1 => Sys2Proof.Machine.execCompressSha1 s
  | .compressSha256 => Sys2Proof.Machine.execCompressSha256 s
  | .compressSha512 => Sys2Proof.Machine.execCompressSha512 s
  | .compressMd5 => Sys2Proof.Machine.execCompressMd5 s
  | .pad => Sys2Proof.Machine.execPad s
  | .serialize => Sys2Proof.Machine.execSerialize s

end Sys2Proof.Machine
end

