-- ==== Sys2Proof/Machine/Fetch.lean ====
section
/-!
DEFINITION. Fetch.lean: what the step takes next, and how a table word is placed there.

30_encoding.md R79, R80, 70_reset_and_hazards.md R190, R195.
-/

namespace Sys2Proof.Machine

/-- The word at the head of `cmd` is an UPDATE whose payload has not all been presented (R71, R195). -/
def waitingUpdate (s : State) : Bool :=
  match s.cmd with
  | [] => false
  | word :: _ => starved (payloadLength word) s

/-- The block is in the middle of a command, where R190 gives a reset no meaning: the UPDATE at the head of `cmd` has begun, whether or
not the rest of its payload has arrived since, or a micro-operation has been invoked and not run (log 3). An UPDATE on which no step has
run has not begun (DESIGN CHOICE, log 23). -/
def midCommand (s : State) : Bool := s.uop.isSome || s.begun

/-- A command word placed at the head of `cmd`, with a payload of zeros on `din` where it owns one (R81, log 13). -/
def placeCommand (word : CommandWord) (s : State) : State :=
  { s with
    cmd := word :: s.cmd, din := zeros (payloadLength word) ++ s.din, rst := false, begun := false, uop := none }

/-- The chunk size ALG selects; 64 where ALG holds no recognised tag. -/
def chunkBytesOf (alg : BitVec 8) : Nat :=
  match Algorithm.ofTag alg with
  | some a => a.chunkBytes
  | none => 64

/-- The COMPRESS micro-operation that a value of ALG selects, invoked on a chunk of zeros (R79, log 12, log 13). -/
def placeCompress (alg : BitVec 8) (s : State) : State :=
  { s with alg := alg, rst := false, uop := some (.compress (zeros (chunkBytesOf alg))) }

end Sys2Proof.Machine
end

