-- ==== Sys2Proof/Machine/Step.lean ====
section
/-!
DEFINITION. Step.lean: one step of the block.

The decode-and-execute loop of 30_encoding.md R80, one turn a step, with the reset event of 70_reset_and_hazards.md R190 between
turns. A step with nothing presented answers the state it was given, and one that waits for a payload only records that the UPDATE has begun
(log 1, log 23).
-/

namespace Sys2Proof.Machine

/-- One step: a requested reset, between commands only (R190, log 2, log 3; an UPDATE is in progress from the first step that finds its
payload incomplete to the one that completes it, log 23); else an invoked micro-operation (R79, log 7); else
the word at the head of `cmd`, an illegal one handled by R78, a legal one executed (R80). -/
def step (s : State) : Host.Outcome State Fault Refusal :=
  if s.rst then
    if midCommand s then .refused .resetMidCommand else .next (resetEvent s)
  else
    match s.uop with
    | some u =>
      match decode (.uop u.kind s.alg) with
      | .ok i => exec i s
      | .error _ => .fault .noAlgorithm
    | none =>
      match s.cmd with
      | [] => .next s
      | word :: _ =>
        match decode (.cmd word) with
        | .ok i => exec i s
        | .error _ => .next (illegalWord s)

/-- `s` with the instruction of a table word where the step takes its next one: a 32-bit word at the head of `cmd` with its
payload of zeros on `din`, an 8-bit value in ALG with a COMPRESS micro-operation invoked on a chunk of zeros (log 13). -/
def State.withFetchWord (s : State) (nbits w : Nat) : State :=
  if nbits = 8 then placeCompress (BitVec.ofNat 8 w) s else placeCommand (BitVec.ofNat 32 w) s

end Sys2Proof.Machine
end

