-- ==== Sys2Proof/Machine/Flags.lean ====
section
/-!
DEFINITION. Flags.lean: the status of the block.

CAUSE is the only status flag (10_state.md R26): no command computes a carry, zero, sign or overflow flag (00_scope.md R13).
PHASE and CAUSE are visible to the host on two outputs (R37).
-/

namespace Sys2Proof.Machine

/-- The two-bit encoding of PHASE (R24). -/
def Phase.code : Phase → BitVec 2
  | .idle => 0
  | .active => 1
  | .done => 2
  | .faulted => 3

/-- The four-bit code of CAUSE (R26). -/
def Cause.code : Cause → BitVec 4
  | .none => 0
  | .unsupportedAlgorithm => 1
  | .illegalCommand => 2
  | .notCreated => 3
  | .useAfterDigest => 4

/-- The output port `phase[1:0]` (30_encoding.md R70). -/
def State.phaseOut (s : State) : BitVec 2 := s.phase.code

/-- The output port `cause[3:0]` (30_encoding.md R70). -/
def State.causeOut (s : State) : BitVec 4 := s.cause.code

end Sys2Proof.Machine
end

