-- ==== Sys2Proof/Machine/Ports.lean ====
section
/-!
DEFINITION. Ports.lean: what the host can do to the block between steps (30_encoding.md R70, R71).

The outputs `phase` and `cause` are `State.phaseOut` and `State.causeOut`; `dout` is a field of State.
-/

namespace Sys2Proof.Machine

/-- The host presents a command word on `cmd` (R71). -/
def State.presentCommand (word : CommandWord) (s : State) : State := { s with cmd := s.cmd ++ [word] }

/-- The host presents payload bytes on `din` (R71). -/
def State.presentPayload (bytes : List Byte) (s : State) : State := { s with din := s.din ++ bytes }

/-- The host requests a reset on `rst` (R190). -/
def State.requestReset (s : State) : State := { s with rst := true }

/-- An invoker hands a chunk to the COMPRESS micro-operation ALG selects (R79). -/
def State.invokeCompress (chunk : List Byte) (s : State) : State := { s with uop := some (.compress chunk) }

/-- DIGEST hands PAD the unprocessed bytes and the bit length (46_padding_finalizer.md R150). -/
def State.invokePad (rest : List Byte) (bits : Word64) (s : State) : State := { s with uop := some (.pad rest bits) }

/-- DIGEST invokes SERIALIZE on H (46_padding_finalizer.md R154). -/
def State.invokeSerialize (s : State) : State := { s with uop := some .serialize }

end Sys2Proof.Machine
end

