-- ==== Sys2Proof/Machine/Assembler.lean ====
section
/-!
DEFINITION. Assembler.lean: the textual form of command sequences and the pseudo-instructions (30_encoding.md R82, R83).

A line is read to an `AsmLine`; a line's expansion is the command words it puts on `cmd` and the bytes it puts on `din`. The block
sees only those.
-/

namespace Sys2Proof.Machine

/-- The lines of R82 and R83. -/
inductive AsmLine where
  | create (a : Algorithm)
  | createTag (tag : BitVec 8)
  | update (data : List Byte)
  | digest
  | word (w : CommandWord)
  | bytes (data : List Byte)
  | hash (a : Algorithm) (data : List Byte)
  | push (b : Byte)
  | nopUpdate
deriving DecidableEq, Repr

/-- The word of `CREATE #tag`: `0x01000000 + tag` (R82). -/
def createWord (tag : BitVec 8) : CommandWord := 0x010000#24 ++ tag

/-- The word of an UPDATE of n bytes: `0x02000000 + n` (R82). -/
def updateWord (n : Nat) : CommandWord := 0x02#8 ++ BitVec.ofNat 24 n

/-- The word of DIGEST (R82). -/
def digestWord : CommandWord := 0x03000000#32

/-- The largest payload of one UPDATE (R76). -/
def maxPayload : Nat := 2 ^ 24 - 1

/-- Consecutive UPDATE words of at most `maxPayload` bytes that cover `length` bytes, `full` of them full (R83). DESIGN CHOICE
(log 19): R76 and R83 bound the pieces and leave the cut open; the full pieces come first and one rest last. -/
def updateWords : Nat → Nat → List CommandWord
  | 0, length => [updateWord length]
  | full + 1, length => updateWord maxPayload :: updateWords full (length - maxPayload)

/-- The UPDATE words of a payload of any length (R82, R83): one where it fits, else full pieces and a last one of 1 to `maxPayload`
bytes (log 19). -/
def updateLine (data : List Byte) : List CommandWord := updateWords ((data.length - 1) / maxPayload) data.length

/-- The command words of a line, in order. -/
def AsmLine.words : AsmLine → List CommandWord
  | .create a => [createWord a.tag]
  | .createTag tag => [createWord tag]
  | .update data => updateLine data
  | .digest => [digestWord]
  | .word w => [w]
  | .bytes _ => []
  | .hash a data => [createWord a.tag] ++ updateLine data ++ [digestWord]
  | .push _ => [updateWord 1]
  | .nopUpdate => [updateWord 0]

/-- The payload bytes of a line, in order. -/
def AsmLine.payload : AsmLine → List Byte
  | .create _ => []
  | .createTag _ => []
  | .update data => data
  | .digest => []
  | .word _ => []
  | .bytes data => data
  | .hash _ data => data
  | .push b => [b]
  | .nopUpdate => []

/-- A program presented to the block: every line's words on `cmd` and bytes on `din`, in order. -/
def State.present (program : List AsmLine) (s : State) : State :=
  { s with cmd := s.cmd ++ program.flatMap AsmLine.words, din := s.din ++ program.flatMap AsmLine.payload }

/-! ### Reading a line -/

/-- A reader of part of a line: what it reads and the rest, or none. -/
abbrev Reader (α : Type) := List Char → Option (α × List Char)

/-- Blanks skipped. -/
def skipBlanks (cs : List Char) : List Char := cs.dropWhile fun c => c == ' ' || c == '\t'

/-- A keyword at the head of the text. -/
def readWord : List Char → List Char → Option (List Char)
  | [], cs => some cs
  | _ :: _, [] => none
  | k :: ks, c :: cs => if k = c then readWord ks cs else none

/-- The value of a hexadecimal digit. -/
def hexDigit (c : Char) : Option Nat :=
  if '0' ≤ c ∧ c ≤ '9' then some (c.toNat - '0'.toNat)
  else if 'a' ≤ c ∧ c ≤ 'f' then some (c.toNat - 'a'.toNat + 10)
  else if 'A' ≤ c ∧ c ≤ 'F' then some (c.toNat - 'A'.toNat + 10)
  else none

/-- The value of a decimal digit. -/
def decDigit (c : Char) : Option Nat :=
  if '0' ≤ c ∧ c ≤ '9' then some (c.toNat - '0'.toNat) else none

/-- The longest run of digits of a base, most significant first; at least one. `acc` is the value so far, none before the first
digit. -/
def readDigits (digit : Char → Option Nat) (base : Nat) : Option Nat → Reader Nat
  | acc, [] => acc.map fun v => (v, [])
  | acc, c :: cs =>
    match digit c with
    | some d => readDigits digit base (some (acc.getD 0 * base + d)) cs
    | none => acc.map fun v => (v, c :: cs)

/-- A number: hexadecimal with the prefix `0x`, else decimal (00_scope.md R11). -/
def readNumber : Reader Nat
  | '0' :: 'x' :: cs => readDigits hexDigit 16 none cs
  | cs => readDigits decDigit 10 none cs

/-- The hexadecimal bytes up to a closing quote, spaces ignored; `high` is a first digit that waits for its second. -/
def readHexBytes : Option Nat → Reader (List Byte)
  | _, [] => none
  | high, c :: cs =>
    if c = '"' then
      match high with
      | none => some ([], cs)
      | some _ => none
    else if c = ' ' then readHexBytes high cs
    else
      match hexDigit c, high with
      | some d, none => readHexBytes (some d) cs
      | some d, some h => (readHexBytes none cs).map fun r => (BitVec.ofNat 8 (16 * h + d) :: r.1, r.2)
      | none, _ => none

/-- The printable ASCII characters up to a closing quote, no escapes. -/
def readText : Reader (List Byte)
  | [] => none
  | c :: cs =>
    if c = '"' then some ([], cs)
    else if 0x20 ≤ c.toNat ∧ c.toNat ≤ 0x7e then
      (readText cs).map fun r => (BitVec.ofNat 8 c.toNat :: r.1, r.2)
    else none

/-- A payload: `x"hh hh"` or `"text"` (R82). -/
def readData : Reader (List Byte)
  | 'x' :: '"' :: cs => readHexBytes none cs
  | '"' :: cs => readText cs
  | _ => none

/-- An algorithm name (R82). `SHA1` is no prefix of the others. -/
def readAlgorithm (cs : List Char) : Option (Algorithm × List Char) :=
  match readWord ['S', 'H', 'A', '1'] cs with
  | some r => some (.sha1, r)
  | none =>
    match readWord ['S', 'H', 'A', '2', '5', '6'] cs with
    | some r => some (.sha256, r)
    | none =>
      match readWord ['S', 'H', 'A', '5', '1', '2'] cs with
      | some r => some (.sha512, r)
      | none => (readWord ['M', 'D', '5'] cs).map fun r => (.md5, r)

/-- A keyword followed by a blank, and what comes after the blanks. -/
def readKeyword (k : List Char) (cs : List Char) : Option (List Char) :=
  match readWord k cs with
  | some (c :: r) => if c = ' ' ∨ c = '\t' then some (skipBlanks r) else none
  | some [] => none
  | none => none

/-- What may follow a command on its line: blanks, then nothing or a comment. -/
def lineEnd (cs : List Char) : Bool :=
  match skipBlanks cs with
  | [] => true
  | c :: _ => c == ';'

/-- The operand of CREATE: an algorithm name or `#tag`, a number 0 to 255 (R82). -/
def readCreate (cs : List Char) : Option (AsmLine × List Char) :=
  match cs with
  | '#' :: r =>
    match readNumber r with
    | some (v, r') => if v < 256 then some (.createTag (BitVec.ofNat 8 v), r') else none
    | none => none
  | _ => (readAlgorithm cs).map fun r => (.create r.1, r.2)

/-- The operands of HASH: an algorithm, a comma, a payload (R83). DESIGN CHOICE (log 19): R83 does not define its operand `alg`; it
is an algorithm name only, and the form `#tag` that CREATE also takes is refused. -/
def readHash (cs : List Char) : Option (AsmLine × List Char) :=
  match readAlgorithm cs with
  | none => none
  | some (a, r) =>
    match skipBlanks r with
    | ',' :: r' => (readData (skipBlanks r')).map fun d => (.hash a d.1, d.2)
    | _ => none

/-- A number below a bound, made a line. -/
def readBounded (bound : Nat) (line : Nat → AsmLine) (cs : List Char) : Option (AsmLine × List Char) :=
  match readNumber cs with
  | some (v, r) => if v < bound then some (line v, r) else none
  | none => none

/-- One command or pseudo-instruction at the head of the text. DESIGN CHOICE (log 19): R82 gives the operand of `.bytes` as `x"..."`
only, and the quoted text that UPDATE takes is read there too; the operands of `.word` and PUSH are numbers in any form
`readNumber` reads. -/
def readCommand (cs : List Char) : Option (AsmLine × List Char) :=
  match readKeyword ['C', 'R', 'E', 'A', 'T', 'E'] cs with
  | some r => readCreate r
  | none =>
  match readKeyword ['U', 'P', 'D', 'A', 'T', 'E'] cs with
  | some r => (readData r).map fun d => (.update d.1, d.2)
  | none =>
  match readKeyword ['.', 'w', 'o', 'r', 'd'] cs with
  | some r => readBounded (2 ^ 32) (fun v => .word (BitVec.ofNat 32 v)) r
  | none =>
  match readKeyword ['.', 'b', 'y', 't', 'e', 's'] cs with
  | some r => (readData r).map fun d => (.bytes d.1, d.2)
  | none =>
  match readKeyword ['H', 'A', 'S', 'H'] cs with
  | some r => readHash r
  | none =>
  match readKeyword ['P', 'U', 'S', 'H'] cs with
  | some r => readBounded 256 (fun v => .push (BitVec.ofNat 8 v)) r
  | none =>
  match readWord ['N', 'O', 'P', 'U', 'P', 'D', 'A', 'T', 'E'] cs with
  | some r => some (.nopUpdate, r)
  | none => (readWord ['D', 'I', 'G', 'E', 'S', 'T'] cs).map fun r => (.digest, r)

/-- One line of text: none where it is not in the syntax; no command on a blank or comment line (R82). -/
def readLine (cs : List Char) : Option (List AsmLine) :=
  let cs := skipBlanks cs
  if lineEnd cs then some []
  else
    match readCommand cs with
    | some (line, r) => if lineEnd r then some [line] else none
    | none => none

/-- The lines of a program (one command a line, R82). -/
def readProgram : List (List Char) → Option (List AsmLine)
  | [] => some []
  | l :: ls =>
    match readLine l, readProgram ls with
    | some x, some xs => some (x ++ xs)
    | _, _ => none

end Sys2Proof.Machine
end

