-- ==== Sys2Proof/Safety.lean ====
section
/-!
DEFINITION. Safety.lean: the terms in which claims about the machine are made.

The invariants the spec states (10_state.md R21, R23, R26, R30), what it means that a state has absorbed a message (R30 items 3 to 5),
the digest of a whole message, the agreement of two states up to what nothing reads (41_chunk_buffer.md R104, 10_state.md R36), and the end of a run
(70_reset_and_hazards.md R200).
-/

namespace Sys2Proof.Machine

/-! ### Invariants -/

/-- Under a descriptor, `H[0..N-1]` are below `2^W` and `H[N..7]` are zero (R21). -/
def Digest.fits (a : Algorithm) (h : Digest) : Bool :=
  (h.words.take a.digestWords).all (fun x => decide (x.toNat < 2 ^ (8 * a.wordBytes))) &&
    (h.words.drop a.digestWords).all (fun x => decide (x = 0))

/-- `BUF[0..BUFLEN-1]` have all been written (R29). -/
def State.bytesWritten (s : State) : Bool := (List.range s.buflen.toNat).all fun i => (s.buf.read i).isSome

/-- The Accumulator under a descriptor: R30 items 1 and 2, and R29. -/
def State.accumulatorOk (a : Algorithm) (s : State) : Bool :=
  decide (s.buflen.toNat < a.chunkBytes) && decide (s.processed.toNat % a.chunkBytes = 0) && s.bytesWritten

/-- A computation is in place: ALG holds a recognised tag (R23), and H and the Accumulator are as its descriptor has them. -/
def State.computationOk (s : State) : Bool :=
  match Algorithm.ofTag s.alg with
  | none => false
  | some a => s.accumulatorOk a && s.h.fits a

/-- What PHASE promises of the rest of the state. -/
def State.phaseOk (s : State) : Bool :=
  match s.phase with
  | .idle => decide (s.alg = 0x00#8)
  | .active => s.computationOk
  | .done => s.computationOk
  | .faulted => true

/-- A command that has begun is an UPDATE at the head of `cmd` (R71, log 23). -/
def State.begunOk (s : State) : Bool :=
  !s.begun || match s.cmd with
    | [] => false
    | word :: _ => decide (opField word = 0x02#8)

/-- The invariant of the machine between steps. -/
def State.inv (s : State) : Bool :=
  s.buf.wf && (decide (s.cause = .none) != decide (s.phase = .faulted)) && s.uop.isNone && s.begunOk && s.phaseOk

/-! ### Messages -/

/-- The message is padded as a whole, cut into chunks, folded with Compress from the initial vector, and serialised: the digest of
a message (00_scope.md R17, 46_padding_finalizer.md R152, R153, R160). The bit length is modulo `2^64` (R151). -/
def digestOf (a : Algorithm) (msg : List Byte) : List Byte :=
  let padded := padTail a msg (BitVec.ofNat 64 (8 * msg.length))
  serialize a (compressChunks a (padded.length / a.chunkBytes) (initialVector a) padded)

/-- The state has received exactly the bytes `msg` since CREATE under algorithm `a` (R30 items 3, 4, 5). -/
structure Absorbed (a : Algorithm) (msg : List Byte) (s : State) : Prop where
  phase : s.phase = .active
  alg : s.alg = a.tag
  digest : s.h = compressChunks a (msg.length / a.chunkBytes) (initialVector a) msg
  processed : s.processed = BitVec.ofNat 64 (a.chunkBytes * (msg.length / a.chunkBytes))
  buflen : s.buflen.toNat = msg.length % a.chunkBytes
  buffered : s.buf.readBytes 0 (msg.length % a.chunkBytes) =
    .ok (msg.drop (a.chunkBytes * (msg.length / a.chunkBytes)))

/-- Agreement on everything a later command can read: PHASE, ALG, H, PROCESSED, BUFLEN and `BUF[0..BUFLEN-1]` (R104). -/
structure SameComputation (s t : State) : Prop where
  phase : s.phase = t.phase
  alg : s.alg = t.alg
  h : s.h = t.h
  processed : s.processed = t.processed
  buflen : s.buflen = t.buflen
  buffered : ∀ i, i < s.buflen.toNat → s.buf.read i = t.buf.read i

/-- What a descriptor reads of H: the low W bits of `H[0..N-1]` (R21). -/
def Digest.visible (a : Algorithm) (h : Digest) : List Nat :=
  (h.words.take a.digestWords).map fun x => x.toNat % 2 ^ (8 * a.wordBytes)

/-- Agreement on everything that can influence an output: what the host sees, what it has presented, which command is in progress, and, in
ACTIVE only, the
computation as its descriptor reads it. Stale bytes of BUF, the upper bits and the unused registers of H, the transients, outside
ACTIVE the whole computation, and the model's own counter may differ (R36). -/
structure Indistinguishable (s t : State) : Prop where
  phase : s.phase = t.phase
  cause : s.cause = t.cause
  cmd : s.cmd = t.cmd
  din : s.din = t.din
  dout : s.dout = t.dout
  rst : s.rst = t.rst
  begun : s.begun = t.begun
  uop : s.uop = t.uop
  alg : s.phase = .active → s.alg = t.alg
  processed : s.phase = .active → s.processed = t.processed
  buflen : s.phase = .active → s.buflen = t.buflen
  buffered : s.phase = .active → ∀ i, i < s.buflen.toNat → s.buf.read i = t.buf.read i
  visible : s.phase = .active → ∀ a : Algorithm, s.alg = a.tag → s.h.visible a = t.h.visible a

/-- COMPRESS invoked on `count` consecutive chunks of `bytes`, each as an instruction of its own (46_padding_finalizer.md R153). -/
def compressByInvocation (a : Algorithm) : Nat → List Byte → State → Result
  | 0, _, s => .next s
  | count + 1, bytes, s =>
    match exec (compressOf a) (s.invokeCompress (bytes.take a.chunkBytes)) with
    | .next t => compressByInvocation a count (bytes.drop a.chunkBytes) t
    | .fault e => .fault e
    | .refused r => .refused r

/-! ### Runs -/

/-- `count` steps of the machine behind the host's interface. -/
def run (count : Nat) (s : State) : Result := Sys2Proof.core.run count s

/-- The run is over: nothing presented is left, and the last command has completed (R200). -/
def State.runOver (s : State) : Bool := decide (s.cmd = []) && s.uop.isNone

/-- It ended well: IDLE, ACTIVE or DONE (R200). -/
def State.endedWell (s : State) : Bool := s.runOver && decide (s.phase ≠ .faulted)

/-- It ended badly: FAULTED (R200). -/
def State.endedBadly (s : State) : Bool := s.runOver && decide (s.phase = .faulted)

/-- It is stuck: an UPDATE waits for payload bytes that `din` does not hold (R195, R200). -/
def State.stuck (s : State) : Bool := waitingUpdate s

end Sys2Proof.Machine
end

