-- ==== Sys2Proof/Certificates/Slice0/Obligations.lean ====
section
/-!
DEFINITION. Obligations.lean: what is stated of the machine, for the provers.

Each docstring names the rule of spec/ the statement formalises. A completion statement gives the whole next state, so that every
field it does not name is unchanged.
-/

open Sys2Proof Sys2Proof.Machine

/-! ### Encoding -/

/-- Words written out from 30_encoding.md R72 to R78, and what they decode to; illegal words by the name of their reason; and the selections of
R79. That a micro-operation is decoded from the invoked unit beside the value of ALG, so that PAD and SERIALIZE are told from COMPRESS, is the
model's choice (log 12). -/
def Obligations.SpecWordsDecodeAsPrinted : Prop :=
  decode (.cmd 0x01000001#32) = .ok (.create 0x01#8) ∧ decode (.cmd 0x010000ff#32) = .ok (.create 0xff#8) ∧
  decode (.cmd 0x0200003c#32) = .ok (.update 60) ∧ decode (.cmd 0x02ffffff#32) = .ok (.update 16777215) ∧
  decode (.cmd 0x03000000#32) = .ok .digest ∧
  decode (.uop .compress 0x01#8) = .ok .compressSha1 ∧ decode (.uop .compress 0x02#8) = .ok .compressSha256 ∧
  decode (.uop .compress 0x03#8) = .ok .compressSha512 ∧ decode (.uop .compress 0x04#8) = .ok .compressMd5 ∧
  decode (.uop .pad 0x03#8) = .ok .pad ∧ decode (.uop .serialize 0x04#8) = .ok .serialize ∧
  decode (.cmd 0x00000000#32) = .error .unassignedOpcode ∧ decode (.cmd 0x04000000#32) = .error .unassignedOpcode ∧
  decode (.cmd 0x01000101#32) = .error .createReservedBits ∧ decode (.cmd 0x03000001#32) = .error .digestReservedBits ∧
  decode (.uop .compress 0x00#8) = .error .unrecognisedAlg

/-- No bit of an encoding is dropped: every well-formed instruction is read back from its code. -/
def Obligations.DecodeOfEncodeIsIdentity : Prop :=
  ∀ (a : Algorithm) (i : Instr), i.wellFormed = true → decode (encode a i) = .ok i

/-- Every legal command word has one meaning: it is the encoding of the instruction it decodes to. -/
def Obligations.EncodeOfDecodedWordIsTheWord : Prop :=
  ∀ (word : CommandWord) (i : Instr), decode (.cmd word) = .ok i →
    i.wellFormed = true ∧ ∀ a : Algorithm, encode a i = .cmd word

/-! ### The step -/

/-- R80: one turn of the decode loop runs the instruction at the head of `cmd`; with nothing presented the block waits, which is a
step to the same state (log 1). -/
def Obligations.StepRunsTheDecodedCommand : Prop :=
  (∀ (s : State) (word : CommandWord) (rest : List CommandWord) (i : Instr),
    s.rst = false → s.uop = none → s.cmd = word :: rest → decode (.cmd word) = .ok i → step s = exec i s) ∧
  (∀ s : State, s.rst = false → s.uop = none → s.cmd = [] → step s = .next s)

/-- An invoked micro-operation is run before anything else is taken: the one its kind and the value of ALG select (R79). That an
invocation stands in the state is the model's choice (log 7). -/
def Obligations.StepRunsTheInvokedMicroOperation : Prop :=
  ∀ (s : State) (u : Uop) (a : Algorithm),
    s.rst = false → s.uop = some u → s.alg = a.tag → step s = exec (uopOf u.kind a) s

/-- The host's placement of a table word is what the very next step runs (the model's choice, log 13). -/
def Obligations.PlacedTableWordRunsNext : Prop :=
  ∀ (s : State) (nbits w : Nat) (i : Instr),
    decodeTableWord nbits w = some i → step (s.withFetchWord nbits w) = exec i (s.withFetchWord nbits w)

/-- R78: exactly the three conditions make a word illegal; an illegal word raises IllegalCommand (code 2) in IDLE, ACTIVE and DONE,
is ignored in FAULTED, and takes nothing from `din`; every bit of a legal word is a fixed bit or part of an operand; an unrecognised tag in an
otherwise legal CREATE word is not illegal. -/
def Obligations.IllegalWordRaisesIllegalCommand : Prop :=
  (∀ word : CommandWord,
    (∃ e, decode (.cmd word) = .error e) ↔
      ((word.extractLsb' 24 8 ≠ 0x01#8 ∧ word.extractLsb' 24 8 ≠ 0x02#8 ∧ word.extractLsb' 24 8 ≠ 0x03#8) ∨
       (word.extractLsb' 24 8 = 0x01#8 ∧ word.extractLsb' 8 16 ≠ 0#16) ∨
       (word.extractLsb' 24 8 = 0x03#8 ∧ word.extractLsb' 0 24 ≠ 0#24))) ∧
  (∀ (s : State) (word : CommandWord) (rest : List CommandWord) (e : DecodeError),
    s.rst = false → s.uop = none → s.cmd = word :: rest → decode (.cmd word) = .error e →
      step s = .next (if s.phase = .faulted then { s with cmd := rest }
        else { s with cmd := rest, cause := .illegalCommand, phase := .faulted })) ∧
  Cause.illegalCommand.code = 2#4 ∧
  (∀ (word word' : CommandWord) (i : Instr), decode (.cmd word) = .ok i → decode (.cmd word') = .ok i → word = word') ∧
  (∀ tag : BitVec 8, decode (.cmd (0x01#8 ++ 0x0000#16 ++ tag)) = .ok (.create tag))

/-- R25, the transition table: what each event makes of PHASE and CAUSE, from every phase. -/
def Obligations.PhaseFollowsTransitionTable : Prop :=
  (∀ s : State, (resetEvent s).phase = .idle) ∧
  (∀ (s t : State) (word : CommandWord) (rest : List CommandWord),
    s.rst = false → s.uop = none → s.cmd = word :: rest → payloadLength word ≤ s.din.length → step s = .next t →
      (s.phase = .faulted → t.phase = .faulted ∧ t.cause = s.cause) ∧
      (s.phase ≠ .faulted →
        (∀ a : Algorithm, decode (.cmd word) = .ok (.create a.tag) → t.phase = .active ∧ t.cause = s.cause) ∧
        (∀ tag : BitVec 8, decode (.cmd word) = .ok (.create tag) → Algorithm.ofTag tag = none →
          t.phase = .faulted ∧ t.cause = .unsupportedAlgorithm) ∧
        (∀ n : Nat, decode (.cmd word) = .ok (.update n) →
          (s.phase = .idle → t.phase = .faulted ∧ t.cause = .notCreated) ∧
          (s.phase = .active → t.phase = .active ∧ t.cause = s.cause) ∧
          (s.phase = .done → t.phase = .faulted ∧ t.cause = .useAfterDigest)) ∧
        (decode (.cmd word) = .ok .digest →
          (s.phase = .idle → t.phase = .faulted ∧ t.cause = .notCreated) ∧
          (s.phase = .active → t.phase = .done ∧ t.cause = s.cause) ∧
          (s.phase = .done → t.phase = .faulted ∧ t.cause = .useAfterDigest)) ∧
        (∀ e : DecodeError, decode (.cmd word) = .error e → t.phase = .faulted ∧ t.cause = .illegalCommand)))

/-- R24, R26, R37: the codes of PHASE and CAUSE and the outputs that mirror them. -/
def Obligations.StatusOutputsCarryTheCodes : Prop :=
  (∀ s : State, s.phaseOut = s.phase.code ∧ s.causeOut = s.cause.code) ∧
  Phase.idle.code = 0#2 ∧ Phase.active.code = 1#2 ∧ Phase.done.code = 2#2 ∧ Phase.faulted.code = 3#2 ∧
  Cause.none.code = 0#4 ∧ Cause.unsupportedAlgorithm.code = 1#4 ∧ Cause.illegalCommand.code = 2#4 ∧
  Cause.notCreated.code = 3#4 ∧ Cause.useAfterDigest.code = 4#4

/-! ### Reset and faults -/

/-- R38, R190: PHASE, CAUSE and ALG after reset. -/
def Obligations.ResetStateIsIdle : Prop :=
  State.reset.phase = .idle ∧ State.reset.cause = .none ∧ State.reset.alg = 0x00#8 ∧
  State.reset.phaseOut = 0#2 ∧ State.reset.causeOut = 0#4

/-- A reset request between commands sets PHASE, CAUSE and ALG in whatever phase, and touches no stream (70_reset_and_hazards.md
section 1). That the request is taken before a word that has not begun, and is refused while a command is under way, is the model's
choice (log 2, log 3), and so is that an UPDATE is under way from the first step that finds its payload incomplete (log 23). -/
def Obligations.RequestedResetRestoresIdle : Prop :=
  (∀ s : State, s.rst = true → s.uop = none → s.begun = false →
    ∃ t, step s = .next t ∧ t.phase = .idle ∧ t.cause = .none ∧ t.alg = 0x00#8 ∧
      t.cmd = s.cmd ∧ t.din = s.din ∧ t.dout = s.dout ∧ t.rst = false ∧ t.begun = false) ∧
  (∀ s : State, s.rst = true → (s.uop ≠ none ∨ s.begun = true) → step s = .refused .resetMidCommand)

/-- R173: in FAULTED every word is consumed and ignored, an UPDATE word with its n payload bytes; CAUSE keeps the first code, nothing is emitted,
only reset leaves FAULTED, and such a run has not ended well. For `b`, the record that an UPDATE is in progress, see
`UpdateIsInProgressUntilItsPayloadArrives` (log 23). -/
def Obligations.FaultedBlockIgnoresEveryWord : Prop :=
  (∀ (s : State) (word : CommandWord) (rest : List CommandWord) (n : Nat),
    s.phase = .faulted → s.rst = false → s.uop = none → s.cmd = word :: rest →
    n = (if word.extractLsb' 24 8 = 0x02#8 then (word.extractLsb' 0 24).toNat else 0) → n ≤ s.din.length →
      ∃ b, step s = .next { s with cmd := rest, din := s.din.drop n, begun := b }) ∧
  (∀ s t : State, s.phase = .faulted → s.rst = false → step s = .next t →
    t.phase = .faulted ∧ t.cause = s.cause ∧ t.dout = s.dout) ∧
  (∀ s : State, s.phase = .faulted → s.endedWell = false)

/-- R172: UPDATE and DIGEST raise NotCreated in IDLE and UseAfterDigest in DONE, an UPDATE consuming its payload; CREATE is subject to
no phase fault. For `b`, the record that an UPDATE is in progress, see `UpdateIsInProgressUntilItsPayloadArrives` (log 23). -/
def Obligations.UpdateAndDigestFaultOutsideActive : Prop :=
  (∀ (s : State) (n : Nat), n ≤ s.din.length →
    (s.phase = .idle → ∃ b, exec (.update n) s =
      .next { s with cmd := s.cmd.tail, din := s.din.drop n, cause := .notCreated, phase := .faulted, begun := b }) ∧
    (s.phase = .done → ∃ b, exec (.update n) s =
      .next { s with cmd := s.cmd.tail, din := s.din.drop n, cause := .useAfterDigest, phase := .faulted, begun := b })) ∧
  (∀ s : State,
    (s.phase = .idle → exec .digest s =
      .next { s with cmd := s.cmd.tail, cause := .notCreated, phase := .faulted }) ∧
    (s.phase = .done → exec .digest s =
      .next { s with cmd := s.cmd.tail, cause := .useAfterDigest, phase := .faulted })) ∧
  (∀ (s t : State) (tag : BitVec 8), exec (.create tag) s = .next t →
    t.cause = s.cause ∨ t.cause = .unsupportedAlgorithm)

/-- Where the spec defines no operation the model stops by name (the model's own stops, log 11): a micro-operation that has not been invoked, or
where another unit's invocation stands; a COMPRESS with a chunk of another length than C; UPDATE, DIGEST, PAD and SERIALIZE, and the step of an
invoked micro-operation, where ALG holds no tag; an access to BUF outside `addr + n <= C`; a byte of BUF that nothing has written. -/
def Obligations.OutsideTheSpecifiedDomainTheModelStops : Prop :=
  (∀ s : State, s.uop = none →
    exec .compressSha1 s = .fault .noInvocation ∧ exec .compressSha256 s = .fault .noInvocation ∧
    exec .compressSha512 s = .fault .noInvocation ∧ exec .compressMd5 s = .fault .noInvocation ∧
    exec .pad s = .fault .noInvocation ∧ exec .serialize s = .fault .noInvocation) ∧
  (∀ (s : State) (u : Uop) (kind : UopKind) (a : Algorithm), s.uop = some u → u.kind ≠ kind →
    exec (uopOf kind a) s = .fault .noInvocation) ∧
  (∀ (s : State) (a : Algorithm) (chunk : List Byte), s.uop = some (.compress chunk) → chunk.length ≠ a.chunkBytes →
    exec (compressOf a) s = .fault .chunkLength) ∧
  (∀ (s : State) (rest : List Byte) (L : Word64), s.uop = some (.pad rest L) → Algorithm.ofTag s.alg = none →
    exec .pad s = .fault .noAlgorithm) ∧
  (∀ s : State, s.uop = some .serialize → Algorithm.ofTag s.alg = none → exec .serialize s = .fault .noAlgorithm) ∧
  (∀ (s : State) (u : Uop), s.rst = false → s.uop = some u → Algorithm.ofTag s.alg = none →
    step s = .fault .noAlgorithm) ∧
  (∀ (s : State) (n : Nat), s.phase = .active → Algorithm.ofTag s.alg = none → n ≤ s.din.length →
    exec (.update n) s = .fault .noAlgorithm ∧ exec .digest s = .fault .noAlgorithm) ∧
  (∀ (s : State) (a : Algorithm) (n : Nat), s.phase = .active → s.alg = a.tag → n ≤ s.din.length →
    a.chunkBytes < s.buflen.toNat →
    exec (.update n) s = .fault .bufferRange ∧ exec .digest s = .fault .bufferRange) ∧
  (∀ (s : State) (a : Algorithm) (n i : Nat), s.phase = .active → s.alg = a.tag → n ≤ s.din.length →
    s.buflen.toNat ≤ a.chunkBytes → i < s.buflen.toNat → s.buf.read i = none →
    exec .digest s = .fault .unwrittenByte ∧
    (a.chunkBytes ≤ s.buflen.toNat + n → exec (.update n) s = .fault .unwrittenByte))

/-- The converse, a meaning stops nowhere else (the model's own stops, log 11): every fault of a meaning is one of the cases in which the spec
defines no operation, each with its name, CREATE never faults, and no meaning refuses. -/
def Obligations.EveryStopLiesOutsideTheSpecifiedDomain : Prop :=
  (∀ (i : Instr) (s : State) (e : Refusal), exec i s ≠ .refused e) ∧
  ∀ (i : Instr) (s : State) (f : Fault), exec i s = .fault f →
    match f with
    | .noInvocation => ∃ (kind : UopKind) (a : Algorithm), i = uopOf kind a ∧ s.uop.map Uop.kind ≠ some kind
    | .chunkLength => ∃ (a : Algorithm) (chunk : List Byte), i = compressOf a ∧ s.uop = some (.compress chunk) ∧
        chunk.length ≠ a.chunkBytes
    | .noAlgorithm => Algorithm.ofTag s.alg = none ∧
        ((i = .pad ∧ s.uop.map Uop.kind = some .pad) ∨ (i = .serialize ∧ s.uop = some .serialize) ∨
         (s.phase = .active ∧ (i = .digest ∨ ∃ n, i = .update n ∧ n ≤ s.din.length)))
    | .bufferRange => ∃ a : Algorithm, s.alg = a.tag ∧ s.phase = .active ∧ a.chunkBytes < s.buflen.toNat ∧
        (i = .digest ∨ ∃ n, i = .update n ∧ n ≤ s.din.length)
    | .unwrittenByte => ∃ a : Algorithm, s.alg = a.tag ∧ s.phase = .active ∧ s.buflen.toNat ≤ a.chunkBytes ∧
        (∃ j, j < s.buflen.toNat ∧ s.buf.read j = none) ∧
        (i = .digest ∨ ∃ n, i = .update n ∧ n ≤ s.din.length ∧ a.chunkBytes ≤ s.buflen.toNat + n)

/-- R171, R174: at most one fault a word, the checks in a fixed order: FAULTED ignores; legality; the phase, for UPDATE and DIGEST; the tag, for
CREATE. A fault writes CAUSE and PHASE and nothing else; the word, and an UPDATE's payload, are consumed. For `b`, the record that an UPDATE is
in progress, see `UpdateIsInProgressUntilItsPayloadArrives` (log 23). -/
def Obligations.FaultsFollowFixedPriority : Prop :=
  ∀ (s : State) (word : CommandWord) (rest : List CommandWord),
    s.rst = false → s.uop = none → s.cmd = word :: rest → payloadLength word ≤ s.din.length →
    (s.phase = .faulted → ∃ b, step s = .next { s with cmd := rest, din := s.din.drop (payloadLength word), begun := b }) ∧
    (s.phase ≠ .faulted →
      (∀ e : DecodeError, decode (.cmd word) = .error e → ∃ b, step s = .next { s with
        cmd := rest, din := s.din.drop (payloadLength word), cause := .illegalCommand, phase := .faulted, begun := b }) ∧
      (∀ i : Instr, decode (.cmd word) = .ok i → (i = .digest ∨ ∃ n, i = .update n) →
        (s.phase = .idle → ∃ b, step s = .next { s with
          cmd := rest, din := s.din.drop (payloadLength word), cause := .notCreated, phase := .faulted, begun := b }) ∧
        (s.phase = .done → ∃ b, step s = .next { s with
          cmd := rest, din := s.din.drop (payloadLength word), cause := .useAfterDigest, phase := .faulted, begun := b })) ∧
      (∀ tag : BitVec 8, decode (.cmd word) = .ok (.create tag) → Algorithm.ofTag tag = none → ∃ b, step s = .next { s with
        cmd := rest, din := s.din.drop (payloadLength word), cause := .unsupportedAlgorithm, phase := .faulted, begun := b }))

/-- Which events write which state (10_state.md sections 2 to 4): ALG is written by a successful CREATE only; PROCESSED and BUFLEN by CREATE and
UPDATE; BUF by UPDATE; CAUSE by fault entry only; H by CREATE and through Compress; and the record that an UPDATE is in progress by an UPDATE
(log 23). Resets apart. -/
def Obligations.ControlStateHasFixedWriters : Prop :=
  ∀ s t : State, s.rst = false → step s = .next t →
    (t.alg ≠ s.alg → ∃ (a : Algorithm) (rest : List CommandWord),
      s.cmd = createWord a.tag :: rest ∧ t.alg = a.tag ∧ t.phase = .active) ∧
    (t.processed ≠ s.processed ∨ t.buflen ≠ s.buflen → ∃ (word : CommandWord) (rest : List CommandWord), s.cmd = word :: rest ∧
      ((∃ a : Algorithm, word = createWord a.tag) ∨ (s.phase = .active ∧ ∃ n, decode (.cmd word) = .ok (.update n)))) ∧
    (t.buf ≠ s.buf → s.phase = .active ∧ ∃ (word : CommandWord) (rest : List CommandWord) (n : Nat),
      s.cmd = word :: rest ∧ decode (.cmd word) = .ok (.update n)) ∧
    (t.cause ≠ s.cause → s.phase ≠ .faulted ∧ t.phase = .faulted) ∧
    (t.begun ≠ s.begun → ∃ (word : CommandWord) (rest : List CommandWord) (n : Nat), s.cmd = word :: rest ∧
      decode (.cmd word) = .ok (.update n) ∧ (t.begun = true ↔ s.din.length < n)) ∧
    (t.h ≠ s.h → (∃ chunk, s.uop = some (.compress chunk)) ∨ ∃ (word : CommandWord) (rest : List CommandWord), s.cmd = word :: rest ∧
      ((∃ a : Algorithm, word = createWord a.tag) ∨
       (s.phase = .active ∧ (word = digestWord ∨ ∃ n, decode (.cmd word) = .ok (.update n)))))

/-! ### CREATE -/

/-- R90: CREATE with a recognised tag begins a computation in IDLE, ACTIVE and DONE; with any other tag it raises UnsupportedAlgorithm
and writes nothing else; BUF is not written. The registers of H beyond the descriptor's N words are zero in what it loads. -/
def Obligations.CreateBeginsComputation : Prop :=
  (∀ a : Algorithm, ∀ x ∈ (initialVector a).words.drop a.digestWords, x = 0) ∧
  (∀ (s : State) (a : Algorithm), s.phase ≠ .faulted →
    exec (.create a.tag) s =
      .next { s with cmd := s.cmd.tail, alg := a.tag, h := initialVector a, processed := 0, buflen := 0, phase := .active }) ∧
  (∀ (s : State) (tag : BitVec 8), s.phase ≠ .faulted → (∀ a : Algorithm, tag ≠ a.tag) →
    exec (.create tag) s =
      .next { s with cmd := s.cmd.tail, cause := .unsupportedAlgorithm, phase := .faulted }) ∧
  (∀ (s : State) (tag : BitVec 8), s.phase = .faulted → exec (.create tag) s = .next { s with cmd := s.cmd.tail })

/-- The words CREATE loads, as 42_sha1_compress.md, 43_sha256_compress.md, 44_sha512_compress.md and 45_md5_compress.md print them. -/
def Obligations.CreateLoadsPrintedInitialVectors : Prop :=
  ∀ s : State, s.phase ≠ .faulted →
    (∃ t, exec (.create 0x01#8) s = .next t ∧
      t.h = ⟨0x67452301#64, 0xefcdab89#64, 0x98badcfe#64, 0x10325476#64, 0xc3d2e1f0#64, 0#64, 0#64, 0#64⟩) ∧
    (∃ t, exec (.create 0x02#8) s = .next t ∧
      t.h = ⟨0x6a09e667#64, 0xbb67ae85#64, 0x3c6ef372#64, 0xa54ff53a#64, 0x510e527f#64, 0x9b05688c#64, 0x1f83d9ab#64,
        0x5be0cd19#64⟩) ∧
    (∃ t, exec (.create 0x03#8) s = .next t ∧
      t.h = ⟨0x6a09e667f3bcc908#64, 0xbb67ae8584caa73b#64, 0x3c6ef372fe94f82b#64, 0xa54ff53a5f1d36f1#64,
        0x510e527fade682d1#64, 0x9b05688c2b3e6c1f#64, 0x1f83d9abfb41bd6b#64, 0x5be0cd19137e2179#64⟩) ∧
    (∃ t, exec (.create 0x04#8) s = .next t ∧
      t.h = ⟨0x67452301#64, 0xefcdab89#64, 0x98badcfe#64, 0x10325476#64, 0#64, 0#64, 0#64, 0#64⟩)

/-- The closed forms of the tables (43_sha256_compress.md and 44_sha512_compress.md section 1): the initial vectors are the first bits of the
fractional parts of the square roots of the first eight primes, the round constants those of the cube roots of the first 64 or 80 primes; `x ^ r`
lies between `F ^ r` and `(F + 1) ^ r` for the scaled root F. -/
def Obligations.TablesHaveTheirClosedForms : Prop :=
  ∀ t p : Nat, Nat.Prime p → Nat.count Nat.Prime p = t →
    (t < 8 → ∃ F, F ^ 2 ≤ p * 2 ^ 64 ∧ p * 2 ^ 64 < (F + 1) ^ 2 ∧ (ivSha256.words.getD t 0).toNat = F % 2 ^ 32) ∧
    (t < 8 → ∃ F, F ^ 2 ≤ p * 2 ^ 128 ∧ p * 2 ^ 128 < (F + 1) ^ 2 ∧ (ivSha512.words.getD t 0).toNat = F % 2 ^ 64) ∧
    (t < 64 → ∃ F, F ^ 3 ≤ p * 2 ^ 96 ∧ p * 2 ^ 96 < (F + 1) ^ 3 ∧ (kSha256 t).toNat = F % 2 ^ 32) ∧
    (t < 80 → ∃ F, F ^ 3 ≤ p * 2 ^ 192 ∧ p * 2 ^ 192 < (F + 1) ^ 3 ∧ (kSha512 t).toNat = F % 2 ^ 64)

/-- The constants of MD5, as 45_md5_compress.md R142 prints them, a row of the spec a line. The spec marks the values as general knowledge (log
14). -/
def Obligations.Md5ConstantsAreAsPrinted : Prop :=
  (List.range 64).map kMd5 =
    [0xd76aa478#32, 0xe8c7b756#32, 0x242070db#32, 0xc1bdceee#32, 0xf57c0faf#32, 0x4787c62a#32, 0xa8304613#32, 0xfd469501#32] ++
    [0x698098d8#32, 0x8b44f7af#32, 0xffff5bb1#32, 0x895cd7be#32, 0x6b901122#32, 0xfd987193#32, 0xa679438e#32, 0x49b40821#32] ++
    [0xf61e2562#32, 0xc040b340#32, 0x265e5a51#32, 0xe9b6c7aa#32, 0xd62f105d#32, 0x02441453#32, 0xd8a1e681#32, 0xe7d3fbc8#32] ++
    [0x21e1cde6#32, 0xc33707d6#32, 0xf4d50d87#32, 0x455a14ed#32, 0xa9e3e905#32, 0xfcefa3f8#32, 0x676f02d9#32, 0x8d2a4c8a#32] ++
    [0xfffa3942#32, 0x8771f681#32, 0x6d9d6122#32, 0xfde5380c#32, 0xa4beea44#32, 0x4bdecfa9#32, 0xf6bb4b60#32, 0xbebfbc70#32] ++
    [0x289b7ec6#32, 0xeaa127fa#32, 0xd4ef3085#32, 0x04881d05#32, 0xd9d4d039#32, 0xe6db99e5#32, 0x1fa27cf8#32, 0xc4ac5665#32] ++
    [0xf4292244#32, 0x432aff97#32, 0xab9423a7#32, 0xfc93a039#32, 0x655b59c3#32, 0x8f0ccc92#32, 0xffeff47d#32, 0x85845dd1#32] ++
    [0x6fa87e4f#32, 0xfe2ce6e0#32, 0xa3014314#32, 0x4e0811a1#32, 0xf7537e82#32, 0xbd3af235#32, 0x2ad7d2bb#32, 0xeb86d391#32]

/-! ### UPDATE -/

/-- An UPDATE whose payload has not all been presented consumes nothing and changes nothing of the block but the record that it has begun, and
the run is not over (R71, R195; the waiting step and the record are the model's, log 1, log 23). -/
def Obligations.UpdateWaitsForItsPayload : Prop :=
  (∀ (s : State) (n : Nat), s.din.length < n → exec (.update n) s = .next { s with begun := true }) ∧
  (∀ (s : State) (n : Nat) (rest : List CommandWord), s.rst = false → s.uop = none → n < 2 ^ 24 →
    s.cmd = updateWord n :: rest → s.din.length < n →
    step s = .next { s with begun := true } ∧ s.stuck = true ∧ s.runOver = false)

/-- When an UPDATE is in progress (the model's choice, log 23): from the first step that finds its payload incomplete to the step that completes
it; no other instruction writes the record. Once it has begun, a reset is refused also when the rest of the payload has arrived
(70_reset_and_hazards.md section 1), and without one it does exactly what an UPDATE whose payload was there at once does. -/
def Obligations.UpdateIsInProgressUntilItsPayloadArrives : Prop :=
  (∀ (s t : State) (n : Nat), exec (.update n) s = .next t → (t.begun = true ↔ s.din.length < n)) ∧
  (∀ (s t : State) (i : Instr), (∀ n, i ≠ .update n) → exec i s = .next t → t.begun = s.begun) ∧
  (∀ (s : State) (n : Nat) (rest : List CommandWord) (more : List Byte), s.rst = false → s.uop = none → n < 2 ^ 24 →
    s.cmd = updateWord n :: rest → s.din.length < n →
    ∃ t, step s = .next t ∧ step (t.presentPayload more).requestReset = .refused .resetMidCommand ∧
      (n ≤ s.din.length + more.length → step (t.presentPayload more) = step (s.presentPayload more)))

/-- R101: when `BUFLEN + n < C` the n bytes are stored at `BUF[BUFLEN .. BUFLEN+n-1]` and BUFLEN grows by n; bytes elsewhere, H and
PROCESSED are as before. For the record that an UPDATE is in progress see `UpdateIsInProgressUntilItsPayloadArrives` (log 23). -/
def Obligations.UpdateBuffersAShortPayload : Prop :=
  ∀ (s : State) (a : Algorithm) (n : Nat),
    s.phase = .active → s.alg = a.tag → n ≤ s.din.length → s.buflen.toNat + n < a.chunkBytes →
    ∃ t, exec (.update n) s = .next t ∧
      t = { s with cmd := s.cmd.tail, din := s.din.drop n, buf := t.buf, buflen := t.buflen, begun := t.begun } ∧
      t.buflen.toNat = s.buflen.toNat + n ∧
      (∀ i, i < n → t.buf.read (s.buflen.toNat + i) = s.din[i]?) ∧
      (∀ i, i < s.buflen.toNat ∨ s.buflen.toNat + n ≤ i → t.buf.read i = s.buf.read i)

/-- The completing branch (41_chunk_buffer.md R102 and R103, whose closed forms and count the spec marks as derived): when `BUFLEN + n >= C` the
chunks of the held bytes followed by the payload are compressed in order, `floor((BUFLEN + n) / C)` of them, PROCESSED counts each, and the last
`(BUFLEN + n) mod C` bytes stand in BUF. The bytes of BUF outside `BUF[BUFLEN .. C-1]` and `BUF[0 .. r-1]` are as before. No command is in
progress after it (the model's record `begun`, log 23). -/
def Obligations.UpdateCompressesEveryCompletedChunk : Prop :=
  ∀ (s : State) (a : Algorithm) (n : Nat) (held : List Byte),
    s.phase = .active → s.alg = a.tag → n ≤ s.din.length → s.buflen.toNat < a.chunkBytes →
    s.buf.readBytes 0 s.buflen.toNat = .ok held → a.chunkBytes ≤ s.buflen.toNat + n →
    ∃ t, exec (.update n) s = .next t ∧
      t = { s with
        cmd := s.cmd.tail, din := s.din.drop n, buf := t.buf, buflen := t.buflen, begun := false
        h := compressChunks a ((s.buflen.toNat + n) / a.chunkBytes) s.h (held ++ s.din.take n)
        processed := s.processed + BitVec.ofNat 64 ((s.buflen.toNat + n) / a.chunkBytes * a.chunkBytes) } ∧
      t.buflen.toNat = (s.buflen.toNat + n) % a.chunkBytes ∧
      t.buf.readBytes 0 t.buflen.toNat =
        .ok ((held ++ s.din.take n).drop ((s.buflen.toNat + n) / a.chunkBytes * a.chunkBytes)) ∧
      (∀ i, t.buflen.toNat ≤ i → (i < s.buflen.toNat ∨ a.chunkBytes ≤ i) → t.buf.read i = s.buf.read i)

/-- An UPDATE of no bytes changes nothing in phase ACTIVE (its word is consumed), and still faults in IDLE and DONE (41_chunk_buffer.md R105,
which the spec marks as derived from R101). No command is in progress after it (the model's record `begun`, log 23). -/
def Obligations.ZeroLengthUpdateChangesNothing : Prop :=
  ∀ s : State,
    (∀ a : Algorithm, s.phase = .active → s.alg = a.tag → s.buflen.toNat < a.chunkBytes →
      exec (.update 0) s = .next { s with cmd := s.cmd.tail, begun := false }) ∧
    (s.phase = .idle → exec (.update 0) s =
      .next { s with cmd := s.cmd.tail, cause := .notCreated, phase := .faulted, begun := false }) ∧
    (s.phase = .done → exec (.update 0) s =
      .next { s with cmd := s.cmd.tail, cause := .useAfterDigest, phase := .faulted, begun := false })

/-- Chunk-boundary independence (41_chunk_buffer.md R104, which the spec marks as derived from R100 and R102): two UPDATEs and the one UPDATE of
their concatenation leave the same computation, and so do the UPDATEs of its single bytes. -/
def Obligations.ChunkBoundariesDoNotMatter : Prop :=
  ∀ (s : State) (a : Algorithm) (x y d : List Byte) (c : List CommandWord),
    s.phase = .active → s.alg = a.tag → s.rst = false → s.uop = none → s.buflen.toNat < a.chunkBytes →
    s.bytesWritten = true → (x ++ y).length < 2 ^ 24 →
    ∃ one two each,
      step { s with cmd := updateWord (x ++ y).length :: c, din := x ++ y ++ d } = .next one ∧
      run 2 { s with cmd := updateWord x.length :: updateWord y.length :: c, din := x ++ y ++ d } = .next two ∧
      run (x ++ y).length
        { s with cmd := (x ++ y).map (fun _ => updateWord 1) ++ c, din := x ++ y ++ d } = .next each ∧
      SameComputation one two ∧ SameComputation one each ∧
      one.cmd = c ∧ two.cmd = c ∧ each.cmd = c ∧ one.din = d ∧ two.din = d ∧ each.din = d

/-! ### Compression -/

/-- The computation of 42_sha1_compress.md R110 (with R112 to R115): COMPRESS.SHA1 parses sixteen big-endian words, extends them to eighty, runs
eighty rounds in four groups of twenty, and adds the working variables to the digest as it was on entry; H[0..4] take the result and nothing else
changes but the invocation. The rule itself writes no state and its caller writes H: that the micro-operation, run as an instruction, writes its
result to H is the model's reading (log 8, DEDUCED), and that it takes an invocation from a latch is the model's choice (log 7). -/
def Obligations.CompressSha1RunsEightyRounds : Prop :=
  ∀ (s : State) (chunk : List Byte), s.uop = some (.compress chunk) → chunk.length = 64 →
    ∃ (W : Nat → Word32) (V : Nat → Work5),
      (∀ t, t < 16 → (W t).toNat = (chunk.getD (4 * t) 0).toNat * 2 ^ 24 + (chunk.getD (4 * t + 1) 0).toNat * 2 ^ 16 +
        (chunk.getD (4 * t + 2) 0).toNat * 2 ^ 8 + (chunk.getD (4 * t + 3) 0).toNat) ∧
      (∀ t, 16 ≤ t → t < 80 → W t = (W (t - 3) ^^^ W (t - 8) ^^^ W (t - 14) ^^^ W (t - 16)).rotateLeft 1) ∧
      V 0 = ⟨s.h.h0.setWidth 32, s.h.h1.setWidth 32, s.h.h2.setWidth 32, s.h.h3.setWidth 32, s.h.h4.setWidth 32⟩ ∧
      (∀ t, t < 80 →
        (V (t + 1)).b = (V t).a ∧ (V (t + 1)).c = (V t).b.rotateLeft 30 ∧ (V (t + 1)).d = (V t).c ∧ (V (t + 1)).e = (V t).d ∧
        (t < 20 → (V (t + 1)).a = (V t).a.rotateLeft 5 + (((V t).b &&& (V t).c) ^^^ (~~~(V t).b &&& (V t).d)) + (V t).e +
          0x5a827999#32 + W t) ∧
        (20 ≤ t → t < 40 → (V (t + 1)).a = (V t).a.rotateLeft 5 + ((V t).b ^^^ (V t).c ^^^ (V t).d) + (V t).e +
          0x6ed9eba1#32 + W t) ∧
        (40 ≤ t → t < 60 → (V (t + 1)).a = (V t).a.rotateLeft 5 +
          (((V t).b &&& (V t).c) ^^^ ((V t).b &&& (V t).d) ^^^ ((V t).c &&& (V t).d)) + (V t).e + 0x8f1bbcdc#32 + W t) ∧
        (60 ≤ t → (V (t + 1)).a = (V t).a.rotateLeft 5 + ((V t).b ^^^ (V t).c ^^^ (V t).d) + (V t).e +
          0xca62c1d6#32 + W t)) ∧
      exec .compressSha1 s = .next { s with
        uop := none
        h := { s.h with
          h0 := (s.h.h0.setWidth 32 + (V 80).a).setWidth 64
          h1 := (s.h.h1.setWidth 32 + (V 80).b).setWidth 64
          h2 := (s.h.h2.setWidth 32 + (V 80).c).setWidth 64
          h3 := (s.h.h3.setWidth 32 + (V 80).d).setWidth 64
          h4 := (s.h.h4.setWidth 32 + (V 80).e).setWidth 64 } }

/-- The computation of 43_sha256_compress.md R120 (with R123 to R126): COMPRESS.SHA256 parses sixteen big-endian words, extends them to
sixty-four, runs sixty-four rounds, and adds the working variables to the digest as it was on entry; H takes the result and nothing else changes
but the invocation. The rule itself writes no state and its caller writes H: that the micro-operation, run as an instruction, writes its result
to H is the model's reading (log 8, DEDUCED), and that it takes an invocation from a latch is the model's choice (log 7). -/
def Obligations.CompressSha256RunsSixtyFourRounds : Prop :=
  ∀ (s : State) (chunk : List Byte), s.uop = some (.compress chunk) → chunk.length = 64 →
    ∃ (W : Nat → Word32) (V : Nat → Work8 32),
      (∀ t, t < 16 → (W t).toNat = (chunk.getD (4 * t) 0).toNat * 2 ^ 24 + (chunk.getD (4 * t + 1) 0).toNat * 2 ^ 16 +
        (chunk.getD (4 * t + 2) 0).toNat * 2 ^ 8 + (chunk.getD (4 * t + 3) 0).toNat) ∧
      (∀ t, 16 ≤ t → t < 64 → W t =
        ((W (t - 2)).rotateRight 17 ^^^ (W (t - 2)).rotateRight 19 ^^^ (W (t - 2)) >>> 10) + W (t - 7) +
        ((W (t - 15)).rotateRight 7 ^^^ (W (t - 15)).rotateRight 18 ^^^ (W (t - 15)) >>> 3) + W (t - 16)) ∧
      V 0 = ⟨s.h.h0.setWidth 32, s.h.h1.setWidth 32, s.h.h2.setWidth 32, s.h.h3.setWidth 32,
        s.h.h4.setWidth 32, s.h.h5.setWidth 32, s.h.h6.setWidth 32, s.h.h7.setWidth 32⟩ ∧
      (∀ t, t < 64 → ∃ T1 T2 : Word32,
        T1 = (V t).h + ((V t).e.rotateRight 6 ^^^ (V t).e.rotateRight 11 ^^^ (V t).e.rotateRight 25) +
          (((V t).e &&& (V t).f) ^^^ (~~~(V t).e &&& (V t).g)) + kSha256 t + W t ∧
        T2 = ((V t).a.rotateRight 2 ^^^ (V t).a.rotateRight 13 ^^^ (V t).a.rotateRight 22) +
          (((V t).a &&& (V t).b) ^^^ ((V t).a &&& (V t).c) ^^^ ((V t).b &&& (V t).c)) ∧
        V (t + 1) = ⟨T1 + T2, (V t).a, (V t).b, (V t).c, (V t).d + T1, (V t).e, (V t).f, (V t).g⟩) ∧
      exec .compressSha256 s = .next { s with
        uop := none
        h := ⟨(s.h.h0.setWidth 32 + (V 64).a).setWidth 64, (s.h.h1.setWidth 32 + (V 64).b).setWidth 64,
          (s.h.h2.setWidth 32 + (V 64).c).setWidth 64, (s.h.h3.setWidth 32 + (V 64).d).setWidth 64,
          (s.h.h4.setWidth 32 + (V 64).e).setWidth 64, (s.h.h5.setWidth 32 + (V 64).f).setWidth 64,
          (s.h.h6.setWidth 32 + (V 64).g).setWidth 64, (s.h.h7.setWidth 32 + (V 64).h).setWidth 64⟩ }

/-- The computation of 44_sha512_compress.md R130 (with R133, R134): COMPRESS.SHA512 parses sixteen big-endian 64-bit words, extends them to
eighty, runs eighty rounds, and adds the working variables to the digest as it was on entry; H takes the result and nothing else changes but the
invocation. The rule itself writes no state and its caller writes H: that the micro-operation, run as an instruction, writes its result to H is
the model's reading (log 8, DEDUCED), and that it takes an invocation from a latch is the model's choice (log 7). -/
def Obligations.CompressSha512RunsEightyRounds : Prop :=
  ∀ (s : State) (chunk : List Byte), s.uop = some (.compress chunk) → chunk.length = 128 →
    ∃ (W : Nat → Word64) (V : Nat → Work8 64),
      (∀ t, t < 16 → (W t).toNat = (chunk.getD (8 * t) 0).toNat * 2 ^ 56 + (chunk.getD (8 * t + 1) 0).toNat * 2 ^ 48 +
        (chunk.getD (8 * t + 2) 0).toNat * 2 ^ 40 + (chunk.getD (8 * t + 3) 0).toNat * 2 ^ 32 +
        (chunk.getD (8 * t + 4) 0).toNat * 2 ^ 24 + (chunk.getD (8 * t + 5) 0).toNat * 2 ^ 16 +
        (chunk.getD (8 * t + 6) 0).toNat * 2 ^ 8 + (chunk.getD (8 * t + 7) 0).toNat) ∧
      (∀ t, 16 ≤ t → t < 80 → W t =
        ((W (t - 2)).rotateRight 19 ^^^ (W (t - 2)).rotateRight 61 ^^^ (W (t - 2)) >>> 6) + W (t - 7) +
        ((W (t - 15)).rotateRight 1 ^^^ (W (t - 15)).rotateRight 8 ^^^ (W (t - 15)) >>> 7) + W (t - 16)) ∧
      V 0 = ⟨s.h.h0, s.h.h1, s.h.h2, s.h.h3, s.h.h4, s.h.h5, s.h.h6, s.h.h7⟩ ∧
      (∀ t, t < 80 → ∃ T1 T2 : Word64,
        T1 = (V t).h + ((V t).e.rotateRight 14 ^^^ (V t).e.rotateRight 18 ^^^ (V t).e.rotateRight 41) +
          (((V t).e &&& (V t).f) ^^^ (~~~(V t).e &&& (V t).g)) + kSha512 t + W t ∧
        T2 = ((V t).a.rotateRight 28 ^^^ (V t).a.rotateRight 34 ^^^ (V t).a.rotateRight 39) +
          (((V t).a &&& (V t).b) ^^^ ((V t).a &&& (V t).c) ^^^ ((V t).b &&& (V t).c)) ∧
        V (t + 1) = ⟨T1 + T2, (V t).a, (V t).b, (V t).c, (V t).d + T1, (V t).e, (V t).f, (V t).g⟩) ∧
      exec .compressSha512 s = .next { s with
        uop := none
        h := ⟨s.h.h0 + (V 80).a, s.h.h1 + (V 80).b, s.h.h2 + (V 80).c, s.h.h3 + (V 80).d,
          s.h.h4 + (V 80).e, s.h.h5 + (V 80).f, s.h.h6 + (V 80).g, s.h.h7 + (V 80).h⟩ }

/-- The computation of 45_md5_compress.md R140 (with R143 to R147): COMPRESS.MD5 parses sixteen little-endian words, extends none, runs
sixty-four steps in four groups of sixteen with the constants of `Md5ConstantsAreAsPrinted`, and adds the working variables to the digest as it
was on entry; H[0..3] take the result and nothing else changes but the invocation. The rule itself writes no state and its caller writes H: that
the micro-operation, run as an instruction, writes its result to H is the model's reading (log 8, DEDUCED), and that it takes an invocation from
a latch is the model's choice (log 7). -/
def Obligations.CompressMd5RunsSixtyFourSteps : Prop :=
  ∀ (s : State) (chunk : List Byte), s.uop = some (.compress chunk) → chunk.length = 64 →
    ∃ (X : Nat → Word32) (V : Nat → Work4),
      (∀ j, j < 16 → (X j).toNat = (chunk.getD (4 * j) 0).toNat + (chunk.getD (4 * j + 1) 0).toNat * 2 ^ 8 +
        (chunk.getD (4 * j + 2) 0).toNat * 2 ^ 16 + (chunk.getD (4 * j + 3) 0).toNat * 2 ^ 24) ∧
      V 0 = ⟨s.h.h0.setWidth 32, s.h.h1.setWidth 32, s.h.h2.setWidth 32, s.h.h3.setWidth 32⟩ ∧
      (∀ i, i < 64 →
        (V (i + 1)).a = (V i).d ∧ (V (i + 1)).c = (V i).b ∧ (V (i + 1)).d = (V i).c ∧
        (i < 16 → (V (i + 1)).b = (V i).b +
          ((V i).a + (((V i).b &&& (V i).c) ||| (~~~(V i).b &&& (V i).d)) + kMd5 i + X i).rotateLeft
            ([7, 12, 17, 22].getD (i % 4) 0)) ∧
        (16 ≤ i → i < 32 → (V (i + 1)).b = (V i).b +
          ((V i).a + (((V i).b &&& (V i).d) ||| ((V i).c &&& ~~~(V i).d)) + kMd5 i + X ((5 * i + 1) % 16)).rotateLeft
            ([5, 9, 14, 20].getD (i % 4) 0)) ∧
        (32 ≤ i → i < 48 → (V (i + 1)).b = (V i).b +
          ((V i).a + ((V i).b ^^^ (V i).c ^^^ (V i).d) + kMd5 i + X ((3 * i + 5) % 16)).rotateLeft
            ([4, 11, 16, 23].getD (i % 4) 0)) ∧
        (48 ≤ i → (V (i + 1)).b = (V i).b +
          ((V i).a + ((V i).c ^^^ ((V i).b ||| ~~~(V i).d)) + kMd5 i + X ((7 * i) % 16)).rotateLeft
            ([6, 10, 15, 21].getD (i % 4) 0))) ∧
      exec .compressMd5 s = .next { s with
        uop := none
        h := { s.h with
          h0 := (s.h.h0.setWidth 32 + (V 64).a).setWidth 64
          h1 := (s.h.h1.setWidth 32 + (V 64).b).setWidth 64
          h2 := (s.h.h2.setWidth 32 + (V 64).c).setWidth 64
          h3 := (s.h.h3.setWidth 32 + (V 64).d).setWidth 64 } }

/-- R116, R127, R135, R148, of the micro-operation as the model has it: a compression depends on the digest words its descriptor reads and on the
chunk only, whatever PROCESSED, BUFLEN, ALG, PHASE, the other bits of H and the rest of the state are. The invocation latch is the model's choice
(log 7), the write of the result to H its reading (log 8, DEDUCED). -/
def Obligations.CompressionDependsOnDigestAndChunkOnly : Prop :=
  ∀ (a : Algorithm) (s t : State) (chunk : List Byte), s.uop = some (.compress chunk) → t.uop = some (.compress chunk) →
    chunk.length = a.chunkBytes → s.h.visible a = t.h.visible a →
    ∃ s' t', exec (compressOf a) s = .next s' ∧ exec (compressOf a) t = .next t' ∧ s'.h.visible a = t'.h.visible a

/-- R144: the order in which the MD5 steps use the message words; each group of sixteen steps uses every word once. -/
def Obligations.Md5MessageOrderIsAPermutation : Prop :=
  (∀ i, i < 64 → gMd5 i =
    if i < 16 then i else if i < 32 then (5 * i + 1) % 16 else if i < 48 then (3 * i + 5) % 16 else 7 * i % 16) ∧
  ∀ (group : Nat), group < 4 → ∀ j, j < 16 → ∃ i, i < 16 ∧ gMd5 (16 * group + i) = j

/-! ### PAD, SERIALIZE, DIGEST -/

/-- The padded tail of 46_padding_finalizer.md R152: PAD writes to its transient buffer the unprocessed bytes, one 0x80, the least number of zero
bytes that makes the length congruent to C - F modulo C, and the length field; nothing else changes but the invocation. That PAD is invoked from
a latch, and leaves its result in the field `pad`, is the model's choice (log 7). -/
def Obligations.PadBuildsThePaddedTail : Prop :=
  ∀ (s : State) (a : Algorithm) (rest : List Byte) (L : Word64),
    s.uop = some (.pad rest L) → s.alg = a.tag → rest.length < a.chunkBytes →
    ∃ z : Nat, z < a.chunkBytes ∧ (rest.length + 1 + z) % a.chunkBytes = a.chunkBytes - a.lengthBytes ∧
      (∀ z', z' < z → (rest.length + 1 + z') % a.chunkBytes ≠ a.chunkBytes - a.lengthBytes) ∧
      exec .pad s = .next { s with
        uop := none
        pad := rest ++ [0x80#8] ++ List.replicate z 0x00#8 ++
          (match a with
            | .sha1 => toBe L.toNat 8
            | .sha256 => toBe L.toNat 8
            | .sha512 => List.replicate 8 0x00#8 ++ toBe L.toNat 8
            | .md5 => toLe L.toNat 8) }

/-- The padded tail has C bytes when at most C - F - 1 bytes are unprocessed, else 2C, so DIGEST compresses once or twice
(46_padding_finalizer.md R156). The first clause pads a message of any length, C bytes or more included, by the same formula and finds `floor(m /
C) + 1` or `floor(m / C) + 2` chunks: that padding is the model's choice (log 16), since the spec defines PAD for fewer than C bytes and marks
its count of the compressions of a computation as derived. -/
def Obligations.PaddedTailIsOneOrTwoChunks : Prop :=
  (∀ (a : Algorithm) (msg : List Byte) (L : Word64),
    (padTail a msg L).length = a.chunkBytes *
      (if msg.length % a.chunkBytes + a.lengthBytes + 1 ≤ a.chunkBytes then msg.length / a.chunkBytes + 1
       else msg.length / a.chunkBytes + 2)) ∧
  ∀ (a : Algorithm) (rest : List Byte) (L : Word64), rest.length < a.chunkBytes →
    (padTail a rest L).length = rest.length + 1 + padZeros a rest.length + a.lengthBytes ∧
    (rest.length + a.lengthBytes + 1 ≤ a.chunkBytes →
      padZeros a rest.length = a.chunkBytes - a.lengthBytes - 1 - rest.length ∧
      (padTail a rest L).length = a.chunkBytes ∧ (padTail a rest L).length / a.chunkBytes = 1) ∧
    (a.chunkBytes ≤ rest.length + a.lengthBytes →
      padZeros a rest.length = 2 * a.chunkBytes - a.lengthBytes - 1 - rest.length ∧
      (padTail a rest L).length = 2 * a.chunkBytes ∧ (padTail a rest L).length / a.chunkBytes = 2)

/-- R157: the bytes of the length field, first to last, by descriptor; the padding modulus of SHA512 is 112. -/
def Obligations.LengthFieldBytesByDescriptor : Prop :=
  Algorithm.sha512.chunkBytes - Algorithm.sha512.lengthBytes = 112 ∧
  ∀ (L : Word64) (i : Nat), i < 8 →
    (lengthField .sha1 L)[i]? = some (L.extractLsb' (56 - 8 * i) 8) ∧ (lengthField .sha1 L).length = 8 ∧
    (lengthField .sha256 L)[i]? = some (L.extractLsb' (56 - 8 * i) 8) ∧ (lengthField .sha256 L).length = 8 ∧
    (lengthField .sha512 L)[i]? = some 0x00#8 ∧
    (lengthField .sha512 L)[8 + i]? = some (L.extractLsb' (56 - 8 * i) 8) ∧ (lengthField .sha512 L).length = 16 ∧
    (lengthField .md5 L)[i]? = some (L.extractLsb' (8 * i) 8) ∧ (lengthField .md5 L).length = 8

/-- The bytes of 47_state_serializer.md R160: SERIALIZE returns D = N x W/8 bytes; byte k is, for the big-endian descriptors, bits W-1-8(k mod
W/8) down of word floor(k / (W/8)), and for MD5 bits 8(k mod 4)+7 down. The rule writes no state: that the bytes are left in the field `ser`, and
that an invocation is taken from a latch, is the model's choice (log 7). -/
def Obligations.SerializeEmitsWordsInOrder : Prop :=
  ∀ (s : State) (a : Algorithm), s.uop = some .serialize → s.alg = a.tag →
    ∃ out : List Byte, exec .serialize s = .next { s with uop := none, ser := out } ∧ out.length = a.digestBytes ∧
      ∀ k, k < a.digestBytes →
        out[k]? = some ((s.h.words.getD (k / a.wordBytes) 0).extractLsb'
          (match a with
            | .sha1 => 24 - 8 * (k % 4)
            | .sha256 => 24 - 8 * (k % 4)
            | .sha512 => 56 - 8 * (k % 8)
            | .md5 => 8 * (k % 4)) 8)

/-- R162: the digest lengths, whatever the words. -/
def Obligations.DigestLengthsAreFixed : Prop :=
  ∀ h : Digest, (serialize .sha1 h).length = 20 ∧ (serialize .sha256 h).length = 32 ∧
    (serialize .sha512 h).length = 64 ∧ (serialize .md5 h).length = 16

/-- R150, R151, R153, R155: DIGEST pads the unprocessed bytes with the bit length `((PROCESSED + BUFLEN) * 8) mod 2^64`, compresses the
one or two chunks, emits the serialised words and goes to DONE; PROCESSED, BUFLEN and BUF keep their values. -/
def Obligations.DigestPadsCompressesAndEmits : Prop :=
  ∀ (s : State) (a : Algorithm) (held : List Byte), s.phase = .active → s.alg = a.tag → s.buflen.toNat < a.chunkBytes →
    s.buf.readBytes 0 s.buflen.toNat = .ok held →
    ∃ (L : Word64) (H : Digest),
      L.toNat = (s.processed.toNat + s.buflen.toNat) % 2 ^ 64 * 8 % 2 ^ 64 ∧
      (held.length + a.lengthBytes + 1 ≤ a.chunkBytes → H = compress a s.h (padTail a held L)) ∧
      (a.chunkBytes ≤ held.length + a.lengthBytes →
        H = compress a (compress a s.h ((padTail a held L).take a.chunkBytes)) ((padTail a held L).drop a.chunkBytes)) ∧
      exec .digest s = .next { s with
        cmd := s.cmd.tail, h := H, dout := s.dout ++ serialize a H, phase := .done }

/-- R154: nothing is ever emitted on `dout` but the serialised digest of a DIGEST that completes, appended in order, PHASE becoming DONE. -/
def Obligations.OnlyDigestEmits : Prop :=
  ∀ s t : State, step s = .next t →
    t.dout = s.dout ∨
    (s.phase = .active ∧ t.phase = .done ∧ s.cmd.head? = some 0x03000000#32 ∧
      ∃ a : Algorithm, s.alg = a.tag ∧ t.dout = s.dout ++ serialize a t.h)

/-- What the command DIGEST does at once is what its micro-operations do one after the other (R150): PAD on the unprocessed bytes, COMPRESS on
each chunk of the tail, SERIALIZE. -/
def Obligations.DigestRefinesItsMicroOperations : Prop :=
  ∀ (s : State) (a : Algorithm) (held : List Byte), s.phase = .active → s.alg = a.tag → s.buflen.toNat < a.chunkBytes →
    s.buf.readBytes 0 s.buflen.toNat = .ok held →
    ∃ padded compressed serialized t,
      exec .pad (s.invokePad held (bitLength s)) = .next padded ∧
      compressByInvocation a (padded.pad.length / a.chunkBytes) padded.pad padded = .next compressed ∧
      exec .serialize compressed.invokeSerialize = .next serialized ∧
      exec .digest s = .next t ∧ t.h = serialized.h ∧ t.dout = s.dout ++ serialized.ser

/-! ### Messages -/

/-- 10_state.md R30, items 1 to 5: CREATE begins with nothing absorbed, and every UPDATE keeps H, PROCESSED, BUFLEN and BUF as the bytes received
so far determine them. -/
def Obligations.UpdateAbsorbsItsPayload : Prop :=
  (∀ (s : State) (a : Algorithm), s.phase ≠ .faulted → ∃ t, exec (.create a.tag) s = .next t ∧ Absorbed a [] t) ∧
  (∀ (s : State) (a : Algorithm) (msg : List Byte) (n : Nat), Absorbed a msg s → n ≤ s.din.length →
    ∃ t, exec (.update n) s = .next t ∧ Absorbed a (msg ++ s.din.take n) t) ∧
  (∀ (s : State) (a : Algorithm) (msg : List Byte), Absorbed a msg s →
    s.buflen.toNat < a.chunkBytes ∧ s.processed.toNat % a.chunkBytes = 0 ∧
    (s.processed.toNat + s.buflen.toNat) % 2 ^ 64 = msg.length % 2 ^ 64)

/-- The DIGEST of a state that has absorbed a message emits the digest of the message: padded as a whole, folded with Compress from the initial
vector, serialised. That a message of C bytes or more is padded as a whole by the formula of PAD, in `digestOf`, is the model's choice (log
16). -/
def Obligations.DigestOfAbsorbedMessage : Prop :=
  ∀ (s : State) (a : Algorithm) (msg : List Byte), Absorbed a msg s →
    ∃ t, exec .digest s = .next t ∧ t.dout = s.dout ++ digestOf a msg ∧ t.phase = .done

/-- A whole session (20_memory.md R63, 30_encoding.md R85), from IDLE, ACTIVE or DONE: CREATE, any number of UPDATEs of any sizes, DIGEST. The
bytes emitted depend on the concatenation of the payloads only. That they are `digestOf` of it, which pads a message of C bytes or more as a
whole by the formula of PAD, is the model's choice (log 16). -/
def Obligations.SessionEmitsDigestOfConcatenation : Prop :=
  ∀ (a : Algorithm) (parts : List (List Byte)) (s : State) (c : List CommandWord) (d : List Byte),
    s.phase ≠ .faulted → s.rst = false → s.uop = none → (∀ p ∈ parts, p.length < 2 ^ 24) →
    s.cmd = createWord a.tag :: (parts.map (fun p => updateWord p.length) ++ digestWord :: c) →
    s.din = parts.flatten ++ d →
    ∃ t, run (parts.length + 2) s = .next t ∧ t.dout = s.dout ++ digestOf a parts.flatten ∧
      t.phase = .done ∧ t.cause = s.cause ∧ t.cmd = c ∧ t.din = d

/-! ### Invariants and isolation -/

/-- The invariant holds at reset. -/
def Obligations.InvariantHoldsAtReset : Prop := State.reset.inv = true

/-- Every step keeps the invariant: BUF canonical, CAUSE zero exactly outside FAULTED (R26), ALG a recognised tag in ACTIVE and DONE (R23),
`BUFLEN < C`, PROCESSED a multiple of C (R30), the bytes below BUFLEN written, H in the shape of its descriptor (R21), no micro-operation left
invoked (log 7), a command in progress an UPDATE at the head of `cmd` (log 23). -/
def Obligations.StepKeepsTheInvariant : Prop :=
  ∀ s t : State, s.inv = true → step s = .next t → t.inv = true

/-- From every state of the invariant the block goes on: no step ends in a fault or a refusal of the model, unless a reset is requested in the
middle of a command (70_reset_and_hazards.md section 1, log 3, log 23). -/
def Obligations.InvariantStatesNeverStop : Prop :=
  ∀ s : State, s.inv = true → (s.rst = true → midCommand s = false) → ∃ t, step s = .next t

/-- 70_reset_and_hazards.md R200: a run whose payloads have all been presented takes one step a command word and is then over, well or badly, and
not stuck. -/
def Obligations.EveryRunEndsWellOrBadly : Prop :=
  ∀ s : State, s.inv = true → s.rst = false → (s.cmd.map payloadLength).sum ≤ s.din.length →
    ∃ t, run s.cmd.length s = .next t ∧ t.cmd = [] ∧ t.din = s.din.drop (s.cmd.map payloadLength).sum ∧ t.inv = true ∧
      t.runOver = true ∧ t.stuck = false ∧ (t.endedWell = true ∨ t.endedBadly = true)

/-- Every step from every state keeps BUF in its canonical form. -/
def Obligations.StepKeepsBufferCanonical : Prop :=
  ∀ s t : State, s.buf.wf = true → step s = .next t → t.buf.wf = true

/-- 10_state.md R36, which the spec marks as derived: what the block holds besides cannot influence any output: two states that differ only in
stale bytes of BUF, in the upper bits and the unused registers of H, in the transients, and outside ACTIVE in the whole computation, take the
same step and differ in no more than that. Which command is in progress (log 23) is no hidden state. -/
def Obligations.HiddenStateNeverInfluences : Prop :=
  ∀ s t s' : State, Indistinguishable s t → s.uop = none → step s = .next s' →
    ∃ t', step t = .next t' ∧ Indistinguishable s' t' ∧ s'.uop = none

/-! ### Primitives -/

/-- MemWrite then MemRead (00_scope.md section 5, 20_memory.md section 3): what was written is read back, every byte outside is as before, the
canonical form is kept; outside `addr + n <= C` both stop (the model's stop, log 11). -/
def Obligations.MemWriteThenMemRead : Prop :=
  ∀ (c addr : Nat) (v : List Byte) (m : Memory), c ≤ 128 →
    (addr + v.length ≤ c → ∃ m', memWrite c addr v m = .ok m' ∧ memRead c addr v.length m' = .ok v ∧
      (∀ i, i < addr ∨ addr + v.length ≤ i → m'.read i = m.read i) ∧ (m.wf = true → m'.wf = true)) ∧
    (c < addr + v.length → memWrite c addr v m = .error .bufferRange ∧ memRead c addr v.length m = .error .bufferRange)

/-- R15: the byte-order functions are inverse to each other on their ranges. -/
def Obligations.ByteOrderFunctionsAreInverse : Prop :=
  (∀ v k : Nat, v < 256 ^ k →
    beValue (toBe v k) = v ∧ (toBe v k).length = k ∧ leValue (toLe v k) = v ∧ (toLe v k).length = k) ∧
  (∀ b : List Byte, toBe (beValue b) b.length = b ∧ toLe (leValue b) b.length = b) ∧
  (∀ (x : Byte) (b : List Byte), beValue (x :: b) = x.toNat * 256 ^ b.length + beValue b ∧
    leValue (x :: b) = x.toNat + leValue b * 256)

/-- R14: AND, OR and XOR bit by bit, NOT, the rotates and the shift by their arithmetic definitions. -/
def Obligations.RotatesAndShiftsByDefinition : Prop :=
  (∀ (w i : Nat) (x y : BitVec w),
    (x &&& y).getLsbD i = (x.getLsbD i && y.getLsbD i) ∧ (x ||| y).getLsbD i = (x.getLsbD i || y.getLsbD i) ∧
    (x ^^^ y).getLsbD i = (x.getLsbD i ^^ y.getLsbD i)) ∧
  ∀ (w n : Nat) (x : BitVec w), n < w →
    (shr n x).toNat = x.toNat / 2 ^ n ∧ (~~~x).toNat = 2 ^ w - 1 - x.toNat ∧
    (rotl n x).toNat = (x.toNat * 2 ^ n % 2 ^ w) ||| (x.toNat / 2 ^ (w - n)) ∧
    (0 < n → rotr n x = rotl (w - n) x) ∧ rotl 0 x = x

/-- R83: the expansion of each pseudo-instruction; an UPDATE of any size becomes consecutive UPDATE words of at most 16777215 bytes each that cover
it. -/
def Obligations.PseudoInstructionsExpand : Prop :=
  (∀ data : List Byte,
    ((AsmLine.update data).words.map payloadLength).sum = data.length ∧ (AsmLine.update data).payload = data ∧
    ∀ w ∈ (AsmLine.update data).words, ∃ n, n ≤ 16777215 ∧ decode (.cmd w) = .ok (.update n) ∧ payloadLength w = n) ∧
  (∀ (a : Algorithm) (data : List Byte),
    (AsmLine.hash a data).words =
      (AsmLine.create a).words ++ (AsmLine.update data).words ++ AsmLine.digest.words ∧
    (AsmLine.hash a data).payload = data) ∧
  (∀ b : Byte, (AsmLine.push b).words = (AsmLine.update [b]).words ∧ (AsmLine.push b).payload = [b]) ∧
  AsmLine.nopUpdate.words = [0x02000000#32] ∧ AsmLine.nopUpdate.payload = []
end

