-- ==== Sys2Proof/Laws/State.lean ====
section
/-!
SUPPORT. State.lean: the small lemmas of the state updates, one per field and operation, each true by `rfl`.
-/

namespace Sys2Proof.Machine

/-! ### `retire` -/

@[simp] theorem retire_h (s : State) : (retire s).h = s.h := rfl
@[simp] theorem retire_alg (s : State) : (retire s).alg = s.alg := rfl
@[simp] theorem retire_phase (s : State) : (retire s).phase = s.phase := rfl
@[simp] theorem retire_cause (s : State) : (retire s).cause = s.cause := rfl
@[simp] theorem retire_processed (s : State) : (retire s).processed = s.processed := rfl
@[simp] theorem retire_buflen (s : State) : (retire s).buflen = s.buflen := rfl
@[simp] theorem retire_buf (s : State) : (retire s).buf = s.buf := rfl
@[simp] theorem retire_cmd (s : State) : (retire s).cmd = s.cmd.tail := rfl
@[simp] theorem retire_din (s : State) : (retire s).din = s.din := rfl
@[simp] theorem retire_dout (s : State) : (retire s).dout = s.dout := rfl
@[simp] theorem retire_rst (s : State) : (retire s).rst = s.rst := rfl
@[simp] theorem retire_begun (s : State) : (retire s).begun = s.begun := rfl
@[simp] theorem retire_uop (s : State) : (retire s).uop = s.uop := rfl
@[simp] theorem retire_pad (s : State) : (retire s).pad = s.pad := rfl
@[simp] theorem retire_ser (s : State) : (retire s).ser = s.ser := rfl
@[simp] theorem retire_free (s : State) : (retire s).free = s.free := rfl

/-! ### `dropPayload` -/

@[simp] theorem dropPayload_h (n : Nat) (s : State) : (dropPayload n s).h = s.h := rfl
@[simp] theorem dropPayload_alg (n : Nat) (s : State) : (dropPayload n s).alg = s.alg := rfl
@[simp] theorem dropPayload_phase (n : Nat) (s : State) : (dropPayload n s).phase = s.phase := rfl
@[simp] theorem dropPayload_cause (n : Nat) (s : State) : (dropPayload n s).cause = s.cause := rfl
@[simp] theorem dropPayload_processed (n : Nat) (s : State) : (dropPayload n s).processed = s.processed := rfl
@[simp] theorem dropPayload_buflen (n : Nat) (s : State) : (dropPayload n s).buflen = s.buflen := rfl
@[simp] theorem dropPayload_buf (n : Nat) (s : State) : (dropPayload n s).buf = s.buf := rfl
@[simp] theorem dropPayload_cmd (n : Nat) (s : State) : (dropPayload n s).cmd = s.cmd := rfl
@[simp] theorem dropPayload_din (n : Nat) (s : State) : (dropPayload n s).din = s.din.drop n := rfl
@[simp] theorem dropPayload_dout (n : Nat) (s : State) : (dropPayload n s).dout = s.dout := rfl
@[simp] theorem dropPayload_rst (n : Nat) (s : State) : (dropPayload n s).rst = s.rst := rfl
@[simp] theorem dropPayload_begun (n : Nat) (s : State) : (dropPayload n s).begun = false := rfl
@[simp] theorem dropPayload_uop (n : Nat) (s : State) : (dropPayload n s).uop = s.uop := rfl
@[simp] theorem dropPayload_pad (n : Nat) (s : State) : (dropPayload n s).pad = s.pad := rfl
@[simp] theorem dropPayload_ser (n : Nat) (s : State) : (dropPayload n s).ser = s.ser := rfl
@[simp] theorem dropPayload_free (n : Nat) (s : State) : (dropPayload n s).free = s.free := rfl

/-! ### `awaitPayload` -/

@[simp] theorem awaitPayload_h (s : State) : (awaitPayload s).h = s.h := rfl
@[simp] theorem awaitPayload_alg (s : State) : (awaitPayload s).alg = s.alg := rfl
@[simp] theorem awaitPayload_phase (s : State) : (awaitPayload s).phase = s.phase := rfl
@[simp] theorem awaitPayload_cause (s : State) : (awaitPayload s).cause = s.cause := rfl
@[simp] theorem awaitPayload_processed (s : State) : (awaitPayload s).processed = s.processed := rfl
@[simp] theorem awaitPayload_buflen (s : State) : (awaitPayload s).buflen = s.buflen := rfl
@[simp] theorem awaitPayload_buf (s : State) : (awaitPayload s).buf = s.buf := rfl
@[simp] theorem awaitPayload_cmd (s : State) : (awaitPayload s).cmd = s.cmd := rfl
@[simp] theorem awaitPayload_din (s : State) : (awaitPayload s).din = s.din := rfl
@[simp] theorem awaitPayload_dout (s : State) : (awaitPayload s).dout = s.dout := rfl
@[simp] theorem awaitPayload_rst (s : State) : (awaitPayload s).rst = s.rst := rfl
@[simp] theorem awaitPayload_begun (s : State) : (awaitPayload s).begun = true := rfl
@[simp] theorem awaitPayload_uop (s : State) : (awaitPayload s).uop = s.uop := rfl
@[simp] theorem awaitPayload_pad (s : State) : (awaitPayload s).pad = s.pad := rfl
@[simp] theorem awaitPayload_ser (s : State) : (awaitPayload s).ser = s.ser := rfl
@[simp] theorem awaitPayload_free (s : State) : (awaitPayload s).free = s.free := rfl

/-! ### `emit` -/

@[simp] theorem emit_h (bs : List Byte) (s : State) : (emit bs s).h = s.h := rfl
@[simp] theorem emit_alg (bs : List Byte) (s : State) : (emit bs s).alg = s.alg := rfl
@[simp] theorem emit_phase (bs : List Byte) (s : State) : (emit bs s).phase = s.phase := rfl
@[simp] theorem emit_cause (bs : List Byte) (s : State) : (emit bs s).cause = s.cause := rfl
@[simp] theorem emit_processed (bs : List Byte) (s : State) : (emit bs s).processed = s.processed := rfl
@[simp] theorem emit_buflen (bs : List Byte) (s : State) : (emit bs s).buflen = s.buflen := rfl
@[simp] theorem emit_buf (bs : List Byte) (s : State) : (emit bs s).buf = s.buf := rfl
@[simp] theorem emit_cmd (bs : List Byte) (s : State) : (emit bs s).cmd = s.cmd := rfl
@[simp] theorem emit_din (bs : List Byte) (s : State) : (emit bs s).din = s.din := rfl
@[simp] theorem emit_dout (bs : List Byte) (s : State) : (emit bs s).dout = s.dout ++ bs := rfl
@[simp] theorem emit_rst (bs : List Byte) (s : State) : (emit bs s).rst = s.rst := rfl
@[simp] theorem emit_begun (bs : List Byte) (s : State) : (emit bs s).begun = s.begun := rfl
@[simp] theorem emit_uop (bs : List Byte) (s : State) : (emit bs s).uop = s.uop := rfl
@[simp] theorem emit_pad (bs : List Byte) (s : State) : (emit bs s).pad = s.pad := rfl
@[simp] theorem emit_ser (bs : List Byte) (s : State) : (emit bs s).ser = s.ser := rfl
@[simp] theorem emit_free (bs : List Byte) (s : State) : (emit bs s).free = s.free := rfl

/-! ### `raise` -/

@[simp] theorem raise_h (c : Cause) (s : State) : (raise c s).h = s.h := rfl
@[simp] theorem raise_alg (c : Cause) (s : State) : (raise c s).alg = s.alg := rfl
@[simp] theorem raise_phase (c : Cause) (s : State) : (raise c s).phase = .faulted := rfl
@[simp] theorem raise_cause (c : Cause) (s : State) : (raise c s).cause = c := rfl
@[simp] theorem raise_processed (c : Cause) (s : State) : (raise c s).processed = s.processed := rfl
@[simp] theorem raise_buflen (c : Cause) (s : State) : (raise c s).buflen = s.buflen := rfl
@[simp] theorem raise_buf (c : Cause) (s : State) : (raise c s).buf = s.buf := rfl
@[simp] theorem raise_cmd (c : Cause) (s : State) : (raise c s).cmd = s.cmd := rfl
@[simp] theorem raise_din (c : Cause) (s : State) : (raise c s).din = s.din := rfl
@[simp] theorem raise_dout (c : Cause) (s : State) : (raise c s).dout = s.dout := rfl
@[simp] theorem raise_rst (c : Cause) (s : State) : (raise c s).rst = s.rst := rfl
@[simp] theorem raise_begun (c : Cause) (s : State) : (raise c s).begun = s.begun := rfl
@[simp] theorem raise_uop (c : Cause) (s : State) : (raise c s).uop = s.uop := rfl
@[simp] theorem raise_pad (c : Cause) (s : State) : (raise c s).pad = s.pad := rfl
@[simp] theorem raise_ser (c : Cause) (s : State) : (raise c s).ser = s.ser := rfl
@[simp] theorem raise_free (c : Cause) (s : State) : (raise c s).free = s.free := rfl

/-! ### `beginComputation` -/

@[simp] theorem beginComputation_h (a : Algorithm) (s : State) : (beginComputation a s).h = initialVector a := rfl
@[simp] theorem beginComputation_alg (a : Algorithm) (s : State) : (beginComputation a s).alg = a.tag := rfl
@[simp] theorem beginComputation_phase (a : Algorithm) (s : State) : (beginComputation a s).phase = .active := rfl
@[simp] theorem beginComputation_cause (a : Algorithm) (s : State) : (beginComputation a s).cause = s.cause := rfl
@[simp] theorem beginComputation_processed (a : Algorithm) (s : State) : (beginComputation a s).processed = 0 := rfl
@[simp] theorem beginComputation_buflen (a : Algorithm) (s : State) : (beginComputation a s).buflen = 0 := rfl
@[simp] theorem beginComputation_buf (a : Algorithm) (s : State) : (beginComputation a s).buf = s.buf := rfl
@[simp] theorem beginComputation_cmd (a : Algorithm) (s : State) : (beginComputation a s).cmd = s.cmd := rfl
@[simp] theorem beginComputation_din (a : Algorithm) (s : State) : (beginComputation a s).din = s.din := rfl
@[simp] theorem beginComputation_dout (a : Algorithm) (s : State) : (beginComputation a s).dout = s.dout := rfl
@[simp] theorem beginComputation_rst (a : Algorithm) (s : State) : (beginComputation a s).rst = s.rst := rfl
@[simp] theorem beginComputation_begun (a : Algorithm) (s : State) : (beginComputation a s).begun = s.begun := rfl
@[simp] theorem beginComputation_uop (a : Algorithm) (s : State) : (beginComputation a s).uop = s.uop := rfl
@[simp] theorem beginComputation_pad (a : Algorithm) (s : State) : (beginComputation a s).pad = s.pad := rfl
@[simp] theorem beginComputation_ser (a : Algorithm) (s : State) : (beginComputation a s).ser = s.ser := rfl
@[simp] theorem beginComputation_free (a : Algorithm) (s : State) : (beginComputation a s).free = s.free := rfl

/-! ### `invokeCompress` -/

@[simp] theorem invokeCompress_h (chunk : List Byte) (s : State) : (s.invokeCompress chunk).h = s.h := rfl
@[simp] theorem invokeCompress_alg (chunk : List Byte) (s : State) : (s.invokeCompress chunk).alg = s.alg := rfl
@[simp] theorem invokeCompress_phase (chunk : List Byte) (s : State) : (s.invokeCompress chunk).phase = s.phase := rfl
@[simp] theorem invokeCompress_cause (chunk : List Byte) (s : State) : (s.invokeCompress chunk).cause = s.cause := rfl
@[simp] theorem invokeCompress_processed (chunk : List Byte) (s : State) : (s.invokeCompress chunk).processed = s.processed := rfl
@[simp] theorem invokeCompress_buflen (chunk : List Byte) (s : State) : (s.invokeCompress chunk).buflen = s.buflen := rfl
@[simp] theorem invokeCompress_buf (chunk : List Byte) (s : State) : (s.invokeCompress chunk).buf = s.buf := rfl
@[simp] theorem invokeCompress_cmd (chunk : List Byte) (s : State) : (s.invokeCompress chunk).cmd = s.cmd := rfl
@[simp] theorem invokeCompress_din (chunk : List Byte) (s : State) : (s.invokeCompress chunk).din = s.din := rfl
@[simp] theorem invokeCompress_dout (chunk : List Byte) (s : State) : (s.invokeCompress chunk).dout = s.dout := rfl
@[simp] theorem invokeCompress_rst (chunk : List Byte) (s : State) : (s.invokeCompress chunk).rst = s.rst := rfl
@[simp] theorem invokeCompress_begun (chunk : List Byte) (s : State) : (s.invokeCompress chunk).begun = s.begun := rfl
@[simp] theorem invokeCompress_uop (chunk : List Byte) (s : State) : (s.invokeCompress chunk).uop = some (.compress chunk) := rfl
@[simp] theorem invokeCompress_pad (chunk : List Byte) (s : State) : (s.invokeCompress chunk).pad = s.pad := rfl
@[simp] theorem invokeCompress_ser (chunk : List Byte) (s : State) : (s.invokeCompress chunk).ser = s.ser := rfl
@[simp] theorem invokeCompress_free (chunk : List Byte) (s : State) : (s.invokeCompress chunk).free = s.free := rfl

/-! ### `invokePad` -/

@[simp] theorem invokePad_h (rest : List Byte) (bits : Word64) (s : State) : (s.invokePad rest bits).h = s.h := rfl
@[simp] theorem invokePad_alg (rest : List Byte) (bits : Word64) (s : State) : (s.invokePad rest bits).alg = s.alg := rfl
@[simp] theorem invokePad_phase (rest : List Byte) (bits : Word64) (s : State) : (s.invokePad rest bits).phase = s.phase := rfl
@[simp] theorem invokePad_cause (rest : List Byte) (bits : Word64) (s : State) : (s.invokePad rest bits).cause = s.cause := rfl
@[simp] theorem invokePad_processed (rest : List Byte) (bits : Word64) (s : State) : (s.invokePad rest bits).processed = s.processed := rfl
@[simp] theorem invokePad_buflen (rest : List Byte) (bits : Word64) (s : State) : (s.invokePad rest bits).buflen = s.buflen := rfl
@[simp] theorem invokePad_buf (rest : List Byte) (bits : Word64) (s : State) : (s.invokePad rest bits).buf = s.buf := rfl
@[simp] theorem invokePad_cmd (rest : List Byte) (bits : Word64) (s : State) : (s.invokePad rest bits).cmd = s.cmd := rfl
@[simp] theorem invokePad_din (rest : List Byte) (bits : Word64) (s : State) : (s.invokePad rest bits).din = s.din := rfl
@[simp] theorem invokePad_dout (rest : List Byte) (bits : Word64) (s : State) : (s.invokePad rest bits).dout = s.dout := rfl
@[simp] theorem invokePad_rst (rest : List Byte) (bits : Word64) (s : State) : (s.invokePad rest bits).rst = s.rst := rfl
@[simp] theorem invokePad_begun (rest : List Byte) (bits : Word64) (s : State) : (s.invokePad rest bits).begun = s.begun := rfl
@[simp] theorem invokePad_uop (rest : List Byte) (bits : Word64) (s : State) : (s.invokePad rest bits).uop = some (.pad rest bits) := rfl
@[simp] theorem invokePad_pad (rest : List Byte) (bits : Word64) (s : State) : (s.invokePad rest bits).pad = s.pad := rfl
@[simp] theorem invokePad_ser (rest : List Byte) (bits : Word64) (s : State) : (s.invokePad rest bits).ser = s.ser := rfl
@[simp] theorem invokePad_free (rest : List Byte) (bits : Word64) (s : State) : (s.invokePad rest bits).free = s.free := rfl

/-! ### `invokeSerialize` -/

@[simp] theorem invokeSerialize_h (s : State) : (s.invokeSerialize).h = s.h := rfl
@[simp] theorem invokeSerialize_alg (s : State) : (s.invokeSerialize).alg = s.alg := rfl
@[simp] theorem invokeSerialize_phase (s : State) : (s.invokeSerialize).phase = s.phase := rfl
@[simp] theorem invokeSerialize_cause (s : State) : (s.invokeSerialize).cause = s.cause := rfl
@[simp] theorem invokeSerialize_processed (s : State) : (s.invokeSerialize).processed = s.processed := rfl
@[simp] theorem invokeSerialize_buflen (s : State) : (s.invokeSerialize).buflen = s.buflen := rfl
@[simp] theorem invokeSerialize_buf (s : State) : (s.invokeSerialize).buf = s.buf := rfl
@[simp] theorem invokeSerialize_cmd (s : State) : (s.invokeSerialize).cmd = s.cmd := rfl
@[simp] theorem invokeSerialize_din (s : State) : (s.invokeSerialize).din = s.din := rfl
@[simp] theorem invokeSerialize_dout (s : State) : (s.invokeSerialize).dout = s.dout := rfl
@[simp] theorem invokeSerialize_rst (s : State) : (s.invokeSerialize).rst = s.rst := rfl
@[simp] theorem invokeSerialize_begun (s : State) : (s.invokeSerialize).begun = s.begun := rfl
@[simp] theorem invokeSerialize_uop (s : State) : (s.invokeSerialize).uop = some .serialize := rfl
@[simp] theorem invokeSerialize_pad (s : State) : (s.invokeSerialize).pad = s.pad := rfl
@[simp] theorem invokeSerialize_ser (s : State) : (s.invokeSerialize).ser = s.ser := rfl
@[simp] theorem invokeSerialize_free (s : State) : (s.invokeSerialize).free = s.free := rfl

/-! ### `resetEvent` -/

@[simp] theorem resetEvent_h (s : State) : (resetEvent s).h = resetDigest s.free := rfl
@[simp] theorem resetEvent_alg (s : State) : (resetEvent s).alg = 0x00#8 := rfl
@[simp] theorem resetEvent_phase (s : State) : (resetEvent s).phase = .idle := rfl
@[simp] theorem resetEvent_cause (s : State) : (resetEvent s).cause = .none := rfl
@[simp] theorem resetEvent_processed (s : State) : (resetEvent s).processed = Config.resetProcessed s.free := rfl
@[simp] theorem resetEvent_buflen (s : State) : (resetEvent s).buflen = Config.resetBuflen s.free := rfl
@[simp] theorem resetEvent_buf (s : State) : (resetEvent s).buf = [] := rfl
@[simp] theorem resetEvent_cmd (s : State) : (resetEvent s).cmd = s.cmd := rfl
@[simp] theorem resetEvent_din (s : State) : (resetEvent s).din = s.din := rfl
@[simp] theorem resetEvent_dout (s : State) : (resetEvent s).dout = s.dout := rfl
@[simp] theorem resetEvent_rst (s : State) : (resetEvent s).rst = false := rfl
@[simp] theorem resetEvent_begun (s : State) : (resetEvent s).begun = false := rfl
@[simp] theorem resetEvent_uop (s : State) : (resetEvent s).uop = none := rfl
@[simp] theorem resetEvent_pad (s : State) : (resetEvent s).pad = [] := rfl
@[simp] theorem resetEvent_ser (s : State) : (resetEvent s).ser = [] := rfl
@[simp] theorem resetEvent_free (s : State) : (resetEvent s).free = s.free + 1 := rfl

end Sys2Proof.Machine
end

