-- ==== Sys2Proof/Laws/Bits.lean ====
section
/-!
SUPPORT. Bits.lean: the laws of the byte-order functions, of the pseudocode loop and of the schedule extension.
-/

namespace Sys2Proof.Machine

/-! ### Byte order (00_scope.md R15) -/

@[simp] theorem toLe_length (v k : Nat) : (toLe v k).length = k := by
  induction k generalizing v with
  | zero => rfl
  | succ k ih => simp [toLe, ih]

@[simp] theorem toBe_length (v k : Nat) : (toBe v k).length = k := by simp [toBe]

@[simp] theorem zeros_length (n : Nat) : (zeros n).length = n := by simp [zeros]

theorem leValue_lt (bs : List Byte) : leValue bs < 256 ^ bs.length := by
  induction bs with
  | nil => simp [leValue]
  | cons b bs ih =>
    have hb : b.toNat < 256 := b.isLt
    simp only [leValue, List.length_cons, Nat.pow_succ]
    omega

theorem leValue_toLe_mod (v k : Nat) : leValue (toLe v k) = v % 256 ^ k := by
  induction k generalizing v with
  | zero => simp [toLe, leValue, Nat.mod_one]
  | succ k ih =>
    have h : v % 256 ^ (k + 1) = v % 256 + 256 * (v / 256 % 256 ^ k) := by
      rw [Nat.pow_succ, Nat.mul_comm, Nat.mod_mul]
    simp [toLe, leValue, ih, h]

theorem toLe_leValue (bs : List Byte) : toLe (leValue bs) bs.length = bs := by
  induction bs with
  | nil => rfl
  | cons b bs ih =>
    have hb : b.toNat < 256 := b.isLt
    have hd : (b.toNat + 256 * leValue bs) / 256 = leValue bs := by omega
    have hm : BitVec.ofNat 8 (b.toNat + 256 * leValue bs) = b := by
      apply BitVec.eq_of_toNat_eq
      simp only [BitVec.toNat_ofNat]
      omega
    simp [toLe, leValue, hd, hm, ih]

/-- Byte `i` of the little-endian encoding. -/
theorem toLe_getElem? (v k i : Nat) (hi : i < k) : (toLe v k)[i]? = some (BitVec.ofNat 8 (v / 256 ^ i)) := by
  induction k generalizing v i with
  | zero => omega
  | succ k ih =>
    cases i with
    | zero => simp [toLe]
    | succ i =>
      simp only [toLe, List.getElem?_cons_succ]
      rw [ih _ _ (by omega), Nat.div_div_eq_div_mul, Nat.pow_succ, Nat.mul_comm 256]

/-- Byte `i` of the big-endian encoding. -/
theorem toBe_getElem? (v k i : Nat) (hi : i < k) : (toBe v k)[i]? = some (BitVec.ofNat 8 (v / 256 ^ (k - 1 - i))) := by
  rw [toBe, List.getElem?_reverse (by simpa using hi), toLe_length]
  exact toLe_getElem? v k (k - 1 - i) (by omega)

/-! ### The loop (00_scope.md R16) -/

/-- The value the loop carries after `count` turns from index 0. -/
def loopValue {σ : Type} (body : Nat → σ → σ) (v : σ) : Nat → σ
  | 0 => v
  | t + 1 => body t (loopValue body v t)

theorem loop_succ_last {σ : Type} (body : Nat → σ → σ) (start count : Nat) (v : σ) :
    loop body start (count + 1) v = body (start + count) (loop body start count v) := by
  induction count generalizing start v with
  | zero => rfl
  | succ n ih => rw [loop, ih, loop, Nat.add_assoc, Nat.add_comm 1 n]

theorem loop_eq_loopValue {σ : Type} (body : Nat → σ → σ) (count : Nat) (v : σ) :
    loop body 0 count v = loopValue body v count := by
  induction count with
  | zero => rfl
  | succ n ih => rw [loop_succ_last, ih, Nat.zero_add, loopValue]

/-! ### The schedule extension -/

@[simp] theorem extend_length {α : Type} (next : List α → α) (count : Nat) (ws : List α) :
    (extend next count ws).length = ws.length + count := by
  induction count generalizing ws with
  | zero => rfl
  | succ n ih => simp [extend, ih]; omega

/-- The words already there stay behind the new ones. -/
theorem extend_suffix {α : Type} (next : List α → α) (count : Nat) (ws : List α) :
    ws <:+ extend next count ws := by
  induction count generalizing ws with
  | zero => exact List.suffix_refl ws
  | succ n ih => exact (List.suffix_cons _ _).trans (ih _)

/-- The new word number `j` is computed from the list that was there when its turn came. -/
theorem extend_split {α : Type} (next : List α → α) (count : Nat) (ws : List α) (j : Nat) (hj : j < count) :
    ∃ older newer, extend next count ws = newer ++ next older :: older ∧ older.length = ws.length + j := by
  induction count generalizing ws j with
  | zero => omega
  | succ n ih =>
    cases j with
    | zero =>
      obtain ⟨newer, h⟩ := extend_suffix next n (next ws :: ws)
      exact ⟨ws, newer, h.symm, rfl⟩
    | succ j =>
      obtain ⟨older, newer, h, hl⟩ := ih (next ws :: ws) j (by omega)
      exact ⟨older, newer, h, by simp only [hl, List.length_cons]; omega⟩

/-- Entry `t` of a list that ends, newest first, in `older`. -/
theorem getD_reverse_append {w : Nat} (older newer : List (BitVec w)) (t : Nat) (ht : t < older.length) :
    (newer ++ older).reverse.getD t 0 = back older (older.length - t) := by
  have h1 : (newer ++ older).reverse.getD t 0 = older.reverse.getD t 0 := by
    rw [List.reverse_append, List.getD_append _ _ _ _ (by simpa using ht)]
  rw [h1, back, List.getD_eq_getElem?_getD, List.getElem?_reverse ht, List.getD_eq_getElem?_getD]
  congr 2
  omega

/-- THE RECURRENCE of a schedule: entry `t` from the start on is `next` of the list held newest first, whose entry `j - 1`
is entry `t - j` of the schedule. -/
theorem schedule_next {w : Nat} (next : List (BitVec w) → BitVec w) (count : Nat) (start : List (BitVec w)) (t : Nat)
    (h0 : start.length ≤ t) (ht : t < start.length + count) :
    ∃ older : List (BitVec w),
      (extend next count start.reverse).reverse.getD t 0 = next older ∧
      ∀ j, 0 < j → j ≤ t → back older j = (extend next count start.reverse).reverse.getD (t - j) 0 := by
  obtain ⟨older, newer, h, hl⟩ := extend_split next count start.reverse (t - start.length) (by omega)
  have hlen : older.length = t := by
    rw [hl, List.length_reverse]; omega
  refine ⟨older, ?_, fun j hj hjt => ?_⟩
  · rw [h, getD_reverse_append (next older :: older) newer t (by simp [hlen])]
    simp [back, hlen]
  · have h' : extend next count start.reverse = (newer ++ [next older]) ++ older := by rw [h]; simp
    rw [h', getD_reverse_append older _ (t - j) (by omega)]
    congr 1
    omega

/-- The words parsed from the chunk stand first in the schedule. -/
theorem schedule_start {w : Nat} (next : List (BitVec w) → BitVec w) (count : Nat) (start : List (BitVec w)) (t : Nat)
    (ht : t < start.length) :
    (extend next count start.reverse).reverse.getD t 0 = start.getD t 0 := by
  obtain ⟨newer, h⟩ := extend_suffix next count start.reverse
  rw [← h, List.reverse_append, List.reverse_reverse, List.getD_append _ _ _ _ ht]

@[simp] theorem parseWords_length {w : Nat} (word : List Byte → Nat → BitVec w) (chunk : List Byte) :
    (parseWords word chunk).length = 16 := by simp [parseWords]

theorem parseWords_getD {w : Nat} (word : List Byte → Nat → BitVec w) (chunk : List Byte) (t : Nat) (ht : t < 16) :
    (parseWords word chunk).getD t 0 = word chunk t := by
  simp [parseWords, List.getD_eq_getElem?_getD, ht]

end Sys2Proof.Machine
end

