-- ==== Sys2Proof/Laws/Memory.lean ====
section
/-!
SUPPORT. Memory.lean: the laws of BUF: read after write, the canonical form, and what MemRead and MemWrite can do.
-/

namespace Sys2Proof.Machine

/-! ### One byte -/

@[simp] theorem Memory.read_nil (a : Nat) : Memory.read [] a = none := rfl

@[simp] theorem Memory.read_write_same (m : Memory) (a : Nat) (v : Byte) : (m.write a v).read a = some v := by
  induction m with
  | nil => simp [Memory.write, Memory.read]
  | cons e m ih =>
    obtain ⟨k, b⟩ := e
    simp only [Memory.write]
    split
    · simp [Memory.read]
    · split
      · simp [Memory.read]
      · rename_i h1 h2
        simp [Memory.read, ih, Ne.symm h2]

theorem Memory.read_write_other (m : Memory) {a a' : Nat} (v : Byte) (h : a' ≠ a) :
    (m.write a v).read a' = m.read a' := by
  induction m with
  | nil => simp [Memory.write, Memory.read, Ne.symm h]
  | cons e m ih =>
    obtain ⟨k, b⟩ := e
    simp only [Memory.write]
    split
    · simp [Memory.read, Ne.symm h]
    · split
      · rename_i h1 h2
        subst h2
        simp [Memory.read, Ne.symm h]
      · simp [Memory.read, ih]

/-! ### The canonical form -/

theorem Memory.wfFrom_mono {lo lo' : Nat} (m : Memory) (h : lo' ≤ lo) (hm : Memory.wfFrom lo m = true) :
    Memory.wfFrom lo' m = true := by
  cases m with
  | nil => rfl
  | cons e m =>
    simp only [Memory.wfFrom, Bool.and_eq_true, decide_eq_true_eq] at hm ⊢
    exact ⟨⟨Nat.le_trans h hm.1.1, hm.1.2⟩, hm.2⟩

theorem Memory.wfFrom_write (m : Memory) (lo a : Nat) (v : Byte) (hlo : lo ≤ a) (ha : a < Config.bufCapacity)
    (hm : Memory.wfFrom lo m = true) : Memory.wfFrom lo (m.write a v) = true := by
  induction m generalizing lo with
  | nil => simp [Memory.write, Memory.wfFrom, hlo, ha]
  | cons e m ih =>
    obtain ⟨k, b⟩ := e
    simp only [Memory.wfFrom, Bool.and_eq_true, decide_eq_true_eq] at hm
    simp only [Memory.write]
    split
    · rename_i h
      simp only [Memory.wfFrom, Bool.and_eq_true, decide_eq_true_eq]
      exact ⟨⟨hlo, ha⟩, ⟨h, hm.1.2⟩, hm.2⟩
    · split
      · rename_i h
        subst h
        simp only [Memory.wfFrom, Bool.and_eq_true, decide_eq_true_eq]
        exact ⟨⟨hlo, ha⟩, hm.2⟩
      · simp only [Memory.wfFrom, Bool.and_eq_true, decide_eq_true_eq]
        exact ⟨hm.1, ih (k + 1) (by omega) hm.2⟩

/-- A write inside BUF keeps the canonical form. -/
theorem Memory.wf_write (m : Memory) (a : Nat) (v : Byte) (ha : a < Config.bufCapacity) (hm : m.wf = true) :
    (m.write a v).wf = true :=
  Memory.wfFrom_write m 0 a v (Nat.zero_le a) ha hm

/-- A sequence of writes inside BUF keeps the canonical form. -/
theorem Memory.wf_writeBytes (m : Memory) (addr : Nat) (v : List Byte) (h : addr + v.length ≤ Config.bufCapacity)
    (hm : m.wf = true) : (m.writeBytes addr v).wf = true := by
  induction v generalizing m addr with
  | nil => exact hm
  | cons b v ih =>
    simp only [List.length_cons] at h
    exact ih _ _ (by omega) (Memory.wf_write m addr b (by omega) hm)

/-! ### Sequences of bytes -/

theorem Memory.read_writeBytes_outside (m : Memory) (addr : Nat) (v : List Byte) (i : Nat)
    (h : i < addr ∨ addr + v.length ≤ i) : (m.writeBytes addr v).read i = m.read i := by
  induction v generalizing m addr with
  | nil => rfl
  | cons b v ih =>
    simp only [List.length_cons] at h
    rw [Memory.writeBytes, ih _ _ (by omega), Memory.read_write_other _ _ (by omega)]

theorem Memory.read_writeBytes_inside (m : Memory) (addr : Nat) (v : List Byte) (i : Nat) (h : i < v.length) :
    (m.writeBytes addr v).read (addr + i) = v[i]? := by
  induction v generalizing m addr i with
  | nil => simp at h
  | cons b v ih =>
    cases i with
    | zero =>
      rw [Memory.writeBytes, Memory.read_writeBytes_outside _ _ _ _ (by omega)]
      simp
    | succ i =>
      have : addr + (i + 1) = addr + 1 + i := by omega
      rw [Memory.writeBytes, this, ih _ _ _ (by simpa using h)]
      simp

/-- What a successful read of a range says of every byte in it. -/
theorem Memory.readBytes_ok (m : Memory) (addr n : Nat) (bs : List Byte) :
    m.readBytes addr n = .ok bs ↔ bs.length = n ∧ ∀ i, i < n → m.read (addr + i) = bs[i]? := by
  induction n generalizing addr bs with
  | zero =>
    simp only [Memory.readBytes, Except.ok.injEq, Nat.not_lt_zero, false_implies, implies_true, and_true]
    exact ⟨fun h => by simp [← h], fun h => (List.eq_nil_of_length_eq_zero h).symm⟩
  | succ n ih =>
    simp only [Memory.readBytes]
    constructor
    · intro h
      split at h
      · simp at h
      · rename_i b hb
        split at h
        · rename_i rest hr
          simp only [Except.ok.injEq] at h
          subst h
          obtain ⟨hl, hi⟩ := (ih (addr + 1) rest).1 hr
          refine ⟨by simp [hl], fun i hin => ?_⟩
          cases i with
          | zero => simpa using hb
          | succ i =>
            have : addr + (i + 1) = addr + 1 + i := by omega
            rw [this, hi i (by omega)]
            simp
        · simp at h
    · rintro ⟨hl, hi⟩
      cases bs with
      | nil => simp at hl
      | cons b bs =>
        have h0 : m.read addr = some b := by simpa using hi 0 (by omega)
        have hr : m.readBytes (addr + 1) n = .ok bs := by
          refine (ih (addr + 1) bs).2 ⟨by simpa using hl, fun i hin => ?_⟩
          have := hi (i + 1) (by omega)
          have h' : addr + (i + 1) = addr + 1 + i := by omega
          rw [h'] at this
          simpa using this
        simp [h0, hr]

/-- Reading back what was written. -/
theorem Memory.readBytes_writeBytes (m : Memory) (addr : Nat) (v : List Byte) :
    (m.writeBytes addr v).readBytes addr v.length = .ok v :=
  (Memory.readBytes_ok _ _ _ _).2 ⟨rfl, fun i hi => Memory.read_writeBytes_inside m addr v i hi⟩

/-- A read depends on the bytes of its range only. -/
theorem Memory.readBytes_congr (m m' : Memory) (addr n : Nat) (h : ∀ i, i < n → m.read (addr + i) = m'.read (addr + i)) :
    m.readBytes addr n = m'.readBytes addr n := by
  induction n generalizing addr with
  | zero => rfl
  | succ n ih =>
    have h0 := h 0 (by omega)
    simp only [Nat.add_zero] at h0
    simp only [Memory.readBytes, h0]
    rw [ih (addr + 1) fun i hi => by
      have := h (i + 1) (by omega)
      rwa [show addr + (i + 1) = addr + 1 + i by omega] at this]

/-- A range read in two parts. -/
theorem Memory.readBytes_append (m : Memory) (addr n k : Nat) (xs ys : List Byte)
    (hx : m.readBytes addr n = .ok xs) (hy : m.readBytes (addr + n) k = .ok ys) :
    m.readBytes addr (n + k) = .ok (xs ++ ys) := by
  obtain ⟨hxl, hxi⟩ := (Memory.readBytes_ok _ _ _ _).1 hx
  obtain ⟨hyl, hyi⟩ := (Memory.readBytes_ok _ _ _ _).1 hy
  refine (Memory.readBytes_ok _ _ _ _).2 ⟨by simp [hxl, hyl], fun i hi => ?_⟩
  by_cases h : i < n
  · rw [hxi i h, List.getElem?_append_left (by omega)]
  · have := hyi (i - n) (by omega)
    rw [List.getElem?_append_right (by omega), hxl, ← this]
    congr 1
    omega

/-- The bytes of a range are all written exactly when the range can be read. -/
theorem Memory.readBytes_of_isSome (m : Memory) (addr n : Nat) (h : ∀ i, i < n → (m.read (addr + i)).isSome = true) :
    ∃ bs, m.readBytes addr n = .ok bs := by
  induction n generalizing addr with
  | zero => exact ⟨[], rfl⟩
  | succ n ih =>
    obtain ⟨bs, hbs⟩ := ih (addr + 1) fun i hi => by
      have := h (i + 1) (by omega)
      rwa [show addr + (i + 1) = addr + 1 + i by omega] at this
    obtain ⟨b, hb⟩ := Option.isSome_iff_exists.1 (by simpa using h 0 (by omega))
    exact ⟨b :: bs, by simp [Memory.readBytes, hb, hbs]⟩

/-! ### MemRead and MemWrite (20_memory.md R53) -/

/-- A read of several bytes stops on any of them that nothing has written (log 6). -/
theorem Memory.readBytes_unwritten (m : Memory) {addr n j : Nat} (hj : j < n) (h : m.read (addr + j) = none) :
    m.readBytes addr n = .error .unwrittenByte := by
  induction n generalizing addr j with
  | zero => omega
  | succ n ih =>
    cases j with
    | zero =>
      rw [Nat.add_zero] at h
      simp [Memory.readBytes, h]
    | succ j =>
      have := @ih (addr + 1) j (by omega) (by rwa [show addr + 1 + j = addr + (j + 1) by omega])
      simp only [Memory.readBytes, this]
      split <;> rfl

/-- A read of the first `n` bytes answers them, or one of them has not been written. -/
theorem Memory.readBytes_cases (m : Memory) (n : Nat) :
    (∃ bs, m.readBytes 0 n = .ok bs) ∨ ∃ j, j < n ∧ m.read j = none := by
  by_cases h : ∀ i, i < n → (m.read (0 + i)).isSome = true
  · exact .inl (Memory.readBytes_of_isSome m 0 n h)
  · simp only [not_forall, Nat.zero_add] at h
    obtain ⟨j, hj, hn⟩ := h
    exact .inr ⟨j, hj, by simpa using hn⟩

theorem memRead_ok {c addr n : Nat} {m : Memory} {bs : List Byte} :
    memRead c addr n m = .ok bs ↔ addr + n ≤ c ∧ m.readBytes addr n = .ok bs := by
  simp only [memRead]
  split <;> simp_all

theorem memWrite_ok {c addr : Nat} {v : List Byte} {m m' : Memory} :
    memWrite c addr v m = .ok m' ↔ addr + v.length ≤ c ∧ m.writeBytes addr v = m' := by
  simp only [memWrite]
  split <;> simp_all

end Sys2Proof.Machine
end

