-- ==== Sys2Proof/Laws/Compress.lean ====
section
/-!
SUPPORT. Compress.lean: the laws of the descriptors, of the chunk loops, and of the shape of H under a descriptor.
-/

namespace Sys2Proof.Machine

/-! ### Descriptors (00_scope.md R8, 30_encoding.md R72) -/

@[simp] theorem ofTag_tag (a : Algorithm) : Algorithm.ofTag a.tag = some a := by cases a <;> rfl

theorem ofTag_eq_some {tag : BitVec 8} {a : Algorithm} (h : Algorithm.ofTag tag = some a) : tag = a.tag := by
  simp only [Algorithm.ofTag] at h
  split at h
  · simp_all [Algorithm.tag]; subst h; rfl
  · split at h
    · simp_all [Algorithm.tag]; subst h; rfl
    · split at h
      · simp_all [Algorithm.tag]; subst h; rfl
      · split at h
        · simp_all [Algorithm.tag]; subst h; rfl
        · simp at h

theorem selected_of_tag {a : Algorithm} {s : State} (h : s.alg = a.tag) : selected s = .ok a := by
  simp [selected, h]

theorem selected_ok {a : Algorithm} {s : State} : selected s = .ok a ↔ Algorithm.ofTag s.alg = some a := by
  simp only [selected]
  split <;> simp_all

theorem chunkBytes_pos (a : Algorithm) : 0 < a.chunkBytes := by cases a <;> decide

theorem chunkBytes_le (a : Algorithm) : a.chunkBytes ≤ 128 := by cases a <;> decide

theorem chunkBytes_eq (a : Algorithm) : a.chunkBytes = 64 ∨ a.chunkBytes = 128 := by cases a <;> decide

/-! ### Chunks in a row (41_chunk_buffer.md R102, 46_padding_finalizer.md R153) -/

/-- Chunks compressed in two parts. -/
theorem compressChunks_add (a : Algorithm) (m n : Nat) (h : Digest) (bs : List Byte) :
    compressChunks a (m + n) h bs = compressChunks a n (compressChunks a m h bs) (bs.drop (m * a.chunkBytes)) := by
  induction m generalizing h bs with
  | zero => simp [compressChunks]
  | succ m ih =>
    rw [Nat.add_right_comm, compressChunks, ih, compressChunks, List.drop_drop]
    congr 2
    rw [Nat.add_mul]
    omega

/-- The chunks compressed are the first `n * C` bytes; what follows them does not matter. -/
theorem compressChunks_append (a : Algorithm) (n : Nat) (h : Digest) (bs more : List Byte)
    (hn : n * a.chunkBytes ≤ bs.length) : compressChunks a n h (bs ++ more) = compressChunks a n h bs := by
  induction n generalizing h bs with
  | zero => rfl
  | succ n ih =>
    rw [Nat.add_mul] at hn
    rw [compressChunks, compressChunks, List.take_append_of_le_length (by omega),
      List.drop_append_of_le_length (by omega), ih _ _ (by rw [List.length_drop]; omega)]

/-- The loop of UPDATE in closed form (R102, R103). -/
theorem drainLoop_eq (a : Algorithm) (n : Nat) (d : Drain) :
    drainLoop a n d =
      { h := compressChunks a n d.h d.rest
        processed := d.processed + BitVec.ofNat 64 (n * a.chunkBytes)
        rest := d.rest.drop (n * a.chunkBytes) } := by
  induction n generalizing d with
  | zero => simp [drainLoop, compressChunks]
  | succ n ih =>
    have hmul : (n + 1) * a.chunkBytes = a.chunkBytes + n * a.chunkBytes := by rw [Nat.add_mul]; omega
    rw [drainLoop, ih, compressChunks, hmul]
    simp only [List.drop_drop, BitVec.ofNat_add, BitVec.add_assoc]

/-! ### The shape of H under a descriptor (10_state.md R21) -/

theorem zext64_lt (x : Word32) : (zext64 x).toNat < 2 ^ 32 := by
  have := x.isLt
  simp only [zext64, BitVec.toNat_setWidth]
  omega

theorem initialVector_fits (a : Algorithm) : (initialVector a).fits a = true := by cases a <;> decide

/-- Every compression leaves H in the shape of its descriptor. -/
theorem compress_fits (a : Algorithm) (h : Digest) (chunk : List Byte) (hf : h.fits a = true) :
    (compress a h chunk).fits a = true := by
  have hz : ∀ x : Word32, (zext64 x).toNat < 4294967296 := zext64_lt
  have h64 : ∀ x : Word64, x.toNat < 18446744073709551616 := fun x => x.isLt
  cases a <;>
    simp [Digest.fits, Digest.words, Algorithm.digestWords, Algorithm.wordBytes] at hf <;>
    simp [Digest.fits, Digest.words, Algorithm.digestWords, Algorithm.wordBytes, compress, compressSha1, Digest.store5,
      compressSha256, Digest.store8, compressSha512, Digest.store64, compressMd5, Digest.store4, hf, hz, h64]

theorem compressChunks_fits (a : Algorithm) (n : Nat) (h : Digest) (bs : List Byte) (hf : h.fits a = true) :
    (compressChunks a n h bs).fits a = true := by
  induction n generalizing h bs with
  | zero => exact hf
  | succ n ih => exact ih _ _ (compress_fits a _ _ hf)

end Sys2Proof.Machine
end

