-- ==== Sys2Proof/Laws/Step.lean ====
section
/-!
SUPPORT. Step.lean: what each meaning and the step can do, said once.
-/

namespace Sys2Proof.Machine

/-! ### Outcomes -/

theorem finish_eq_next {r : Except Fault State} {t : State} : finish r = .next t ↔ r = .ok t := by
  cases r <;> simp [finish]

theorem finish_eq_fault {r : Except Fault State} {f : Fault} : finish r = .fault f ↔ r = .error f := by
  cases r <;> simp [finish]

theorem finish_ne_refused {r : Except Fault State} {e : Refusal} : finish r ≠ .refused e := by
  cases r <;> simp [finish]

/-! ### PAD and the padded tail (46_padding_finalizer.md R152, R156) -/

theorem lengthBytes_lt (a : Algorithm) : a.lengthBytes < a.chunkBytes := by cases a <;> decide

@[simp] theorem lengthField_length (a : Algorithm) (L : Word64) : (lengthField a L).length = a.lengthBytes := by
  cases a <;> simp [lengthField, Algorithm.lengthBytes]

theorem padTail_length (a : Algorithm) (rest : List Byte) (L : Word64) :
    (padTail a rest L).length = rest.length + 1 + padZeros a rest.length + a.lengthBytes := by
  simp only [padTail, List.length_append, zeros_length, lengthField_length, List.length_cons, List.length_nil]

/-- The number of zero bytes depends on the unprocessed length modulo C only. -/
theorem padZeros_mod (a : Algorithm) (b : Nat) : padZeros a b = padZeros a (b % a.chunkBytes) := by
  cases a <;> simp only [padZeros, Algorithm.chunkBytes, Algorithm.lengthBytes] <;> omega

theorem padZeros_short {a : Algorithm} {b : Nat} (h : b + a.lengthBytes + 1 ≤ a.chunkBytes) :
    padZeros a b = a.chunkBytes - a.lengthBytes - 1 - b := by
  cases a <;> simp only [padZeros, Algorithm.chunkBytes, Algorithm.lengthBytes] at h ⊢ <;> omega

theorem padZeros_long {a : Algorithm} {b : Nat} (hb : b < a.chunkBytes) (h : a.chunkBytes ≤ b + a.lengthBytes) :
    padZeros a b = 2 * a.chunkBytes - a.lengthBytes - 1 - b := by
  cases a <;> simp only [padZeros, Algorithm.chunkBytes, Algorithm.lengthBytes] at h hb ⊢ <;> omega

/-! ### The bodies of UPDATE and DIGEST -/

/-- The state after UPDATE has completed `q` chunks of `held ++ data` (R102 in closed form). -/
def completedState (a : Algorithm) (held data : List Byte) (s : State) : State :=
  let q := (s.buflen.toNat + data.length) / a.chunkBytes
  let rest := (held ++ data).drop (q * a.chunkBytes)
  { s with
    h := compressChunks a q s.h (held ++ data)
    processed := s.processed + BitVec.ofNat 64 (q * a.chunkBytes)
    buf := (s.buf.writeBytes s.buflen.toNat (data.take (a.chunkBytes - s.buflen.toNat))).writeBytes 0 rest
    buflen := BitVec.ofNat 8 rest.length }

/-- The completing branch, when the held bytes can be read. -/
theorem completeAndDrain_of_held {a : Algorithm} {data held : List Byte} {s : State}
    (hb : s.buflen.toNat ≤ a.chunkBytes) (hn : a.chunkBytes ≤ s.buflen.toNat + data.length)
    (hh : s.buf.readBytes 0 s.buflen.toNat = .ok held) :
    completeAndDrain a data s = .ok (completedState a held data s) := by
  have hC := chunkBytes_pos a
  have hlen : held.length = s.buflen.toNat := ((Memory.readBytes_ok _ _ _ _).1 hh).1
  generalize hk : a.chunkBytes - s.buflen.toNat = k
  have htk : (data.take k).length = k := by rw [List.length_take]; omega
  have hfull : (s.buf.writeBytes s.buflen.toNat (data.take k)).readBytes 0 a.chunkBytes = .ok (held ++ data.take k) := by
    have h1 : (s.buf.writeBytes s.buflen.toNat (data.take k)).readBytes 0 s.buflen.toNat = .ok held := by
      rw [← hh]
      exact Memory.readBytes_congr _ _ _ _ fun i hi => Memory.read_writeBytes_outside _ _ _ _ (by omega)
    have h2 := Memory.readBytes_writeBytes s.buf s.buflen.toNat (data.take k)
    have := Memory.readBytes_append _ 0 s.buflen.toNat (data.take k).length held (data.take k) h1 (by simpa using h2)
    rwa [htk, show s.buflen.toNat + k = a.chunkBytes by omega] at this
  have hw : memWrite a.chunkBytes s.buflen.toNat (data.take k) s.buf =
      .ok (s.buf.writeBytes s.buflen.toNat (data.take k)) := memWrite_ok.2 ⟨by omega, rfl⟩
  have hr : memRead a.chunkBytes 0 a.chunkBytes (s.buf.writeBytes s.buflen.toNat (data.take k)) =
      .ok (held ++ data.take k) := memRead_ok.2 ⟨by omega, hfull⟩
  obtain ⟨m, hm⟩ : ∃ m, (s.buflen.toNat + data.length) / a.chunkBytes = m + 1 :=
    ⟨(s.buflen.toNat + data.length) / a.chunkBytes - 1, by
      have := Nat.div_pos hn hC
      omega⟩
  have hsplit : s.buflen.toNat + data.length = a.chunkBytes + (data.drop k).length := by
    rw [List.length_drop]; omega
  have hm' : (data.drop k).length / a.chunkBytes = m := by
    rw [hsplit, Nat.add_div_left _ hC] at hm
    omega
  have hall : held ++ data = (held ++ data.take k) ++ data.drop k := by
    rw [List.append_assoc, List.take_append_drop]
  have hfirst : (held ++ data.take k).length = a.chunkBytes := by
    rw [List.length_append, htk]; omega
  have htake : (held ++ data).take a.chunkBytes = held ++ data.take k := by
    rw [hall, List.take_append_of_le_length (by omega), List.take_of_length_le (by omega)]
  have hdrop : (held ++ data).drop a.chunkBytes = data.drop k := by
    rw [hall, List.drop_append_of_le_length (by omega), List.drop_of_length_le (by omega), List.nil_append]
  have hrest : (held ++ data).drop ((m + 1) * a.chunkBytes) = (data.drop k).drop (m * a.chunkBytes) := by
    rw [← hdrop, List.drop_drop]
    congr 1
    rw [Nat.add_mul]; omega
  have hrl : ((data.drop k).drop (m * a.chunkBytes)).length ≤ a.chunkBytes := by
    have h1 := Nat.mod_lt (data.drop k).length hC
    have h2 := Nat.div_add_mod' (data.drop k).length a.chunkBytes
    rw [hm'] at h2
    rw [List.length_drop (i := m * a.chunkBytes)]
    omega
  simp only [completeAndDrain, completedState, hk, hw, hr, drain, hm', drainLoop_eq, hm, hrest, compressChunks, htake, hdrop]
  rw [memWrite_ok.2 ⟨by omega, rfl⟩]
  simp only [Except.ok.injEq, State.mk.injEq, and_true, true_and]
  rw [BitVec.add_assoc, ← BitVec.ofNat_add, Nat.add_mul, Nat.one_mul, Nat.add_comm a.chunkBytes]

/-- The completing branch stops where the held bytes cannot be read. -/
theorem completeAndDrain_unwritten {a : Algorithm} {data : List Byte} {s : State} {i : Nat}
    (hb : s.buflen.toNat ≤ a.chunkBytes) (hi : i < s.buflen.toNat) (hr : s.buf.read i = none) : completeAndDrain a data s = .error .unwrittenByte := by
  have hw : memWrite a.chunkBytes s.buflen.toNat (data.take (a.chunkBytes - s.buflen.toNat)) s.buf =
      .ok (s.buf.writeBytes s.buflen.toNat (data.take (a.chunkBytes - s.buflen.toNat))) :=
    memWrite_ok.2 ⟨by rw [List.length_take]; omega, rfl⟩
  have hread : (s.buf.writeBytes s.buflen.toNat (data.take (a.chunkBytes - s.buflen.toNat))).readBytes 0 a.chunkBytes =
      .error .unwrittenByte := by
    refine Memory.readBytes_unwritten _ (show i < a.chunkBytes by omega) ?_
    rw [Nat.zero_add, Memory.read_writeBytes_outside _ _ _ _ (by omega), hr]
  simp only [completeAndDrain, hw, memRead, Nat.zero_add, Nat.le_refl, if_true, hread]

/-- EVERYTHING the body of UPDATE can do when it answers a state: the buffering branch (R101), or the completing branch on bytes that can be
read (R102). -/
theorem updateBody_ok {data : List Byte} {s t : State} :
    updateBody data s = .ok t ↔ ∃ a, Algorithm.ofTag s.alg = some a ∧
      ((s.buflen.toNat + data.length < a.chunkBytes ∧
        t = { s with
          buf := s.buf.writeBytes s.buflen.toNat data, buflen := BitVec.ofNat 8 (s.buflen.toNat + data.length) }) ∨
       (a.chunkBytes ≤ s.buflen.toNat + data.length ∧ s.buflen.toNat ≤ a.chunkBytes ∧
        ∃ held, s.buf.readBytes 0 s.buflen.toNat = .ok held ∧ t = completedState a held data s)) := by
  simp only [updateBody]
  split
  · rename_i e he
    refine ⟨fun h => (by simp at h), ?_⟩
    rintro ⟨a, ha, -⟩
    rw [selected_ok.2 ha] at he
    simp at he
  · rename_i a ha
    rw [selected_ok] at ha
    have huniq : ∀ b, Algorithm.ofTag s.alg = some b → b = a := fun b hb => by
      rw [ha] at hb; exact (Option.some.inj hb).symm
    split
    · rename_i hlt
      have hw : memWrite a.chunkBytes s.buflen.toNat data s.buf = .ok (s.buf.writeBytes s.buflen.toNat data) :=
        memWrite_ok.2 ⟨by omega, rfl⟩
      simp only [bufferOnly, hw, Except.ok.injEq]
      constructor
      · rintro rfl
        exact ⟨a, ha, .inl ⟨hlt, rfl⟩⟩
      · rintro ⟨b, hb, h⟩
        obtain rfl := huniq b hb
        rcases h with ⟨-, rfl⟩ | ⟨h, -⟩
        · rfl
        · omega
    · rename_i hge
      constructor
      · intro h
        by_cases hb : s.buflen.toNat ≤ a.chunkBytes
        · by_cases hwr : ∀ i, i < s.buflen.toNat → (s.buf.read i).isSome = true
          · obtain ⟨held, hh⟩ := Memory.readBytes_of_isSome s.buf 0 s.buflen.toNat (by simpa using hwr)
            rw [completeAndDrain_of_held hb (by omega) hh, Except.ok.injEq] at h
            exact ⟨a, ha, .inr ⟨by omega, hb, held, hh, h.symm⟩⟩
          · simp only [not_forall] at hwr
            obtain ⟨i, hi, hn⟩ := hwr
            rw [completeAndDrain_unwritten hb hi (by simpa using hn)] at h
            simp at h
        · simp only [completeAndDrain, memWrite] at h
          rw [if_neg (by omega)] at h
          simp at h
      · rintro ⟨b, hb, h⟩
        obtain rfl := huniq b hb
        rcases h with ⟨h, -⟩ | ⟨h, hle, held, hh, rfl⟩
        · omega
        · exact completeAndDrain_of_held hle h hh

/-- The state after DIGEST on the unprocessed bytes `held` (R150). -/
def digestedState (a : Algorithm) (held : List Byte) (s : State) : State :=
  let tail := padTail a held (bitLength s)
  let h := compressChunks a (tail.length / a.chunkBytes) s.h tail
  { s with h := h, dout := s.dout ++ serialize a h, phase := .done }

/-- EVERYTHING the body of DIGEST can do when it answers a state (R150). -/
theorem digestBody_ok {s t : State} :
    digestBody s = .ok t ↔ ∃ a held, Algorithm.ofTag s.alg = some a ∧ s.buflen.toNat ≤ a.chunkBytes ∧
      s.buf.readBytes 0 s.buflen.toNat = .ok held ∧ t = digestedState a held s := by
  simp only [digestBody]
  split
  · rename_i e he
    refine ⟨fun h => (by simp at h), ?_⟩
    rintro ⟨a, held, ha, -⟩
    rw [selected_ok.2 ha] at he
    simp at he
  · rename_i a ha
    rw [selected_ok] at ha
    split
    · rename_i e he
      refine ⟨fun h => (by simp at h), ?_⟩
      rintro ⟨b, held, hb, hle, hh, -⟩
      rw [ha, Option.some.injEq] at hb
      subst hb
      rw [unprocessed, memRead_ok.2 ⟨by omega, hh⟩] at he
      simp at he
    · rename_i held hh
      rw [unprocessed, memRead_ok, Nat.zero_add] at hh
      simp only [Except.ok.injEq]
      constructor
      · rintro rfl
        exact ⟨a, held, ha, hh.1, hh.2, rfl⟩
      · rintro ⟨b, held', hb, hle, hh', rfl⟩
        rw [ha, Option.some.injEq] at hb
        subst hb
        rw [hh.2, Except.ok.injEq] at hh'
        subst hh'
        rfl

/-- EVERYTHING the body of UPDATE can stop on (log 11): no algorithm, and in the completing branch BUFLEN beyond C or a held byte that nothing has
written. -/
theorem updateBody_error {data : List Byte} {s : State} {f : Fault} (h : updateBody data s = .error f) :
    (f = .noAlgorithm ∧ Algorithm.ofTag s.alg = none) ∨ ∃ a, Algorithm.ofTag s.alg = some a ∧
      a.chunkBytes ≤ s.buflen.toNat + data.length ∧
      ((f = .bufferRange ∧ a.chunkBytes < s.buflen.toNat) ∨
       (f = .unwrittenByte ∧ s.buflen.toNat ≤ a.chunkBytes ∧ ∃ j, j < s.buflen.toNat ∧ s.buf.read j = none)) := by
  cases ha : Algorithm.ofTag s.alg with
  | none => simp_all [updateBody, selected]
  | some a =>
    simp only [updateBody, selected_ok.2 ha] at h
    split at h
    · rename_i hlt
      rw [bufferOnly, memWrite_ok.2 ⟨by omega, rfl⟩] at h
      simp at h
    · refine .inr ⟨a, rfl, by omega, ?_⟩
      by_cases hb : s.buflen.toNat ≤ a.chunkBytes
      · obtain ⟨held, hh⟩ | ⟨j, hj, hr⟩ := Memory.readBytes_cases s.buf s.buflen.toNat
        · rw [completeAndDrain_of_held hb (by omega) hh] at h
          simp at h
        · rw [completeAndDrain_unwritten hb hj hr, Except.error.injEq] at h
          exact .inr ⟨h.symm, hb, j, hj, hr⟩
      · simp only [completeAndDrain, memWrite] at h
        rw [if_neg (by omega), Except.error.injEq] at h
        exact .inl ⟨h.symm, by omega⟩

/-- EVERYTHING the body of DIGEST can stop on (log 11). -/
theorem digestBody_error {s : State} {f : Fault} (h : digestBody s = .error f) :
    (f = .noAlgorithm ∧ Algorithm.ofTag s.alg = none) ∨ ∃ a, Algorithm.ofTag s.alg = some a ∧
      ((f = .bufferRange ∧ a.chunkBytes < s.buflen.toNat) ∨
       (f = .unwrittenByte ∧ s.buflen.toNat ≤ a.chunkBytes ∧ ∃ j, j < s.buflen.toNat ∧ s.buf.read j = none)) := by
  cases ha : Algorithm.ofTag s.alg with
  | none => simp_all [digestBody, selected]
  | some a =>
    refine .inr ⟨a, rfl, ?_⟩
    simp only [digestBody, selected_ok.2 ha, unprocessed, memRead, Nat.zero_add] at h
    by_cases hb : s.buflen.toNat ≤ a.chunkBytes
    · obtain ⟨held, hh⟩ | ⟨j, hj, hr⟩ := Memory.readBytes_cases s.buf s.buflen.toNat
      · simp [hb, hh] at h
      · simp only [hb, if_true, Memory.readBytes_unwritten s.buf (addr := 0) hj (by rwa [Nat.zero_add]), Except.error.injEq] at h
        exact .inr ⟨h.symm, hb, j, hj, hr⟩
    · simp only [hb, if_false, Except.error.injEq] at h
      exact .inl ⟨h.symm, by omega⟩

/-- The phase check stops only where the command's body does, in ACTIVE. -/
theorem inActivePhase_error {body : State → Except Fault State} {s : State} {f : Fault} :
    inActivePhase body s = .error f ↔ s.phase = .active ∧ body s = .error f := by
  cases hp : s.phase <;> simp [inActivePhase, hp]

/-- What the phase check can do (R172, R173). -/
theorem inActivePhase_ok {body : State → Except Fault State} {s t : State} :
    inActivePhase body s = .ok t ↔
      (s.phase = .faulted ∧ t = s) ∨ (s.phase = .idle ∧ t = raise .notCreated s) ∨
      (s.phase = .done ∧ t = raise .useAfterDigest s) ∨ (s.phase = .active ∧ body s = .ok t) := by
  cases hp : s.phase <;> simp [inActivePhase, hp, @eq_comm State t]

/-! ### The meanings -/

/-- Everything CREATE can do (R90, R173): it always completes. -/
theorem exec_create_next {tag : BitVec 8} {s t : State} :
    exec (.create tag) s = .next t ↔
      (s.phase = .faulted ∧ t = retire s) ∨
      (s.phase ≠ .faulted ∧ Algorithm.ofTag tag = none ∧ t = raise .unsupportedAlgorithm (retire s)) ∨
      (s.phase ≠ .faulted ∧ ∃ a, Algorithm.ofTag tag = some a ∧ t = beginComputation a (retire s)) := by
  simp only [exec, execCreate, createBody, retire_phase, Host.Outcome.next.injEq]
  by_cases hp : s.phase = .faulted
  · simp [hp, @eq_comm State t]
  · cases ht : Algorithm.ofTag tag <;> simp [hp, @eq_comm State t]

/-- Everything UPDATE can do (R71, R81, R100). -/
theorem exec_update_next {n : Nat} {s t : State} :
    exec (.update n) s = .next t ↔
      (s.din.length < n ∧ t = awaitPayload s) ∨
      (n ≤ s.din.length ∧ inActivePhase (updateBody (s.din.take n)) (dropPayload n (retire s)) = .ok t) := by
  simp only [exec, execUpdate, starved, decide_eq_true_eq]
  split
  · rename_i h
    simp only [Host.Outcome.next.injEq, h, true_and, show ¬ n ≤ s.din.length by omega, false_and, or_false, eq_comm]
  · rename_i h
    simp only [finish_eq_next, h, false_and, false_or, show n ≤ s.din.length by omega, true_and]

/-- Everything DIGEST can do (R150). -/
theorem exec_digest_next {s t : State} :
    exec .digest s = .next t ↔ inActivePhase digestBody (retire s) = .ok t := by
  simp only [exec, execDigest, finish_eq_next]

/-- Everything a COMPRESS micro-operation can do (R110, R120, R130, R140). -/
theorem exec_compress_next {a : Algorithm} {s t : State} :
    exec (compressOf a) s = .next t ↔ ∃ chunk, s.uop = some (.compress chunk) ∧ chunk.length = a.chunkBytes ∧
      t = { s with h := compress a s.h chunk, uop := none } := by
  have key : ∀ g : List Byte → State,
      (match invokedChunk a s with
        | .ok chunk => (Except.ok (g chunk) : Except Fault State)
        | .error e => .error e) = .ok t ↔
      ∃ chunk, s.uop = some (.compress chunk) ∧ chunk.length = a.chunkBytes ∧ t = g chunk := by
    intro g
    simp only [invokedChunk]
    cases s.uop with
    | none => simp
    | some u =>
      cases u with
      | compress c => by_cases h : c.length = a.chunkBytes <;> simp [h, eq_comm]
      | pad _ _ => simp
      | serialize => simp
  cases a <;>
    simp only [compressOf, exec, execCompressSha1, execCompressSha256, execCompressSha512, execCompressMd5, finish_eq_next,
      compress] <;>
    exact key _

/-- Everything a COMPRESS micro-operation can stop on (log 11). -/
theorem exec_compress_fault {a : Algorithm} {s : State} {f : Fault} (h : exec (compressOf a) s = .fault f) :
    (f = .noInvocation ∧ s.uop.map Uop.kind ≠ some .compress) ∨
    (f = .chunkLength ∧ ∃ chunk, s.uop = some (.compress chunk) ∧ chunk.length ≠ a.chunkBytes) := by
  have key : ∀ g : List Byte → State,
      (match invokedChunk a s with
        | .ok chunk => (Except.ok (g chunk) : Except Fault State)
        | .error e => .error e) = .error f →
      (f = .noInvocation ∧ s.uop.map Uop.kind ≠ some .compress) ∨
      (f = .chunkLength ∧ ∃ chunk, s.uop = some (.compress chunk) ∧ chunk.length ≠ a.chunkBytes) := by
    intro g
    simp only [invokedChunk]
    cases s.uop with
    | none => simp [eq_comm]
    | some u =>
      cases u with
      | compress c => by_cases h : c.length = a.chunkBytes <;> simp [h, Uop.kind, eq_comm]
      | pad _ _ => simp [Uop.kind, eq_comm]
      | serialize => simp [Uop.kind, eq_comm]
  cases a <;>
    simp only [compressOf, exec, execCompressSha1, execCompressSha256, execCompressSha512, execCompressMd5, finish_eq_fault] at h <;>
    exact key _ h

/-- Everything PAD can do (R152). -/
theorem exec_pad_next {s t : State} :
    exec .pad s = .next t ↔ ∃ rest bits a, s.uop = some (.pad rest bits) ∧ Algorithm.ofTag s.alg = some a ∧
      t = { s with pad := padTail a rest bits, uop := none } := by
  simp only [exec, execPad, finish_eq_next, invokedPad, selected]
  cases s.uop with
  | none => simp
  | some u =>
    cases u with
    | compress _ => simp
    | serialize => simp
    | pad rest bits => cases Algorithm.ofTag s.alg <;> simp [eq_comm]

/-- Everything SERIALIZE can do (R160). -/
theorem exec_serialize_next {s t : State} :
    exec .serialize s = .next t ↔ ∃ a, s.uop = some .serialize ∧ Algorithm.ofTag s.alg = some a ∧
      t = { s with ser := serialize a s.h, uop := none } := by
  simp only [exec, execSerialize, finish_eq_next, invokedSerialize, selected]
  cases s.uop with
  | none => simp
  | some u =>
    cases u with
    | compress _ => simp
    | pad _ _ => simp
    | serialize => cases Algorithm.ofTag s.alg <;> simp [eq_comm]

/-- Everything PAD can stop on (log 11). -/
theorem exec_pad_fault {s : State} {f : Fault} (h : exec .pad s = .fault f) :
    (f = .noInvocation ∧ s.uop.map Uop.kind ≠ some .pad) ∨
    (f = .noAlgorithm ∧ s.uop.map Uop.kind = some .pad ∧ Algorithm.ofTag s.alg = none) := by
  simp only [exec, execPad, finish_eq_fault, invokedPad, selected] at h
  cases hu : s.uop with
  | none => simp_all
  | some u => cases u <;> cases ha : Algorithm.ofTag s.alg <;> simp_all [Uop.kind]

/-- Everything SERIALIZE can stop on (log 11). -/
theorem exec_serialize_fault {s : State} {f : Fault} (h : exec .serialize s = .fault f) :
    (f = .noInvocation ∧ s.uop.map Uop.kind ≠ some .serialize) ∨
    (f = .noAlgorithm ∧ s.uop = some .serialize ∧ Algorithm.ofTag s.alg = none) := by
  simp only [exec, execSerialize, finish_eq_fault, invokedSerialize, selected] at h
  cases hu : s.uop with
  | none => simp_all
  | some u => cases u <;> cases ha : Algorithm.ofTag s.alg <;> simp_all [Uop.kind]

/-- After an UPDATE the record says whether it still waits (log 23). -/
theorem exec_update_begun {s t : State} {n : Nat} (h : exec (.update n) s = .next t) : t.begun = true ↔ s.din.length < n := by
  rcases exec_update_next.1 h with ⟨hl, rfl⟩ | ⟨hl, hx⟩
  · simpa using hl
  · have : t.begun = false := by
      rcases inActivePhase_ok.1 hx with ⟨-, rfl⟩ | ⟨-, rfl⟩ | ⟨-, rfl⟩ | ⟨-, hx⟩
      · rfl
      · rfl
      · rfl
      · obtain ⟨_, _, ⟨_, rfl⟩ | ⟨_, _, _, _, rfl⟩⟩ := updateBody_ok.1 hx <;> rfl
    simp only [this, Bool.false_eq_true, false_iff]
    omega

/-- No other instruction writes the record (log 23). -/
theorem exec_begun {s t : State} {i : Instr} (hi : ∀ n, i ≠ .update n) (h : exec i s = .next t) : t.begun = s.begun := by
  have hc : ∀ a, exec (compressOf a) s = .next t → t.begun = s.begun := fun a h => by
    obtain ⟨_, -, -, rfl⟩ := exec_compress_next.1 h
    rfl
  cases i with
  | create tag => rcases exec_create_next.1 h with ⟨_, rfl⟩ | ⟨_, _, rfl⟩ | ⟨_, _, _, rfl⟩ <;> rfl
  | update n => exact absurd rfl (hi n)
  | digest =>
    rcases inActivePhase_ok.1 (exec_digest_next.1 h) with ⟨-, rfl⟩ | ⟨-, rfl⟩ | ⟨-, rfl⟩ | ⟨-, hx⟩
    · rfl
    · rfl
    · rfl
    · obtain ⟨_, _, _, _, _, rfl⟩ := digestBody_ok.1 hx
      rfl
  | compressSha1 => exact hc .sha1 h
  | compressSha256 => exact hc .sha256 h
  | compressSha512 => exact hc .sha512 h
  | compressMd5 => exact hc .md5 h
  | pad => obtain ⟨_, _, _, _, _, rfl⟩ := exec_pad_next.1 h; rfl
  | serialize => obtain ⟨_, _, _, rfl⟩ := exec_serialize_next.1 h; rfl

/-- No meaning ever refuses. -/
theorem exec_ne_refused (i : Instr) (s : State) (e : Refusal) : exec i s ≠ .refused e := by
  cases i
  case create => simp [exec, execCreate]
  case update =>
    simp only [exec, execUpdate]
    split
    · simp
    · exact finish_ne_refused
  all_goals exact finish_ne_refused

/-! ### The decoder -/

/-- The command words of an instruction, by inversion of the decoder (R74 to R78). -/
theorem decodeCommand_ok {w : CommandWord} {i : Instr} :
    decodeCommand w = .ok i ↔
      (opField w = 0x01#8 ∧ reservedField w = 0#16 ∧ i = .create (tagField w)) ∨
      (opField w = 0x02#8 ∧ i = .update (argField w).toNat) ∨
      (opField w = 0x03#8 ∧ argField w = 0#24 ∧ i = .digest) := by
  simp only [decodeCommand]
  by_cases h1 : opField w = 0x01#8
  · by_cases hr : reservedField w = 0#16 <;> simp [h1, hr, @eq_comm Instr i]
  · by_cases h2 : opField w = 0x02#8
    · simp [h2, @eq_comm Instr i]
    · by_cases h3 : opField w = 0x03#8
      · by_cases ha : argField w = 0#24 <;> simp [h3, ha, @eq_comm Instr i]
      · simp [h1, h2, h3]

/-! ### The step -/

/-- EVERYTHING a step can do when it answers a state (R80, R190). -/
theorem step_next {s t : State} :
    step s = .next t ↔
      (s.rst = true ∧ midCommand s = false ∧ t = resetEvent s) ∨
      (s.rst = false ∧ ∃ u a, s.uop = some u ∧ Algorithm.ofTag s.alg = some a ∧ exec (uopOf u.kind a) s = .next t) ∨
      (s.rst = false ∧ s.uop = none ∧ s.cmd = [] ∧ t = s) ∨
      (s.rst = false ∧ s.uop = none ∧ ∃ w rest, s.cmd = w :: rest ∧
        ((∃ i, decodeCommand w = .ok i ∧ exec i s = .next t) ∨
         (∃ e, decodeCommand w = .error e ∧ t = illegalWord s))) := by
  simp only [step]
  cases hr : s.rst with
  | true => cases hm : midCommand s <;> simp [@eq_comm State t]
  | false =>
    cases hu : s.uop with
    | some u =>
      simp only [decode, decodeUop]
      cases Algorithm.ofTag s.alg <;> simp
    | none =>
      cases hc : s.cmd with
      | nil => simp [@eq_comm State t]
      | cons w rest =>
        simp only [decode]
        cases hd : decodeCommand w <;> simp [hd, @eq_comm State t]

/-! ### Runs -/

@[simp] theorem run_zero (s : State) : run 0 s = .next s := rfl

theorem run_succ (n : Nat) (s : State) :
    run (n + 1) s = (match step s with
      | .next t => run n t
      | .fault e => .fault e
      | .refused e => .refused e) := by
  cases h : step s <;> simp only [run] <;> exact (Host.Core.run.eq_2 Sys2Proof.core s n).trans (by
    rw [show Sys2Proof.core.step s = _ from h]
    try rfl)

/-- A run that begins with a step to `t` goes on from `t`. -/
theorem run_succ_of_step {n : Nat} {s t : State} (h : step s = .next t) : run (n + 1) s = run n t := by
  rw [run_succ, h]

/-- Runs one after the other. -/
theorem run_add {m n : Nat} {s t : State} (h : run m s = .next t) : run (m + n) s = run n t := by
  induction m generalizing s with
  | zero =>
    rw [run_zero, Host.Outcome.next.injEq] at h
    rw [h, Nat.zero_add]
  | succ m ih =>
    rw [Nat.add_right_comm, run_succ]
    rw [run_succ] at h
    cases hs : step s with
    | next u => rw [hs] at h; exact ih h
    | fault e => rw [hs] at h; simp at h
    | refused e => rw [hs] at h; simp at h

end Sys2Proof.Machine
end

