-- ==== Sys2Proof/Laws/Words.lean ====
section
/-!
SUPPORT. Words.lean: the laws of the fields of a command word, of the words of a chunk, and of the bytes of a word.
-/

namespace Sys2Proof.Machine

/-! ### Command words (30_encoding.md R73 to R77) -/

theorem opField_append (op : BitVec 8) (arg : BitVec 24) : opField (op ++ arg) = op := by
  apply BitVec.eq_of_getLsbD_eq
  intro i hi
  rw [opField, BitVec.getLsbD_extractLsb', BitVec.getLsbD_append]
  simp [hi]

theorem argField_append (op : BitVec 8) (arg : BitVec 24) : argField (op ++ arg) = arg := by
  apply BitVec.eq_of_getLsbD_eq
  intro i hi
  rw [argField, BitVec.getLsbD_extractLsb', BitVec.getLsbD_append]
  simp [hi]

/-- A word is its `op` followed by its `arg` (R73). -/
theorem opField_append_argField (w : CommandWord) : opField w ++ argField w = w := by
  apply BitVec.eq_of_getLsbD_eq
  intro i hi
  rw [BitVec.getLsbD_append, opField, argField, BitVec.getLsbD_extractLsb', BitVec.getLsbD_extractLsb']
  split
  · simp; omega
  · rw [show 24 + (i - 24) = i by omega]
    simp
    omega

/-- A word is its `op`, the reserved field and the tag of CREATE (R75). -/
theorem opField_append_reservedField_append_tagField (w : CommandWord) :
    opField w ++ reservedField w ++ tagField w = w := by
  apply BitVec.eq_of_getLsbD_eq
  intro i hi
  rw [BitVec.getLsbD_append, BitVec.getLsbD_append, opField, reservedField, tagField, BitVec.getLsbD_extractLsb',
    BitVec.getLsbD_extractLsb', BitVec.getLsbD_extractLsb']
  split
  · simp; omega
  · split
    · rw [show 8 + (i - 8) = i by omega]
      simp
      omega
    · rw [show 24 + (i - 8 - 16) = i by omega]
      simp
      omega

theorem decodeCommand_updateWord {n : Nat} (h : n < 2 ^ 24) : decodeCommand (updateWord n) = .ok (.update n) := by
  refine decodeCommand_ok.2 (.inr (.inl ⟨opField_append _ _, ?_⟩))
  rw [updateWord, argField_append]
  simp
  omega

theorem payloadLength_updateWord {n : Nat} (h : n < 2 ^ 24) : payloadLength (updateWord n) = n := by
  rw [payloadLength, updateWord, opField_append, argField_append]
  simp
  omega

theorem decodeCommand_createWord (tag : BitVec 8) : decodeCommand (createWord tag) = .ok (.create tag) := by
  revert tag
  decide +kernel

@[simp] theorem payloadLength_createWord (tag : BitVec 8) : payloadLength (createWord tag) = 0 := by
  revert tag
  decide +kernel

@[simp] theorem decodeCommand_digestWord : decodeCommand digestWord = .ok .digest := by decide

@[simp] theorem payloadLength_digestWord : payloadLength digestWord = 0 := by decide

/-- The word of DIGEST is the only one (R77). -/
theorem eq_digestWord {w : CommandWord} (hop : opField w = 0x03#8) (harg : argField w = 0#24) : w = digestWord := by
  have h := opField_append_argField w
  rw [hop, harg] at h
  exact h.symm

/-! ### Rotates (00_scope.md R14) -/

theorem rotl_eq_rotateLeft {w n : Nat} (h : n < w) (x : BitVec w) : rotl n x = x.rotateLeft n := by
  rw [rotl, BitVec.rotateLeft_def, Nat.mod_eq_of_lt h]

theorem rotr_eq_rotateRight {w n : Nat} (h0 : 0 < n) (h : n < w) (x : BitVec w) : rotr n x = x.rotateRight n := by
  rw [rotr, rotl, BitVec.rotateRight_def, Nat.mod_eq_of_lt h, BitVec.or_comm, show w - (w - n) = n by omega]

theorem sMd5_lt (i : Nat) : sMd5 i < 32 := by
  have h : i % 4 = 0 ∨ i % 4 = 1 ∨ i % 4 = 2 ∨ i % 4 = 3 := by omega
  unfold sMd5
  split_ifs <;> rcases h with h | h | h | h <;> simp [h]

/-! ### Words of a chunk (20_memory.md R50) -/

theorem slice_four {c : List Byte} {i : Nat} (h : i + 4 ≤ c.length) :
    slice c i 4 = [c.getD i 0, c.getD (i + 1) 0, c.getD (i + 2) 0, c.getD (i + 3) 0] := by
  apply List.ext_getElem
  · simp [slice]; omega
  · intro k h1 h2
    have hk : k = 0 ∨ k = 1 ∨ k = 2 ∨ k = 3 := by simp at h2; omega
    rcases hk with rfl | rfl | rfl | rfl <;> simp [slice] <;> (rw [List.getElem?_eq_getElem (by omega)]; rfl)

theorem slice_eight {c : List Byte} {i : Nat} (h : i + 8 ≤ c.length) :
    slice c i 8 = [c.getD i 0, c.getD (i + 1) 0, c.getD (i + 2) 0, c.getD (i + 3) 0,
      c.getD (i + 4) 0, c.getD (i + 5) 0, c.getD (i + 6) 0, c.getD (i + 7) 0] := by
  apply List.ext_getElem
  · simp [slice]; omega
  · intro k h1 h2
    have hk : k = 0 ∨ k = 1 ∨ k = 2 ∨ k = 3 ∨ k = 4 ∨ k = 5 ∨ k = 6 ∨ k = 7 := by simp at h2; omega
    rcases hk with rfl | rfl | rfl | rfl | rfl | rfl | rfl | rfl <;> simp [slice] <;>
      (rw [List.getElem?_eq_getElem (by omega)]; rfl)

theorem beWord32_toNat {c : List Byte} {t : Nat} (h : 4 * t + 4 ≤ c.length) :
    (beWord32 c t).toNat = (c.getD (4 * t) 0).toNat * 2 ^ 24 + (c.getD (4 * t + 1) 0).toNat * 2 ^ 16 +
      (c.getD (4 * t + 2) 0).toNat * 2 ^ 8 + (c.getD (4 * t + 3) 0).toNat := by
  rw [beWord32, slice_four h]
  have h0 := (c.getD (4 * t) 0).isLt
  have h1 := (c.getD (4 * t + 1) 0).isLt
  have h2 := (c.getD (4 * t + 2) 0).isLt
  have h3 := (c.getD (4 * t + 3) 0).isLt
  simp only [beValue, List.reverse_cons, List.reverse_nil, List.nil_append, List.cons_append, leValue, BitVec.toNat_ofNat]
  omega

theorem leWord32_toNat {c : List Byte} {t : Nat} (h : 4 * t + 4 ≤ c.length) :
    (leWord32 c t).toNat = (c.getD (4 * t) 0).toNat + (c.getD (4 * t + 1) 0).toNat * 2 ^ 8 +
      (c.getD (4 * t + 2) 0).toNat * 2 ^ 16 + (c.getD (4 * t + 3) 0).toNat * 2 ^ 24 := by
  rw [leWord32, slice_four h]
  have h0 := (c.getD (4 * t) 0).isLt
  have h1 := (c.getD (4 * t + 1) 0).isLt
  have h2 := (c.getD (4 * t + 2) 0).isLt
  have h3 := (c.getD (4 * t + 3) 0).isLt
  simp only [leValue, BitVec.toNat_ofNat]
  omega

theorem beWord64_toNat {c : List Byte} {t : Nat} (h : 8 * t + 8 ≤ c.length) :
    (beWord64 c t).toNat = (c.getD (8 * t) 0).toNat * 2 ^ 56 + (c.getD (8 * t + 1) 0).toNat * 2 ^ 48 +
      (c.getD (8 * t + 2) 0).toNat * 2 ^ 40 + (c.getD (8 * t + 3) 0).toNat * 2 ^ 32 +
      (c.getD (8 * t + 4) 0).toNat * 2 ^ 24 + (c.getD (8 * t + 5) 0).toNat * 2 ^ 16 +
      (c.getD (8 * t + 6) 0).toNat * 2 ^ 8 + (c.getD (8 * t + 7) 0).toNat := by
  rw [beWord64, slice_eight h]
  have h0 := (c.getD (8 * t) 0).isLt
  have h1 := (c.getD (8 * t + 1) 0).isLt
  have h2 := (c.getD (8 * t + 2) 0).isLt
  have h3 := (c.getD (8 * t + 3) 0).isLt
  have h4 := (c.getD (8 * t + 4) 0).isLt
  have h5 := (c.getD (8 * t + 5) 0).isLt
  have h6 := (c.getD (8 * t + 6) 0).isLt
  have h7 := (c.getD (8 * t + 7) 0).isLt
  simp only [beValue, List.reverse_cons, List.reverse_nil, List.nil_append, List.cons_append, leValue, BitVec.toNat_ofNat]
  omega

/-! ### Bytes of a word (47_state_serializer.md R160) -/

theorem byte_of_word (x : Word64) (k : Nat) : BitVec.ofNat 8 (x.toNat / 256 ^ k) = x.extractLsb' (8 * k) 8 := by
  apply BitVec.eq_of_toNat_eq
  rw [BitVec.extractLsb'_toNat, Nat.shiftRight_eq_div_pow, Nat.pow_mul]
  simp

@[simp] theorem wordToBytes_length (a : Algorithm) (x : Word64) : (wordToBytes a x).length = a.wordBytes := by
  simp only [wordToBytes]
  split <;> simp

/-- Byte `k` of words of `n` bytes each, laid out in order. -/
theorem getElem?_flatMap_words (ws : List Word64) (f : Word64 → List Byte) {n : Nat} (hn : 0 < n)
    (hf : ∀ x, (f x).length = n) (k : Nat) (hk : k < ws.length * n) :
    (ws.flatMap f)[k]? = (f (ws.getD (k / n) 0))[k % n]? := by
  induction ws generalizing k with
  | nil => simp at hk
  | cons w ws ih =>
    rw [List.flatMap_cons]
    by_cases h : k < n
    · rw [List.getElem?_append_left (by rw [hf]; exact h), Nat.div_eq_of_lt h, Nat.mod_eq_of_lt h]
      rfl
    · obtain ⟨j, rfl⟩ : ∃ j, k = n + j := ⟨k - n, by omega⟩
      simp only [List.length_cons, Nat.add_mul] at hk
      rw [List.getElem?_append_right (by rw [hf]; omega), hf, Nat.add_sub_cancel_left, ih j (by omega),
        Nat.add_div_left _ hn, Nat.add_mod_left]
      rfl

end Sys2Proof.Machine
end

