-- ==== Sys2Proof/Laws/Visible.lean ====
section
/-!
SUPPORT. Visible.lean: what a descriptor reads of H decides what a compression and SERIALIZE make of it (10_state.md R21, R36).
-/

namespace Sys2Proof.Machine

theorem low32_eq_iff {x y : Word64} : low32 x = low32 y ↔ x.toNat % 2 ^ 32 = y.toNat % 2 ^ 32 := by
  rw [← BitVec.toNat_inj]
  simp [low32]

/-- SHA-1 reads the low halves of `H[0..4]`. -/
theorem load5_of_visible {h k : Digest} (e : h.visible .sha1 = k.visible .sha1) : h.load5 = k.load5 := by
  simp [Digest.visible, Digest.words, Algorithm.digestWords, Algorithm.wordBytes] at e
  simp [Digest.load5, low32_eq_iff, e]

/-- SHA-256 reads the low halves of `H[0..7]`. -/
theorem load8_of_visible {h k : Digest} (e : h.visible .sha256 = k.visible .sha256) : h.load8 = k.load8 := by
  simp [Digest.visible, Digest.words, Algorithm.digestWords, Algorithm.wordBytes] at e
  simp [Digest.load8, low32_eq_iff, e]

/-- SHA-512 reads all of H. -/
theorem load64_of_visible {h k : Digest} (e : h.visible .sha512 = k.visible .sha512) : h.load64 = k.load64 := by
  have hm : ∀ x : Word64, x.toNat % 2 ^ 64 = x.toNat := fun x => Nat.mod_eq_of_lt x.isLt
  simp only [Digest.visible, Digest.words, Algorithm.digestWords, Algorithm.wordBytes, List.take_succ_cons, List.take_zero, List.map_cons,
    List.map_nil, Nat.reduceMul, hm, List.cons.injEq, BitVec.toNat_inj] at e
  simp [Digest.load64, e]

/-- MD5 reads the low halves of `H[0..3]`. -/
theorem load4_of_visible {h k : Digest} (e : h.visible .md5 = k.visible .md5) : h.load4 = k.load4 := by
  simp [Digest.visible, Digest.words, Algorithm.digestWords, Algorithm.wordBytes] at e
  simp [Digest.load4, low32_eq_iff, e]

/-- A compression carries agreement on what is read to agreement on what is written. -/
theorem compress_visible {a : Algorithm} {h k : Digest} (chunk : List Byte) (e : h.visible a = k.visible a) :
    (compress a h chunk).visible a = (compress a k chunk).visible a := by
  cases a
  · simp [compress, compressSha1, load5_of_visible e, Digest.visible, Digest.words, Digest.store5, Algorithm.digestWords]
  · simp [compress, compressSha256, load8_of_visible e]
  · simp [compress, compressSha512, load64_of_visible e]
  · simp [compress, compressMd5, load4_of_visible e, Digest.visible, Digest.words, Digest.store4, Algorithm.digestWords]

theorem compressChunks_visible {a : Algorithm} (n : Nat) {h k : Digest} (bytes : List Byte) (e : h.visible a = k.visible a) :
    (compressChunks a n h bytes).visible a = (compressChunks a n k bytes).visible a := by
  induction n generalizing h k bytes with
  | zero => exact e
  | succ n ih => exact ih _ (compress_visible _ e)

theorem toLe_mod (v k : Nat) : toLe (v % 256 ^ k) k = toLe v k := by
  apply List.ext_getElem?
  intro i
  by_cases hi : i < k
  · rw [toLe_getElem? _ _ _ hi, toLe_getElem? _ _ _ hi]
    congr 1
    apply BitVec.eq_of_toNat_eq
    obtain ⟨j, rfl⟩ : ∃ j, k = i + (j + 1) := ⟨k - i - 1, by omega⟩
    rw [BitVec.toNat_ofNat, BitVec.toNat_ofNat, Nat.pow_add, Nat.mod_mul_right_div_self, Nat.pow_succ,
      Nat.mod_mod_of_dvd _ (Dvd.intro_left _ rfl)]
  · rw [List.getElem?_eq_none (by simpa using hi), List.getElem?_eq_none (by simpa using hi)]

theorem wordToBytes_mod (a : Algorithm) (x : Word64) :
    wordToBytes a x =
      (if a.bigEndian then toBe (x.toNat % 2 ^ (8 * a.wordBytes)) a.wordBytes
       else toLe (x.toNat % 2 ^ (8 * a.wordBytes)) a.wordBytes) := by
  have h : (2 : Nat) ^ (8 * a.wordBytes) = 256 ^ a.wordBytes := by rw [Nat.pow_mul]
  simp only [wordToBytes, toBe, h, toLe_mod]

/-- SERIALIZE emits what the descriptor reads of H. -/
theorem serialize_visible {a : Algorithm} {h k : Digest} (e : h.visible a = k.visible a) : serialize a h = serialize a k := by
  have key : ∀ d : Digest, serialize a d = (d.visible a).flatMap (fun v =>
      if a.bigEndian then toBe v a.wordBytes else toLe v a.wordBytes) := by
    intro d
    rw [serialize, Digest.visible, List.flatMap_map, funext (wordToBytes_mod a)]
  rw [key, key, e]

end Sys2Proof.Machine
end

