-- ==== Sys2Proof/Laws/Invariant.lean ====
section
/-!
SUPPORT. Invariant.lean: the invariant of Safety.lean in propositional form, and chunks counted one and two.
-/

namespace Sys2Proof.Machine

theorem inv_iff {s : State} :
    s.inv = true ↔ s.buf.wf = true ∧ (s.cause = .none ↔ s.phase ≠ .faulted) ∧ s.uop = none ∧ s.begunOk = true ∧ s.phaseOk = true := by
  simp only [State.inv, Bool.and_eq_true, bne_iff_ne, ne_eq, Option.isNone_iff_eq_none, decide_eq_decide, and_assoc]
  by_cases h : s.cause = .none <;> by_cases h' : s.phase = .faulted <;> simp [h, h']

theorem begunOk_iff {s : State} :
    s.begunOk = true ↔ (s.begun = true → ∃ word rest, s.cmd = word :: rest ∧ opField word = 0x02#8) := by
  cases hb : s.begun <;> cases hc : s.cmd <;> simp [State.begunOk, hb, hc]

theorem computationOk_iff {s : State} :
    s.computationOk = true ↔ ∃ a, Algorithm.ofTag s.alg = some a ∧ s.buflen.toNat < a.chunkBytes ∧
      s.processed.toNat % a.chunkBytes = 0 ∧ (∀ i, i < s.buflen.toNat → (s.buf.read i).isSome = true) ∧ s.h.fits a = true := by
  simp only [State.computationOk]
  cases Algorithm.ofTag s.alg with
  | none => simp
  | some a => simp [State.accumulatorOk, State.bytesWritten, and_assoc]

/-- Bytes that are one chunk are one compression. -/
theorem compressChunks_of_one {a : Algorithm} (h : Digest) {bytes : List Byte} (hl : bytes.length = a.chunkBytes) :
    compressChunks a (bytes.length / a.chunkBytes) h bytes = compress a h bytes := by
  rw [hl, Nat.div_self (chunkBytes_pos a), compressChunks, compressChunks, List.take_of_length_le (by omega)]

/-- Bytes that are two chunks are two compressions. -/
theorem compressChunks_of_two {a : Algorithm} (h : Digest) {bytes : List Byte} (hl : bytes.length = 2 * a.chunkBytes) :
    compressChunks a (bytes.length / a.chunkBytes) h bytes =
      compress a (compress a h (bytes.take a.chunkBytes)) (bytes.drop a.chunkBytes) := by
  rw [hl, Nat.mul_div_cancel _ (chunkBytes_pos a), compressChunks, compressChunks, compressChunks,
    List.take_of_length_le (l := bytes.drop a.chunkBytes) (by rw [List.length_drop]; omega)]

end Sys2Proof.Machine
end

