-- ==== Sys2Proof/Laws/PerInstr.lean ====
section
/-!
SUPPORT. PerInstr.lean: statements made instruction by instruction, one lemma per constructor of `Instr`.

`EncodedPayload`: the payload length the block reads from a word before it looks at anything else (30_encoding.md R80 step 1, R81) is the one
of the instruction that was encoded; a micro-operation has no command word (R79).
-/

namespace Sys2Proof.Laws.EncodedPayload

/-- The payload bytes that belong to an instruction (R81). -/
def owned : Instr → Nat
  | .create _ => 0
  | .update n => n
  | .digest => 0
  | .compressSha1 => 0
  | .compressSha256 => 0
  | .compressSha512 => 0
  | .compressMd5 => 0
  | .pad => 0
  | .serialize => 0

/-- The word of a well-formed instruction, where it has one, announces exactly the payload bytes that belong to the instruction. -/
def Statement (i : Instr) : Prop :=
  i.wellFormed = true → ∀ (a : Algorithm) (word : CommandWord), encode a i = .cmd word → payloadLength word = owned i

theorem create (tag : BitVec 8) : Statement (.create tag) := by
  intro _ a word h
  simp only [encode, Code.cmd.injEq] at h
  subst h
  revert tag
  decide +kernel

theorem update (n : Nat) : Statement (.update n) := by
  intro hw a word h
  simp only [encode, Code.cmd.injEq] at h
  subst h
  exact Machine.payloadLength_updateWord (by simpa [Instr.wellFormed] using hw)

theorem digest : Statement .digest := by
  intro _ a word h
  simp only [encode, Code.cmd.injEq] at h
  subst h
  decide

theorem compressSha1 : Statement .compressSha1 := by
  intro _ a word h
  simp [encode] at h

theorem compressSha256 : Statement .compressSha256 := by
  intro _ a word h
  simp [encode] at h

theorem compressSha512 : Statement .compressSha512 := by
  intro _ a word h
  simp [encode] at h

theorem compressMd5 : Statement .compressMd5 := by
  intro _ a word h
  simp [encode] at h

theorem pad : Statement .pad := by
  intro _ a word h
  simp [encode] at h

theorem serialize : Statement .serialize := by
  intro _ a word h
  simp [encode] at h

end Sys2Proof.Laws.EncodedPayload
end

