-- ==== Sys2Proof/Tests/Slice0.lean ====
section
/-!
SUPPORT. Slice0.lean: the model's own tests, and a witness for every obligation that has hypotheses.

Every expected value is the spec's: "V<n>" and "P<n>" are entries of spec/95_test_vectors.md, other sources are named at the test. Each test is one
step (or one pure function) on a small state.
-/

namespace Sys2Proof.Tests

set_option Elab.async false

open Sys2Proof.Machine

/-! ### Helpers -/

/-- The next state of an outcome. -/
def nextOf : Result → Option State
  | .next s => some s
  | .fault _ => none
  | .refused _ => none

/-- The model's fault of an outcome. -/
def faultOf : Result → Option Fault
  | .next _ => none
  | .fault e => some e
  | .refused _ => none

/-- The model's refusal of an outcome. -/
def refusalOf : Result → Option Refusal
  | .next _ => none
  | .fault _ => none
  | .refused e => some e

/-- `pat(n)` of 95_test_vectors.md. -/
def pat (n : Nat) : List Byte := (List.range n).map fun i => BitVec.ofNat 8 (7 * i + 1)

/-- ASCII text. -/
def ascii (s : List Char) : List Byte := s.map fun c => BitVec.ofNat 8 c.toNat

/-- A computation under `a` with the digest `h`, `processed` bytes compressed and the bytes `held` in BUF. -/
def active (a : Algorithm) (h : Digest) (processed : Nat) (held : List Byte) : State :=
  { State.reset with
    phase := .active, alg := a.tag, h := h, processed := BitVec.ofNat 64 processed, buflen := BitVec.ofNat 8 held.length
    buf := Memory.writeBytes [] 0 held }

/-- A fresh computation under `a` with the bytes `held` in BUF. -/
def fresh (a : Algorithm) (held : List Byte) : State := active a (initialVector a) 0 held

/-- `words` on `cmd` and `bytes` on `din`. -/
def presented (words : List CommandWord) (bytes : List Byte) (s : State) : State := { s with cmd := words, din := bytes }

/-- The reset state in another phase. -/
def inPhase (p : Phase) : State := { State.reset with phase := p }

/-- The bytes a step emitted, as a length and a big-endian value. -/
def emitted (r : Result) : Option (Nat × Nat) := (nextOf r).map fun t => (t.dout.length, beValue t.dout)

/-- The words of H after a step, as numbers. -/
def digestAfter (r : Result) : Option (List Nat) := (nextOf r).map fun t => t.h.words.map (·.toNat)

/-- PHASE, CAUSE, ALG, the words and the payload bytes left after a step. -/
def statusAfter (r : Result) : Option (Phase × Cause × BitVec 8 × Nat × Nat) :=
  (nextOf r).map fun t => (t.phase, t.cause, t.alg, t.cmd.length, t.din.length)

/-- The SHA1 digest after the first chunk of `pat(n)` (V24). -/
def sha1H1 : List Nat := [0x716c11fc, 0x2d94e56a, 0xa23ae4b5, 0x156568db, 0x49e5de77, 0, 0, 0]

/-- The SHA1 digest after the second chunk (V24). -/
def sha1H2 : List Nat := [0x4782985c, 0x60e235ed, 0x2dfa28c1, 0x1214b266, 0xbfda4c44, 0, 0, 0]

/-- Every word of H all ones under a 32-bit descriptor (V21). -/
def ones32 : Digest := ⟨0xffffffff, 0xffffffff, 0xffffffff, 0xffffffff, 0xffffffff, 0xffffffff, 0xffffffff, 0xffffffff⟩

/-! ### Well-formedness: the ill-formed term the check refuses (R76) -/

theorem test_wellFormed_refuses_long_update : (Instr.update (2 ^ 24)).wellFormed = false := by decide +kernel

theorem test_wellFormed_admits_longest_update : (Instr.update (2 ^ 24 - 1)).wellFormed = true := by decide +kernel

/-! ### Decoding: words written out bit by bit from 30_encoding.md R75, R76, R77, R79 -/

theorem test_decode_create : decode (.cmd 0b00000001000000000000000000000010#32) = .ok (.create 2#8) := by decide +kernel

theorem test_decode_create_reserved : decode (.cmd 0b00000001000000000000000100000010#32) = .error .createReservedBits := by decide +kernel

theorem test_decode_update : decode (.cmd 0b00000010000000010000000000000011#32) = .ok (.update 65539) := by decide +kernel

theorem test_decode_digest : decode (.cmd 0b00000011000000000000000000000000#32) = .ok .digest := by decide +kernel

theorem test_decode_digest_reserved : decode (.cmd 0b00000011100000000000000000000000#32) = .error .digestReservedBits := by decide +kernel

theorem test_decode_unassigned : decode (.cmd 0b11111111000000000000000000000000#32) = .error .unassignedOpcode := by decide +kernel

theorem test_decode_compressSha1 : decode (.uop .compress 0b00000001#8) = .ok .compressSha1 := by decide +kernel

theorem test_decode_compressSha256 : decode (.uop .compress 0b00000010#8) = .ok .compressSha256 := by decide +kernel

theorem test_decode_compressSha512 : decode (.uop .compress 0b00000011#8) = .ok .compressSha512 := by decide +kernel

theorem test_decode_compressMd5 : decode (.uop .compress 0b00000100#8) = .ok .compressMd5 := by decide +kernel

theorem test_decode_pad : decode (.uop .pad 0b00000011#8) = .ok .pad := by decide +kernel

theorem test_decode_serialize : decode (.uop .serialize 0b00000100#8) = .ok .serialize := by decide +kernel

theorem test_table_word_create : decodeTableWord 32 0x01000003 = some (.create 3#8) := by decide +kernel

theorem test_table_word_compress : decodeTableWord 8 0x04 = some .compressMd5 := by decide +kernel

/-! ### CREATE -/

/-- V14: the SHA1 computation is abandoned, nothing emitted. -/
theorem test_create_abandons :
    (nextOf (exec (.create 3#8) (presented [0x01000003#32] [] (fresh .sha1 (ascii ['x', 'y', 'z']))))).map
      (fun t => (t.phase, t.alg, t.h.h7, t.buflen, t.dout)) =
    some (.active, 0x03#8, 0x5be0cd19137e2179#64, 0#8, []) := by decide +kernel

/-- V69e: a bad tag in ACTIVE. -/
theorem test_create_unsupported :
    (nextOf (exec (.create 7#8) (presented [0x01000007#32] [] (fresh .sha1 (pat 3))))).map
      (fun t => (t.phase, t.cause, t.alg, t.h, t.buflen)) =
    some (.faulted, .unsupportedAlgorithm, 0x01#8, initialVector .sha1, 3#8) := by decide +kernel

/-! ### UPDATE -/

/-- V33: fill with 4 bytes, compress, one direct chunk, remainder 2. -/
theorem test_update_straddles :
    (nextOf (exec (.update 70) (presented [0x02000046#32] ((pat 130).drop 60) (fresh .sha1 (pat 60))))).map
      (fun t => (t.h.words.map (·.toNat), t.processed, t.buflen, t.buf.read 0, t.buf.read 1)) =
    some (sha1H2, 128#64, 2#8, some 0x81#8, some 0x88#8) := by decide +kernel

/-- V39: a chunk of 128 bytes, k = 1, r = 1. -/
theorem test_update_sha512 :
    (nextOf (exec (.update 2) (presented [0x02000002#32] ((pat 129).drop 127) (fresh .sha512 (pat 127))))).map
      (fun t => (t.h.h0, t.h.h7, t.processed, t.buflen, t.buf.read 0)) =
    some (0x398f19e0410b0c07#64, 0xc81f2cfcac71c223#64, 128#64, 1#8, some 0x81#8) := by decide +kernel

/-! ### DIGEST -/

/-- V4: the little-endian length field and serialisation of MD5. -/
theorem test_digest_md5 :
    emitted (exec .digest (presented [0x03000000#32] []
      (fresh .md5 (ascii ['h', 'e', 'l', 'l', 'o', ' ', 'w', 'o', 'r', 'l', 'd'])))) =
    some (16, 0x5eb63bbbe01eeed093cb22bb8f5acdc3) := by decide +kernel

/-- V46: 112 unprocessed bytes need two chunks of SHA-512. -/
theorem test_digest_sha512 :
    emitted (exec .digest (presented [0x03000000#32] [] (fresh .sha512 (pat 112)))) =
    some (64, 0xacc96c509e6d01787330a4c6a241e2cda9dcc2529dbe4288dbbcc3812133233c4698831127cf6ed0b333632b22715a5ce53a0a1002a684367b71c98aa6d1d900) := by
  decide +kernel

/-! ### COMPRESS micro-operations: V20 or V21, and V24's first column -/

theorem test_compressSha1_ones :
    digestAfter (exec .compressSha1 ((active .sha1 ones32 0 []).invokeCompress (List.replicate 64 0xff#8))) =
    some [0x3f48159b, 0x2dce51fa, 0x8a1e930a, 0x02083b68, 0xef70d6e8, 0xffffffff, 0xffffffff, 0xffffffff] := by decide +kernel

theorem test_compressSha1_pat : digestAfter (exec .compressSha1 ((fresh .sha1 []).invokeCompress (pat 64))) = some sha1H1 := by
  decide +kernel

theorem test_compressSha256_ones :
    digestAfter (exec .compressSha256 ((active .sha256 ones32 0 []).invokeCompress (List.replicate 64 0xff#8))) =
    some [0x0598127a, 0xaf11706e, 0x77401fff, 0xd730c549, 0x0b84c867, 0xa98c6ca3, 0xd7f3c0f9, 0x06a78b79] := by decide +kernel

theorem test_compressSha256_pat :
    digestAfter (exec .compressSha256 ((fresh .sha256 []).invokeCompress (pat 64))) =
    some [0x176c9615, 0x3a1e47e6, 0x54655949, 0xa2a34fa0, 0x0a62d243, 0x5146ce18, 0x3c51d9d2, 0x850e1a5f] := by decide +kernel

theorem test_compressSha512_zeros :
    digestAfter (exec .compressSha512 ((fresh .sha512 []).invokeCompress (List.replicate 128 0x00#8))) =
    some [0xcf7881d5774acbe8, 0x533362e0fbc78070, 0x0267639d87460eda, 0x3086cb40e85931b0, 0x717dc95288a023a3, 0x96bab2c14ce0b5e0,
      0x6fc4fe04eae33e0b, 0x91f4d80cbd668bee] := by decide +kernel

theorem test_compressSha512_pat :
    digestAfter (exec .compressSha512 ((fresh .sha512 []).invokeCompress (pat 128))) =
    some [0x398f19e0410b0c07, 0xf88a179c5ec08b57, 0x270f31ecb3474db1, 0x0af1072521a04aaa, 0xbd3c7dd88fb55edd, 0x768eba10840ef270,
      0x715d211f22a10c93, 0xc81f2cfcac71c223] := by decide +kernel

theorem test_compressMd5_ones :
    digestAfter (exec .compressMd5 ((active .md5 ones32 0 []).invokeCompress (List.replicate 64 0xff#8))) =
    some [0x6cba9129, 0x29ffd12a, 0x8b9bb7d3, 0xa9a0a3c1, 0xffffffff, 0xffffffff, 0xffffffff, 0xffffffff] := by decide +kernel

theorem test_compressMd5_pat :
    digestAfter (exec .compressMd5 ((fresh .md5 []).invokeCompress (pat 64))) =
    some [0x056d8827, 0x6444f2da, 0x3f15f051, 0x8d6a410b, 0, 0, 0, 0] := by decide +kernel

/-! ### PAD -/

/-- V41a: z = 0, the terminator is followed at once by the length field. -/
theorem test_pad_one_chunk :
    (nextOf (exec .pad ((fresh .sha1 []).invokePad (pat 55) 440#64))).map (fun t => (t.pad.length, t.pad.drop 54)) =
    some (64, [0x7b#8, 0x80#8, 0#8, 0#8, 0#8, 0#8, 0#8, 0#8, 0x01#8, 0xb8#8]) := by decide +kernel

/-- V45b: two chunks, a little-endian length field. -/
theorem test_pad_two_chunks_md5 :
    (nextOf (exec .pad ((fresh .md5 []).invokePad (pat 56) 448#64))).map (fun t => (t.pad.length, t.pad.drop 118)) =
    some (128, [0#8, 0#8, 0xc0#8, 0x01#8, 0#8, 0#8, 0#8, 0#8, 0#8, 0#8]) := by decide +kernel

/-! ### SERIALIZE -/

/-- V51: leading zero bytes are emitted. -/
theorem test_serialize_sha256 :
    (nextOf (exec .serialize
      (active .sha256 ⟨0x00000000, 0x00000001, 0x00000100, 0x00010000, 0x01000000, 0x80000000, 0xffffffff, 0x0a0b0c0d⟩ 0
        []).invokeSerialize)).map (fun t => (t.ser.length, beValue t.ser)) =
    some (32, 0x00000000000000010000010000010000010000008000_0000ffffffff0a0b0c0d) := by decide +kernel

/-- V54: each word least significant byte first. -/
theorem test_serialize_md5 :
    (nextOf (exec .serialize
      (active .md5 ⟨0x00000001, 0x01020304, 0x80000000, 0xffffff00, 0, 0, 0, 0⟩ 0 []).invokeSerialize)).map (·.ser) =
    some [1#8, 0#8, 0#8, 0#8, 4#8, 3#8, 2#8, 1#8, 0#8, 0#8, 0#8, 0x80#8, 0#8, 0xff#8, 0xff#8, 0xff#8] := by decide +kernel

/-! ### Faults and their priority -/

/-- V64: legality is checked before the tag. -/
theorem test_fault_priority_legality :
    statusAfter (step (presented [0x01000109#32] [] State.reset)) = some (.faulted, .illegalCommand, 0#8, 0, 0) := by decide +kernel

/-- V65: an illegal DIGEST word in IDLE is IllegalCommand. -/
theorem test_fault_priority_digest :
    statusAfter (step (presented [0x03000001#32] [] State.reset)) = some (.faulted, .illegalCommand, 0#8, 0, 0) := by decide +kernel

/-- V68: the payload of a faulting UPDATE is consumed. -/
theorem test_fault_consumes_payload :
    statusAfter (step (presented [0x02000003#32] (pat 3) State.reset)) = some (.faulted, .notCreated, 0#8, 0, 0) := by decide +kernel

/-- V69j: in FAULTED a word is ignored, its payload consumed, CAUSE kept. -/
theorem test_faulted_ignores :
    statusAfter (step (presented [0x02000002#32] (pat 5) { inPhase .faulted with cause := .useAfterDigest })) =
    some (.faulted, .useAfterDigest, 0#8, 0, 3) := by decide +kernel

/-- V69k: reset from FAULTED. -/
theorem test_reset_event :
    statusAfter (step { inPhase .faulted with cause := .useAfterDigest, alg := 4#8, rst := true }) =
    some (.idle, .none, 0#8, 0, 0) := by decide +kernel

/-- R190, U13: a reset requested beside an UPDATE that has waited is refused, although its last byte has arrived (log 23). -/
theorem test_reset_after_wait_is_refused :
    (nextOf (step (presented [0x02000002#32] (pat 1) (fresh .sha1 [])))).map
      (fun t => (t.begun, refusalOf (step (t.presentPayload (pat 1)).requestReset))) =
    some (true, some .resetMidCommand) := by decide +kernel

/-- R190: a reset requested beside an UPDATE on which no step has run is taken, the word and its payload untouched (log 2, log 23). -/
theorem test_reset_before_update_begins :
    statusAfter (step (presented [0x02000002#32] (pat 1) (fresh .sha1 [])).requestReset) = some (.idle, .none, 0#8, 1, 1) := by decide +kernel

/-- R71, D24: the UPDATE that has waited takes its payload and is over. -/
theorem test_update_completes_after_wait :
    (nextOf (step (awaitPayload (presented [0x02000002#32] (pat 2) (fresh .sha1 []))))).map
      (fun t => (t.begun, t.buflen, t.buf.read 1, t.cmd, t.din)) = some (false, 2#8, some 0x08#8, [], []) := by decide +kernel

/-! ### The assembler: the lines of P1, P5, P7's PUSH form and a comment -/

theorem test_read_program :
    readProgram
      ["CREATE SHA1 ; one".toList, "UPDATE \"Kevin\"".toList, "; nothing".toList, "DIGEST".toList, "CREATE #5".toList,
        "UPDATE x\"68 65 6C\"".toList, "PUSH 0x81".toList, ".word 0xff000000".toList, "HASH MD5, \"a\"".toList] =
    some [.create .sha1, .update (ascii ['K', 'e', 'v', 'i', 'n']), .digest, .createTag 5#8, .update [0x68#8, 0x65#8, 0x6c#8],
      .push 0x81#8, .word 0xff000000#32, .hash .md5 [0x61#8]] := by decide +kernel

/-- P1: the words and bytes of `HASH SHA1, "Kevin"`. -/
theorem test_hash_expands :
    (AsmLine.hash .sha1 (ascii ['K', 'e', 'v', 'i', 'n'])).words = [0x01000001#32, 0x02000005#32, 0x03000000#32] := by decide +kernel

/-! ### Witnesses: for every obligation with hypotheses, a concrete case that meets all of them -/

theorem witness_DecodeOfEncodeIsIdentity : (Instr.update 16777215).wellFormed = true ∧ (Instr.create 0xff#8).wellFormed = true := by
  decide +kernel

theorem witness_EncodeOfDecodedWordIsTheWord :
    decode (.cmd 0x0200003c#32) = .ok (.update 60) ∧ decode (.cmd 0x010000ff#32) = .ok (.create 0xff#8) := by decide +kernel

/-- A state with one legal word presented, and one with none. -/
theorem witness_StepRunsTheDecodedCommand :
    let s := presented [0x01000001#32] [] State.reset
    s.rst = false ∧ s.uop = none ∧ s.cmd = [0x01000001#32] ∧ decode (.cmd 0x01000001#32) = .ok (.create 1#8) ∧
      State.reset.rst = false ∧ State.reset.uop = none ∧ State.reset.cmd = [] := by decide +kernel

theorem witness_StepRunsTheInvokedMicroOperation :
    let s := (fresh .md5 []).invokePad (pat 56) 448#64
    s.rst = false ∧ s.uop = some (.pad (pat 56) 448#64) ∧ s.alg = Algorithm.md5.tag := by decide +kernel

theorem witness_PlacedTableWordRunsNext :
    decodeTableWord 32 0x02000002 = some (.update 2) ∧ decodeTableWord 8 0x03 = some .compressSha512 := by decide +kernel

/-- One illegal word for each of the three conditions, and a state in and outside FAULTED that holds it. -/
theorem witness_IllegalWordRaisesIllegalCommand :
    decode (.cmd 0x04000000#32) = .error .unassignedOpcode ∧ decode (.cmd 0x01000100#32) = .error .createReservedBits ∧
    decode (.cmd 0x03000001#32) = .error .digestReservedBits ∧
    (∀ p ∈ [Phase.idle, .active, .done, .faulted],
      let s := presented [0x04000000#32] [] (inPhase p)
      s.rst = false ∧ s.uop = none ∧ s.cmd = [0x04000000#32] ∧ s.phase = p) := by decide +kernel

/-- The premises of the transition table, for a word presented in a phase: the step answers a next state. -/
def tableRow (p : Phase) (w : CommandWord) : Bool :=
  let s := presented [w] (pat 2) { fresh .sha1 (pat 3) with phase := p }
  !s.rst && s.uop.isNone && decide (s.cmd = [w]) && decide (payloadLength w ≤ s.din.length) && decide (s.phase = p) &&
    (nextOf (step s)).isSome

/-- Every phase, with a word of each kind. -/
theorem witness_PhaseFollowsTransitionTable :
    [Phase.idle, .active, .done, .faulted].all (fun p =>
      [0x01000001#32, 0x01000005#32, 0x02000002#32, 0x03000000#32, 0x04000000#32].all (tableRow p)) = true := by
  decide +kernel

/-- The words for which each check of R174 decides, in the phases in which it does. -/
theorem witness_FaultsFollowFixedPriority :
    [(Phase.faulted, 0x02000002#32), (.idle, 0x01000109#32), (.idle, 0x03000001#32), (.idle, 0x02000002#32), (.done, 0x03000000#32),
      (.active, 0x01000007#32)].all (fun c => tableRow c.1 c.2) = true := by decide +kernel

/-- A step that writes each piece of state: CREATE, UPDATE, DIGEST, a fault, an invoked COMPRESS. -/
theorem witness_ControlStateHasFixedWriters :
    [(Phase.done, 0x01000004#32), (.active, 0x02000002#32), (.active, 0x03000000#32), (.idle, 0x04000000#32)].all
      (fun c => tableRow c.1 c.2) = true ∧
    (nextOf (step ((fresh .md5 []).invokeCompress (pat 64)))).isSome = true := by decide +kernel

theorem witness_PhaseFollowsTransitionTable_words :
    decode (.cmd 0x01000001#32) = .ok (.create Algorithm.sha1.tag) ∧ decode (.cmd 0x01000005#32) = .ok (.create 5#8) ∧
    Algorithm.ofTag 5#8 = none ∧ decode (.cmd 0x02000002#32) = .ok (.update 2) ∧ decode (.cmd 0x03000000#32) = .ok .digest ∧
    decode (.cmd 0x04000000#32) = .error .unassignedOpcode := by decide +kernel

/-- A request beside no word, one beside an UPDATE on which no step has run, one while an UPDATE waits, one while a micro-operation is
invoked. -/
theorem witness_RequestedResetRestoresIdle :
    let free := (fresh .sha1 (pat 3)).requestReset
    let notBegun := (presented [0x02000002#32] (pat 1) (fresh .sha1 [])).requestReset
    let waiting := (awaitPayload (presented [0x02000002#32] (pat 1) (fresh .sha1 []))).requestReset
    let invoked := (fresh .sha1 []).invokeSerialize.requestReset
    free.rst = true ∧ free.uop = none ∧ free.begun = false ∧ notBegun.rst = true ∧ notBegun.uop = none ∧ notBegun.begun = false ∧
      waiting.rst = true ∧ waiting.begun = true ∧ invoked.rst = true ∧ invoked.uop ≠ none := by decide +kernel

/-- The payload arrives in part, in full, and an instruction that is no UPDATE answers. -/
theorem witness_UpdateIsInProgressUntilItsPayloadArrives :
    let s := presented [updateWord 2] (pat 1) (fresh .sha1 [])
    s.rst = false ∧ s.uop = none ∧ 2 < 2 ^ 24 ∧ s.cmd = updateWord 2 :: [] ∧ s.din.length < 2 ∧ 2 ≤ s.din.length + (pat 1).length ∧
      (nextOf (exec (.update 2) s)).isSome = true ∧ (nextOf (exec (.update 1) s)).isSome = true ∧
      (nextOf (exec .digest s)).isSome = true := by decide +kernel

/-- The payload exactly presented, and a word without payload. -/
theorem witness_FaultedBlockIgnoresEveryWord :
    (let s := presented [0x02000002#32] (pat 2) (inPhase .faulted)
     s.phase = .faulted ∧ s.rst = false ∧ s.uop = none ∧ s.cmd = [0x02000002#32] ∧
      2 = (if (0x02000002#32).extractLsb' 24 8 = 0x02#8 then ((0x02000002#32).extractLsb' 0 24).toNat else 0) ∧
      2 ≤ s.din.length ∧ (nextOf (step s)).isSome = true) ∧
    (0 = (if (0x03000000#32).extractLsb' 24 8 = 0x02#8 then ((0x03000000#32).extractLsb' 0 24).toNat else 0)) := by decide +kernel

theorem witness_UpdateAndDigestFaultOutsideActive :
    let idle := presented [] (pat 3) (inPhase .idle)
    let done := presented [] (pat 3) (inPhase .done)
    3 ≤ idle.din.length ∧ 0 ≤ idle.din.length ∧ idle.phase = .idle ∧ 3 ≤ done.din.length ∧ done.phase = .done ∧
      (nextOf (exec (.create 1#8) idle)).isSome = true ∧ (nextOf (exec (.create 5#8) done)).isSome = true := by decide +kernel

/-- One case for each clause: no invocation, another unit's, a chunk a byte short, ALG 0x00 under each invocation and in ACTIVE, BUFLEN just
beyond C, the one held byte unwritten. -/
theorem witness_OutsideTheSpecifiedDomainTheModelStops :
    State.reset.uop = none ∧
    (let s := (fresh .sha1 []).invokeSerialize
     s.uop = some .serialize ∧ Uop.serialize.kind ≠ .compress ∧ Uop.serialize.kind ≠ .pad) ∧
    (let s := State.reset.invokePad (pat 3) 24#64
     s.uop = some (.pad (pat 3) 24#64) ∧ Algorithm.ofTag s.alg = none ∧ s.rst = false ∧ Uop.kind (.pad (pat 3) 24#64) ≠ .serialize) ∧
    (let s := State.reset.invokeSerialize
     s.uop = some .serialize ∧ Algorithm.ofTag s.alg = none ∧ s.rst = false) ∧
    (let s := (fresh .sha1 []).invokeCompress (pat 63)
     s.uop = some (.compress (pat 63)) ∧ (pat 63).length ≠ Algorithm.sha1.chunkBytes) ∧
    (let s := inPhase .active
     s.phase = .active ∧ Algorithm.ofTag s.alg = none ∧ 0 ≤ s.din.length) ∧
    (let s := { fresh .md5 [] with buflen := 65#8 }
     s.phase = .active ∧ s.alg = Algorithm.md5.tag ∧ 0 ≤ s.din.length ∧ Algorithm.md5.chunkBytes < s.buflen.toNat) ∧
    (let s := presented [] (pat 63) { fresh .sha1 [] with buflen := 1#8 }
     s.phase = .active ∧ s.alg = Algorithm.sha1.tag ∧ 63 ≤ s.din.length ∧ s.buflen.toNat ≤ Algorithm.sha1.chunkBytes ∧
        Algorithm.sha1.chunkBytes ≤ s.buflen.toNat + 63 ∧ 0 < s.buflen.toNat ∧ s.buf.read 0 = none) := by decide +kernel

/-- A meaning ends in each of the five faults. -/
theorem witness_EveryStopLiesOutsideTheSpecifiedDomain :
    faultOf (exec .pad State.reset) = some .noInvocation ∧
    faultOf (exec .compressSha1 ((fresh .sha1 []).invokeCompress (pat 63))) = some .chunkLength ∧
    faultOf (exec .digest (inPhase .active)) = some .noAlgorithm ∧
    faultOf (exec .digest { fresh .md5 [] with buflen := 65#8 }) = some .bufferRange ∧
    faultOf (exec (.update 63) (presented [] (pat 63) { fresh .sha1 [] with buflen := 1#8 })) = some .unwrittenByte := by decide +kernel

/-- The tags next to the recognised ones. -/
theorem witness_CreateBeginsComputation :
    State.reset.phase ≠ .faulted ∧ (∀ a ∈ [Algorithm.sha1, .sha256, .sha512, .md5], 0x00#8 ≠ a.tag ∧ 0x05#8 ≠ a.tag) ∧
    (inPhase .faulted).phase = .faulted := by decide +kernel

theorem witness_CreateLoadsPrintedInitialVectors :
    State.reset.phase ≠ .faulted ∧ (inPhase .done).phase ≠ .faulted ∧ (inPhase .active).phase ≠ .faulted := by decide +kernel

/-- One byte of the payload is missing. -/
theorem witness_UpdateWaitsForItsPayload :
    let s := presented [updateWord 3] (pat 2) (fresh .sha1 [])
    s.din.length < 3 ∧ s.rst = false ∧ s.uop = none ∧ 3 < 2 ^ 24 ∧ s.cmd = updateWord 3 :: [] := by decide +kernel

/-- V31: `BUFLEN + n = C - 1`. -/
theorem witness_UpdateBuffersAShortPayload :
    let s := presented [0x02000003#32] ((pat 63).drop 60) (fresh .sha1 (pat 60))
    s.phase = .active ∧ s.alg = Algorithm.sha1.tag ∧ 3 ≤ s.din.length ∧ s.buflen.toNat + 3 < Algorithm.sha1.chunkBytes := by decide +kernel

/-- V32: `BUFLEN + n = C`. -/
theorem witness_UpdateCompressesEveryCompletedChunk :
    let s := presented [0x02000001#32] ((pat 64).drop 63) (fresh .sha1 (pat 63))
    s.phase = .active ∧ s.alg = Algorithm.sha1.tag ∧ 1 ≤ s.din.length ∧ s.buflen.toNat < Algorithm.sha1.chunkBytes ∧
      s.buf.readBytes 0 s.buflen.toNat = .ok (pat 63) ∧ Algorithm.sha1.chunkBytes ≤ s.buflen.toNat + 1 := by decide +kernel

theorem witness_ZeroLengthUpdateChangesNothing :
    let s := fresh .sha512 (pat 127)
    s.phase = .active ∧ s.alg = Algorithm.sha512.tag ∧ s.buflen.toNat < Algorithm.sha512.chunkBytes ∧
      (inPhase .idle).phase = .idle ∧ (inPhase .done).phase = .done := by decide +kernel

theorem witness_ChunkBoundariesDoNotMatter :
    let s := fresh .sha1 (pat 63)
    s.phase = .active ∧ s.alg = Algorithm.sha1.tag ∧ s.rst = false ∧ s.uop = none ∧
      s.buflen.toNat < Algorithm.sha1.chunkBytes ∧ s.bytesWritten = true ∧ (pat 1 ++ pat 2).length < 2 ^ 24 := by decide +kernel

theorem witness_CompressSha1RunsEightyRounds :
    ((fresh .sha1 []).invokeCompress (pat 64)).uop = some (.compress (pat 64)) ∧ (pat 64).length = 64 := by decide +kernel

theorem witness_CompressSha256RunsSixtyFourRounds :
    ((fresh .sha256 []).invokeCompress (pat 64)).uop = some (.compress (pat 64)) ∧ (pat 64).length = 64 := by decide +kernel

theorem witness_CompressSha512RunsEightyRounds :
    ((fresh .sha512 []).invokeCompress (pat 128)).uop = some (.compress (pat 128)) ∧ (pat 128).length = 128 := by decide +kernel

theorem witness_CompressMd5RunsSixtyFourSteps :
    ((fresh .md5 []).invokeCompress (pat 64)).uop = some (.compress (pat 64)) ∧ (pat 64).length = 64 := by decide +kernel

theorem witness_CompressionDependsOnDigestAndChunkOnly :
    let s := (fresh .sha1 []).invokeCompress (pat 64)
    let t := (active .md5 { initialVector .sha1 with h0 := 0x0000000567452301#64, h7 := 9#64 } 64 (pat 3)).invokeCompress (pat 64)
    s.uop = some (.compress (pat 64)) ∧ t.uop = some (.compress (pat 64)) ∧
      (pat 64).length = Algorithm.sha1.chunkBytes ∧ s.h.visible .sha1 = t.h.visible .sha1 := by decide +kernel

/-- The ends of the ranges. -/
theorem witness_Md5MessageOrderIsAPermutation : 63 < 64 ∧ 3 < 4 ∧ 15 < 16 := by decide +kernel

/-- The longest unprocessed bytes, and none. -/
theorem witness_PadBuildsThePaddedTail :
    let s := (fresh .sha512 []).invokePad (pat 127) 1016#64
    let t := (fresh .md5 []).invokePad [] 0#64
    s.uop = some (.pad (pat 127) 1016#64) ∧ s.alg = Algorithm.sha512.tag ∧ (pat 127).length < Algorithm.sha512.chunkBytes ∧
      t.uop = some (.pad [] 0#64) ∧ t.alg = Algorithm.md5.tag := by decide +kernel

/-- 55 bytes fit one chunk of SHA-1 with the padding, 56 need two. -/
theorem witness_PaddedTailIsOneOrTwoChunks :
    (pat 55).length < Algorithm.sha1.chunkBytes ∧ (pat 55).length + Algorithm.sha1.lengthBytes + 1 ≤ Algorithm.sha1.chunkBytes ∧
    (pat 56).length < Algorithm.sha1.chunkBytes ∧ Algorithm.sha1.chunkBytes ≤ (pat 56).length + Algorithm.sha1.lengthBytes := by decide +kernel

theorem witness_LengthFieldBytesByDescriptor : 7 < 8 := by decide +kernel

theorem witness_SerializeEmitsWordsInOrder :
    let s := (fresh .md5 []).invokeSerialize
    s.uop = some .serialize ∧ s.alg = Algorithm.md5.tag ∧ 15 < Algorithm.md5.digestBytes := by decide +kernel

/-- One chunk (55 bytes) and two (56 bytes). -/
theorem witness_DigestPadsCompressesAndEmits :
    ∀ n ∈ [55, 56],
      let s := fresh .sha1 (pat n)
      s.phase = .active ∧ s.alg = Algorithm.sha1.tag ∧ s.buflen.toNat < Algorithm.sha1.chunkBytes ∧
        s.buf.readBytes 0 s.buflen.toNat = .ok (pat n) := by decide +kernel

theorem witness_DigestRefinesItsMicroOperations :
    let s := fresh .sha512 (pat 112)
    s.phase = .active ∧ s.alg = Algorithm.sha512.tag ∧ s.buflen.toNat < Algorithm.sha512.chunkBytes ∧
      s.buf.readBytes 0 s.buflen.toNat = .ok (pat 112) := by decide +kernel

theorem witness_OnlyDigestEmits :
    (nextOf (step (presented [0x03000000#32] [] (fresh .md5 (pat 3))))).isSome = true ∧ (nextOf (step State.reset)).isSome = true := by
  decide +kernel

/-- A message of no byte, one of part of a chunk, and one longer than a chunk. -/
theorem witness_DigestOfAbsorbedMessage :
    Absorbed .sha1 [] (fresh .sha1 []) ∧ Absorbed .sha1 (pat 60) (fresh .sha1 (pat 60)) ∧
      Absorbed .sha1 (pat 70) (active .sha1 (compress .sha1 (initialVector .sha1) (pat 64)) 64 ((pat 70).drop 64)) :=
  ⟨⟨rfl, rfl, by decide +kernel, by decide +kernel, by decide +kernel, by decide +kernel⟩,
   ⟨rfl, rfl, by decide +kernel, by decide +kernel, by decide +kernel, by decide +kernel⟩,
   ⟨rfl, rfl, by decide +kernel, by decide +kernel, by decide +kernel, by decide +kernel⟩⟩

theorem witness_UpdateAbsorbsItsPayload :
    State.reset.phase ≠ .faulted ∧ Absorbed .sha1 [] (presented [] (pat 2) (fresh .sha1 [])) ∧
      2 ≤ (presented [] (pat 2) (fresh .sha1 [])).din.length :=
  ⟨by decide +kernel, ⟨rfl, rfl, by decide +kernel, by decide +kernel, by decide +kernel, by decide +kernel⟩, by decide +kernel⟩

/-- P2: two payloads. -/
theorem witness_SessionEmitsDigestOfConcatenation :
    let parts := [pat 6, pat 5]
    let s := presented (createWord Algorithm.sha256.tag :: (parts.map (fun p => updateWord p.length) ++ digestWord :: []))
      (parts.flatten ++ []) State.reset
    s.phase ≠ .faulted ∧ s.rst = false ∧ s.uop = none ∧ (∀ p ∈ parts, p.length < 2 ^ 24) ∧
      s.cmd = createWord Algorithm.sha256.tag :: (parts.map (fun p => updateWord p.length) ++ digestWord :: []) ∧
      s.din = parts.flatten ++ [] := by decide +kernel

/-- A state of the invariant with a reset requested between commands, and one without a request. -/
theorem witness_InvariantStatesNeverStop :
    State.reset.requestReset.inv = true ∧ State.reset.requestReset.rst = true ∧ midCommand State.reset.requestReset = false ∧
    (fresh .sha1 (pat 60)).inv = true ∧ (fresh .sha1 (pat 60)).rst = false := by decide +kernel

/-- States of the invariant in every phase, with a word to run and without, and one in which an UPDATE is in progress; the step answers. -/
theorem witness_StepKeepsTheInvariant :
    (∀ s ∈ [presented [0x02000046#32] ((pat 130).drop 60) (fresh .sha1 (pat 60)),
        { fresh .sha1 (pat 60) with phase := .done, cmd := [0x03000000#32] },
        { inPhase .faulted with cause := .notCreated }, State.reset, State.reset.requestReset],
      s.inv = true ∧ (nextOf (step s)).isSome = true ∧ midCommand s = false) ∧
    (let s := awaitPayload (presented [0x02000002#32] (pat 1) (fresh .sha1 []))
     s.inv = true ∧ s.begun = true ∧ (nextOf (step s)).isSome = true) := by decide +kernel

theorem witness_TablesHaveTheirClosedForms :
    (Nat.Prime 2 ∧ Nat.count Nat.Prime 2 = 0) ∧ (Nat.Prime 19 ∧ Nat.count Nat.Prime 19 = 7) ∧
    (Nat.Prime 311 ∧ Nat.count Nat.Prime 311 = 63) ∧ (Nat.Prime 409 ∧ Nat.count Nat.Prime 409 = 79) := by
  decide +kernel

/-- A run of three words with all of its payload, in FAULTED and in ACTIVE. -/
theorem witness_EveryRunEndsWellOrBadly :
    ∀ p ∈ [{ inPhase .faulted with cause := .notCreated }, fresh .sha1 (pat 63)],
      let s := presented [0x02000002#32, 0x02000001#32, 0x03000000#32] (pat 3) p
      s.inv = true ∧ s.rst = false ∧ (s.cmd.map payloadLength).sum ≤ s.din.length := by decide +kernel

theorem witness_StepKeepsBufferCanonical :
    (fresh .sha1 (pat 60)).buf.wf = true ∧ (nextOf (step (fresh .sha1 (pat 60)))).isSome = true := by decide +kernel

/-- In ACTIVE: a stale byte, an upper half of a digest word and a transient differ; outside ACTIVE the whole computation does. -/
theorem witness_HiddenStateNeverInfluences :
    Indistinguishable (fresh .sha1 [])
      { fresh .sha1 [] with buf := [(3, 0xff#8)], h := { initialVector .sha1 with h0 := 0x0000000167452301#64, h7 := 9#64 }, pad := [1#8] } ∧
    Indistinguishable (inPhase .done) { inPhase .done with h := initialVector .md5, processed := 64#64, alg := 4#8 } ∧
    (fresh .sha1 []).uop = none ∧ (nextOf (step (fresh .sha1 []))).isSome = true := by
  refine ⟨⟨rfl, rfl, rfl, rfl, rfl, rfl, rfl, rfl, fun _ => rfl, fun _ => rfl, fun _ => rfl, fun _ i hi => ?_, fun _ a ha => ?_⟩,
    ⟨rfl, rfl, rfl, rfl, rfl, rfl, rfl, rfl, fun h => ?_, fun h => ?_, fun h => ?_, fun h => ?_, fun h => ?_⟩, rfl, rfl⟩
  · exact absurd hi (Nat.not_lt_zero i)
  · revert ha
    cases a <;> decide +kernel
  all_goals exact absurd h (by decide +kernel)

/-- Up to the end of BUF, and one byte beyond. -/
theorem witness_MemWriteThenMemRead :
    128 ≤ 128 ∧ 126 + (pat 2).length ≤ 128 ∧ 128 < 127 + (pat 2).length ∧ Memory.wf [(127, 1#8)] = true := by decide +kernel

theorem witness_ByteOrderFunctionsAreInverse : 2 ^ 64 - 1 < 256 ^ 8 ∧ 0 < 256 ^ 0 := by decide +kernel

theorem witness_RotatesAndShiftsByDefinition : 63 < 64 ∧ 0 < 63 ∧ 0 < 1 := by decide +kernel

end Sys2Proof.Tests
end

/-! ## Proofs of the statements about 00_scope.md: the byte order (R15) and the bit operations (R14) -/

namespace Sys2Proof.Proofs.Scope

open Sys2Proof Sys2Proof.Machine

/-! ### Byte order (R15) -/

/-- A little-endian value splits at any byte boundary: the later bytes weigh `256` to the number of the earlier ones. -/
theorem leValue_append (b c : List Byte) : leValue (b ++ c) = leValue b + 256 ^ b.length * leValue c := by
  induction b with
  | nil => simp [leValue]
  | cons x b ih =>
    simp only [List.cons_append, List.length_cons, leValue, ih]
    ring

/-- The first byte of a big-endian sequence is the last of its little-endian reading, so it carries the highest weight. -/
theorem beValue_cons (x : Byte) (b : List Byte) : beValue (x :: b) = x.toNat * 256 ^ b.length + beValue b := by
  simp only [beValue, List.reverse_cons, leValue_append, List.length_reverse, leValue]
  ring

theorem leValue_toLe {v k : Nat} (h : v < 256 ^ k) : leValue (toLe v k) = v := by
  rw [leValue_toLe_mod, Nat.mod_eq_of_lt h]

theorem beValue_toBe {v k : Nat} (h : v < 256 ^ k) : beValue (toBe v k) = v := by
  rw [beValue, toBe, List.reverse_reverse, leValue_toLe h]

theorem toBe_beValue (b : List Byte) : toBe (beValue b) b.length = b := by
  have h := toLe_leValue b.reverse
  rw [List.length_reverse] at h
  rw [toBe, beValue, h, List.reverse_reverse]

/-- Settles O49: the inverses for `le` are inductions on the bytes, those for `be` follow by reversal. -/
theorem byteOrderFunctionsAreInverse : Obligations.ByteOrderFunctionsAreInverse := by
  unfold Obligations.ByteOrderFunctionsAreInverse
  refine ⟨fun v k h => ?values, fun b => ?bytes, fun x b => ?weights⟩
  case values => exact ⟨beValue_toBe h, toBe_length v k, leValue_toLe h, toLe_length v k⟩
  case bytes => exact ⟨toBe_beValue b, toLe_leValue b⟩
  case weights => exact ⟨beValue_cons x b, by rw [leValue, Nat.mul_comm]⟩

/-! ### Shift and rotates (R14) -/

theorem shr_toNat {w : Nat} (n : Nat) (x : BitVec w) : (shr n x).toNat = x.toNat / 2 ^ n := by
  rw [shr, BitVec.toNat_ushiftRight, Nat.shiftRight_eq_div_pow]

theorem rotl_toNat {w : Nat} (n : Nat) (x : BitVec w) :
    (rotl n x).toNat = (x.toNat * 2 ^ n % 2 ^ w) ||| (x.toNat / 2 ^ (w - n)) := by
  rw [rotl, BitVec.toNat_or, BitVec.toNat_shiftLeft, BitVec.toNat_ushiftRight, Nat.shiftLeft_eq,
    Nat.shiftRight_eq_div_pow]

/-- A rotate by 0 shifts the other half out by the whole width. -/
theorem rotl_zero {w : Nat} (x : BitVec w) : rotl 0 x = x := by
  have hright : x >>> (w - 0) = 0#w := BitVec.ushiftRight_eq_zero (Nat.le_refl w)
  rw [rotl, hright, BitVec.shiftLeft_zero, BitVec.or_zero]

/-- Settles O50: each operation read through `toNat`, AND, OR and XOR bit by bit. -/
theorem rotatesAndShiftsByDefinition : Obligations.RotatesAndShiftsByDefinition := by
  unfold Obligations.RotatesAndShiftsByDefinition
  refine ⟨fun w i x y => ?bitwise, fun w n x _ => ?arithmetic⟩
  case bitwise => exact ⟨BitVec.getLsbD_and, BitVec.getLsbD_or, BitVec.getLsbD_xor⟩
  case arithmetic => exact ⟨shr_toNat n x, BitVec.toNat_not, rotl_toNat n x, fun _ => rfl, rotl_zero x⟩

end Sys2Proof.Proofs.Scope

/-! ## Proofs of the statements about 10_state.md: the transition table (R25) and the status outputs (R37) -/

namespace Sys2Proof.Proofs.StateRules

open Sys2Proof Sys2Proof.Machine

/-! ### The word at the head of `cmd` (R80) -/

theorem step_of_legal_word {s : State} {word : CommandWord} {rest : List CommandWord} {i : Instr} (hrst : s.rst = false)
    (huop : s.uop = none) (hcmd : s.cmd = word :: rest) (hdec : decode (.cmd word) = .ok i) : step s = exec i s := by
  simp [step, hrst, huop, hcmd, hdec]

theorem step_of_illegal_word {s : State} {word : CommandWord} {rest : List CommandWord} {e : DecodeError}
    (hrst : s.rst = false) (huop : s.uop = none) (hcmd : s.cmd = word :: rest) (hdec : decode (.cmd word) = .error e) :
    step s = .next (illegalWord s) := by
  simp [step, hrst, huop, hcmd, hdec]

/-- The payload a word owns (R80 step 1) is the operand of the UPDATE it decodes to. -/
theorem payloadLength_of_decode_update {word : CommandWord} {n : Nat} (hdec : decode (.cmd word) = .ok (.update n)) :
    payloadLength word = n := by
  obtain ⟨-, -, hi⟩ | ⟨hop, hi⟩ | ⟨-, -, hi⟩ := decodeCommand_ok.1 hdec
  · cases hi
  · cases hi
    exact if_pos hop
  · cases hi

/-! ### PHASE and CAUSE after a command (R25) -/

theorem updateBody_phase_cause {data : List Byte} {s t : State} (h : updateBody data s = .ok t) :
    t.phase = s.phase ∧ t.cause = s.cause := by
  obtain ⟨a, -, ⟨-, rfl⟩ | ⟨-, -, held, -, rfl⟩⟩ := updateBody_ok.1 h
  · exact ⟨rfl, rfl⟩
  · exact ⟨rfl, rfl⟩

theorem digestBody_phase_cause {s t : State} (h : digestBody s = .ok t) : t.phase = .done ∧ t.cause = s.cause := by
  obtain ⟨a, held, -, -, -, rfl⟩ := digestBody_ok.1 h
  exact ⟨rfl, rfl⟩

/-- The row of a command that only ACTIVE accepts (UPDATE, DIGEST), which takes ACTIVE to `p`: PHASE and CAUSE of `t` after it, by the
phase of `s` before it. -/
structure ActiveOnlyRow (p : Phase) (s t : State) : Prop where
  faulted : s.phase = .faulted → t.phase = .faulted ∧ t.cause = s.cause
  idle : s.phase = .idle → t.phase = .faulted ∧ t.cause = .notCreated
  active : s.phase = .active → t.phase = p ∧ t.cause = s.cause
  done : s.phase = .done → t.phase = .faulted ∧ t.cause = .useAfterDigest

/-- The phase check (R172, R173) gives the row, once the command's body is known in ACTIVE. -/
theorem inActivePhase_row {p : Phase} {body : State → Except Fault State} {s t : State}
    (hbody : s.phase = .active → body s = .ok t → t.phase = p ∧ t.cause = s.cause) (h : inActivePhase body s = .ok t) :
    ActiveOnlyRow p s t := by
  obtain ⟨hp, rfl⟩ | ⟨hp, rfl⟩ | ⟨hp, rfl⟩ | ⟨hp, hok⟩ := inActivePhase_ok.1 h
  · constructor <;> simp [hp]
  · constructor <;> simp [hp]
  · constructor <;> simp [hp]
  · have hrow := hbody hp hok
    constructor <;> simp [hp, hrow]

/-- UPDATE with its payload presented: what it consumes first leaves PHASE and CAUSE, so the row is that of its phase check. -/
theorem exec_update_row {n : Nat} {s t : State} (hn : n ≤ s.din.length) (h : exec (.update n) s = .next t) :
    ActiveOnlyRow .active s t := by
  obtain ⟨hlt, -⟩ | ⟨-, hok⟩ := exec_update_next.1 h
  · omega
  · obtain ⟨hfaulted, hidle, hactive, hdone⟩ := inActivePhase_row (p := .active)
      (fun hp hb => by rw [← hp]; exact updateBody_phase_cause hb) hok
    exact ⟨hfaulted, hidle, hactive, hdone⟩

theorem exec_digest_row {s t : State} (h : exec .digest s = .next t) : ActiveOnlyRow .done s t := by
  obtain ⟨hfaulted, hidle, hactive, hdone⟩ :=
    inActivePhase_row (fun _ hb => digestBody_phase_cause hb) (exec_digest_next.1 h)
  exact ⟨hfaulted, hidle, hactive, hdone⟩

/-- The row of CREATE (R90, R173). -/
theorem exec_create_row {tag : BitVec 8} {s t : State} (h : exec (.create tag) s = .next t) :
    (s.phase = .faulted → t.phase = .faulted ∧ t.cause = s.cause) ∧
    (s.phase ≠ .faulted → ∀ a, Algorithm.ofTag tag = some a → t.phase = .active ∧ t.cause = s.cause) ∧
    (s.phase ≠ .faulted → Algorithm.ofTag tag = none → t.phase = .faulted ∧ t.cause = .unsupportedAlgorithm) := by
  obtain ⟨hp, rfl⟩ | ⟨hp, htag, rfl⟩ | ⟨hp, a, htag, rfl⟩ := exec_create_next.1 h
  · simp [hp]
  · simp [hp, htag]
  · simp [hp, htag]

theorem illegalWord_of_faulted {s : State} (hp : s.phase = .faulted) : illegalWord s = retire s := if_pos hp

theorem illegalWord_of_not_faulted {s : State} (hp : s.phase ≠ .faulted) :
    illegalWord s = raise .illegalCommand (retire s) := if_neg hp

/-- The row of FAULTED: whatever the word, PHASE and CAUSE stay (R173). -/
theorem step_word_of_faulted {s t : State} {word : CommandWord} {rest : List CommandWord} (hrst : s.rst = false)
    (huop : s.uop = none) (hcmd : s.cmd = word :: rest) (hpay : payloadLength word ≤ s.din.length) (h : step s = .next t)
    (hp : s.phase = .faulted) : t.phase = .faulted ∧ t.cause = s.cause := by
  cases hdec : decode (.cmd word) with
  | error e =>
    rw [step_of_illegal_word hrst huop hcmd hdec, illegalWord_of_faulted hp, Host.Outcome.next.injEq] at h
    subst h
    exact ⟨hp, rfl⟩
  | ok i =>
    rw [step_of_legal_word hrst huop hcmd hdec] at h
    obtain ⟨-, -, rfl⟩ | ⟨-, rfl⟩ | ⟨-, -, rfl⟩ := decodeCommand_ok.1 hdec
    · exact (exec_create_row h).1 hp
    · rw [payloadLength_of_decode_update hdec] at hpay
      exact (exec_update_row hpay h).faulted hp
    · exact (exec_digest_row h).faulted hp

/-- Settles O8: FAULTED by the row above, every other phase by the row of the command the word decodes to. -/
theorem phaseFollowsTransitionTable : Obligations.PhaseFollowsTransitionTable := by
  unfold Obligations.PhaseFollowsTransitionTable
  refine ⟨fun _ => rfl, fun s t word rest hrst huop hcmd hpay hstep =>
    ⟨step_word_of_faulted hrst huop hcmd hpay hstep, fun hp => ?_⟩⟩
  have hexec {i : Instr} (hdec : decode (.cmd word) = .ok i) : exec i s = .next t := by
    rw [← step_of_legal_word hrst huop hcmd hdec, hstep]
  refine ⟨fun a hdec => ?recognised, fun tag hdec htag => ?unrecognised, fun n hdec => ?update, fun hdec => ?digest,
    fun e hdec => ?illegal⟩
  case recognised => exact (exec_create_row (hexec hdec)).2.1 hp a (ofTag_tag a)
  case unrecognised => exact (exec_create_row (hexec hdec)).2.2 hp htag
  case update =>
    rw [payloadLength_of_decode_update hdec] at hpay
    have hrow := exec_update_row hpay (hexec hdec)
    exact ⟨hrow.idle, hrow.active, hrow.done⟩
  case digest =>
    have hrow := exec_digest_row (hexec hdec)
    exact ⟨hrow.idle, hrow.active, hrow.done⟩
  case illegal =>
    rw [step_of_illegal_word hrst huop hcmd hdec, illegalWord_of_not_faulted hp, Host.Outcome.next.injEq] at hstep
    subst hstep
    exact ⟨rfl, rfl⟩

/-! ### The status outputs (R24, R26, R37) -/

/-- Settles O9: the outputs are defined as the codes, and each code is the printed one. -/
theorem statusOutputsCarryTheCodes : Obligations.StatusOutputsCarryTheCodes := by
  unfold Obligations.StatusOutputsCarryTheCodes
  refine ⟨fun s => ⟨rfl, rfl⟩, ?codes⟩
  case codes => decide

end Sys2Proof.Proofs.StateRules

/-! ## Proofs of the statements about 30_encoding.md: illegal words (R78) and the pseudo-instructions (R83) -/

namespace Sys2Proof.Proofs.Encoding

open Sys2Proof Sys2Proof.Machine
open Sys2Proof.Proofs.StateRules (step_of_illegal_word illegalWord_of_faulted illegalWord_of_not_faulted
  payloadLength_of_decode_update)

/-! ### Illegal words (R78) -/

/-- The other half of `decodeCommand_ok`: what the decoder rejects, by the same split along its tests. -/
theorem decodeCommand_error {w : CommandWord} :
    (∃ e, decodeCommand w = .error e) ↔
      (opField w ≠ 0x01#8 ∧ opField w ≠ 0x02#8 ∧ opField w ≠ 0x03#8) ∨
      (opField w = 0x01#8 ∧ reservedField w ≠ 0#16) ∨
      (opField w = 0x03#8 ∧ argField w ≠ 0#24) := by
  simp only [decodeCommand]
  by_cases h1 : opField w = 0x01#8
  · by_cases hr : reservedField w = 0#16 <;> simp [h1, hr]
  · by_cases h2 : opField w = 0x02#8
    · simp [h2]
    · by_cases h3 : opField w = 0x03#8
      · by_cases ha : argField w = 0#24 <;> simp [h3, ha]
      · simp [h1, h2, h3]

/-- Every bit of a legal word is a fixed bit or part of an operand, so the encoder gives the word back (R75 to R77). -/
theorem encode_of_decodeCommand {w : CommandWord} {i : Instr} (hdec : decodeCommand w = .ok i) (a : Algorithm) :
    encode a i = .cmd w := by
  obtain ⟨hop, hres, rfl⟩ | ⟨hop, rfl⟩ | ⟨hop, harg, rfl⟩ := decodeCommand_ok.1 hdec
  · rw [encode, ← hop, ← hres, opField_append_reservedField_append_tagField]
  · rw [encode, ← hop, BitVec.ofNat_toNat, BitVec.setWidth_eq, opField_append_argField]
  · rw [eq_digestWord hop harg]
    rfl

theorem decodeCommand_injective {w w' : CommandWord} {i : Instr} (h : decodeCommand w = .ok i)
    (h' : decodeCommand w' = .ok i) : w = w' :=
  Code.cmd.inj ((encode_of_decodeCommand h .sha1).symm.trans (encode_of_decodeCommand h' .sha1))

theorem retire_of_cmd_cons {s : State} {word : CommandWord} {rest : List CommandWord} (hcmd : s.cmd = word :: rest) :
    retire s = { s with cmd := rest } := by
  rw [retire, hcmd, List.tail_cons]

/-- Settles O7: the conditions by inversion of the decoder, the step by the model's `illegalWord` in and outside FAULTED, and
the uniqueness of a legal word because the encoder gives it back. -/
theorem illegalWordRaisesIllegalCommand : Obligations.IllegalWordRaisesIllegalCommand := by
  unfold Obligations.IllegalWordRaisesIllegalCommand
  refine ⟨fun _ => decodeCommand_error, fun s word rest e hrst huop hcmd hdec => ?step, rfl,
    fun _ _ _ => decodeCommand_injective, decodeCommand_createWord⟩
  case step =>
    rw [step_of_illegal_word hrst huop hcmd hdec]
    by_cases hp : s.phase = .faulted
    · rw [illegalWord_of_faulted hp, retire_of_cmd_cons hcmd, if_pos hp]
    · rw [illegalWord_of_not_faulted hp, retire_of_cmd_cons hcmd, if_neg hp, raise]

/-! ### The pieces of a long UPDATE (R83) -/

/-- `maxPayload` as the numeral of R76. -/
theorem maxPayload_eq : maxPayload = 16777215 := rfl

theorem lt_of_le_maxPayload {n : Nat} (h : n ≤ maxPayload) : n < 2 ^ 24 := by
  rw [maxPayload_eq] at h
  omega

/-- `full` full pieces and a last one that fits cover the length. -/
theorem updateWords_payload_sum {full length : Nat} (hfull : full * maxPayload ≤ length)
    (hlast : length ≤ (full + 1) * maxPayload) :
    ((updateWords full length).map payloadLength).sum = length := by
  induction full generalizing length with
  | zero =>
    have hpiece := payloadLength_updateWord (lt_of_le_maxPayload (n := length) (by omega))
    rw [updateWords, List.map_singleton, List.sum_singleton, hpiece]
  | succ full ih =>
    rw [Nat.succ_mul] at hfull hlast
    have hpiece := payloadLength_updateWord (lt_of_le_maxPayload (Nat.le_refl maxPayload))
    have hrest := ih (length := length - maxPayload) (Nat.le_sub_of_add_le hfull) (Nat.sub_le_iff_le_add.2 hlast)
    rw [updateWords, List.map_cons, List.sum_cons, hpiece, hrest]
    exact Nat.add_sub_of_le ((Nat.le_add_left _ _).trans hfull)

/-- Each piece is the UPDATE word of a length that fits. -/
theorem exists_of_mem_updateWords {full length : Nat} (hlast : length ≤ (full + 1) * maxPayload) {w : CommandWord}
    (hw : w ∈ updateWords full length) : ∃ n, n ≤ maxPayload ∧ w = updateWord n := by
  induction full generalizing length with
  | zero => exact ⟨length, by omega, List.mem_singleton.1 hw⟩
  | succ full ih =>
    obtain rfl | hw := List.mem_cons.1 hw
    · exact ⟨maxPayload, Nat.le_refl _, rfl⟩
    · rw [Nat.succ_mul] at hlast
      exact ih (Nat.sub_le_iff_le_add.2 hlast) hw

/-- The number of full pieces `updateLine` takes leaves a last one that fits. -/
theorem fullPieces_bounds (length : Nat) :
    (length - 1) / maxPayload * maxPayload ≤ length ∧ length ≤ ((length - 1) / maxPayload + 1) * maxPayload := by
  rw [maxPayload_eq]
  omega

theorem updateLine_payload_sum (data : List Byte) : ((updateLine data).map payloadLength).sum = data.length :=
  updateWords_payload_sum (fullPieces_bounds data.length).1 (fullPieces_bounds data.length).2

theorem decode_of_mem_updateLine {data : List Byte} {w : CommandWord} (hw : w ∈ updateLine data) :
    ∃ n, n ≤ maxPayload ∧ decode (.cmd w) = .ok (.update n) := by
  obtain ⟨n, hn, rfl⟩ := exists_of_mem_updateWords (fullPieces_bounds data.length).2 hw
  exact ⟨n, hn, decodeCommand_updateWord (lt_of_le_maxPayload hn)⟩

/-- Settles O51: a long UPDATE by induction on the number of its full pieces; the other expansions are the definition's. -/
theorem pseudoInstructionsExpand : Obligations.PseudoInstructionsExpand := by
  unfold Obligations.PseudoInstructionsExpand
  refine ⟨fun data => ⟨updateLine_payload_sum data, rfl, fun w hw => ?piece⟩, fun _ _ => ⟨rfl, rfl⟩, fun b => ⟨?push, rfl⟩,
    ?nopUpdate, rfl⟩
  case piece =>
    obtain ⟨n, hn, hdec⟩ := decode_of_mem_updateLine hw
    exact ⟨n, hn, hdec, payloadLength_of_decode_update hdec⟩
  case push =>
    rw [AsmLine.words, AsmLine.words, updateLine, List.length_singleton, Nat.sub_self, Nat.zero_div, updateWords]
  case nopUpdate => decide

end Sys2Proof.Proofs.Encoding

/-! ## Proofs of the statements about 40_lifecycle.md: CREATE (R90) -/

namespace Sys2Proof.Proofs.Lifecycle

open Sys2Proof Sys2Proof.Machine

theorem ofTag_eq_none {tag : BitVec 8} (h : ∀ a : Algorithm, tag ≠ a.tag) : Algorithm.ofTag tag = none :=
  Option.eq_none_iff_forall_ne_some.2 fun a ha => h a (ofTag_eq_some ha)

/-- The words of H beyond the descriptor's N are zero in the initial vector. -/
theorem initialVector_drop_digestWords (a : Algorithm) :
    (initialVector a).words.drop a.digestWords = List.replicate (8 - a.digestWords) 0 := by
  cases a <;> rfl

/-- Settles O17: the three outcomes of CREATE, the tag's descriptor deciding between the two outside FAULTED. -/
theorem createBeginsComputation : Obligations.CreateBeginsComputation := by
  unfold Obligations.CreateBeginsComputation
  refine ⟨fun a x hx => ?unusedWords, fun s a hp => ?recognised,
    fun s tag hp htag => ?unrecognised, fun s tag hp => ?faulted⟩
  case unusedWords =>
    rw [initialVector_drop_digestWords] at hx
    exact List.eq_of_mem_replicate hx
  case recognised => exact exec_create_next.2 (.inr (.inr ⟨hp, a, ofTag_tag a, rfl⟩))
  case unrecognised => exact exec_create_next.2 (.inr (.inl ⟨hp, ofTag_eq_none htag, rfl⟩))
  case faulted => exact exec_create_next.2 (.inl ⟨hp, rfl⟩)

end Sys2Proof.Proofs.Lifecycle

/-! ## Proofs of the statements about 41_chunk_buffer.md: the buffering branch of UPDATE (R101) -/

namespace Sys2Proof.Proofs.ChunkBuffer

open Sys2Proof Sys2Proof.Machine

/-- In ACTIVE with its payload presented, UPDATE answers what its body answers on the state after the word and the payload. -/
theorem exec_update_of_active {s t : State} {n : Nat} (hp : s.phase = .active) (hn : n ≤ s.din.length)
    (hbody : updateBody (s.din.take n) (dropPayload n (retire s)) = .ok t) : exec (.update n) s = .next t :=
  exec_update_next.2 (.inr ⟨hn, inActivePhase_ok.2 (.inr (.inr (.inr ⟨hp, hbody⟩)))⟩)

/-- The body of UPDATE on fewer bytes than complete the chunk (R101). -/
theorem updateBody_of_short {s : State} {a : Algorithm} {data : List Byte} (ha : s.alg = a.tag)
    (hlt : s.buflen.toNat + data.length < a.chunkBytes) :
    updateBody data s = .ok { s with
      buf := s.buf.writeBytes s.buflen.toNat data, buflen := BitVec.ofNat 8 (s.buflen.toNat + data.length) } :=
  updateBody_ok.2 ⟨a, by rw [ha, ofTag_tag], .inl ⟨hlt, rfl⟩⟩

/-- BUFLEN, an 8-bit register, holds every length below C. -/
theorem toNat_ofNat_of_lt_chunkBytes {a : Algorithm} {k : Nat} (hk : k < a.chunkBytes) :
    (BitVec.ofNat 8 k).toNat = k :=
  have hC := chunkBytes_le a
  (BitVec.toNat_ofNat k 8).trans (Nat.mod_eq_of_lt (by omega))

/-- Settles O21: the body's buffering branch gives the state, the laws of `writeBytes` the bytes of BUF in and outside the
payload's range. -/
theorem updateBuffersAShortPayload : Obligations.UpdateBuffersAShortPayload := by
  unfold Obligations.UpdateBuffersAShortPayload
  intro s a n hp ha hn hlt
  have hlen : (s.din.take n).length = n := List.length_take_of_le hn
  have hlt' : s.buflen.toNat + (s.din.take n).length < a.chunkBytes := by rwa [hlen]
  refine ⟨_, exec_update_of_active hp hn (updateBody_of_short ha hlt'), rfl, ?buflen, fun i hi => ?payload,
    fun i hi => ?frame⟩
  case buflen => exact (toNat_ofNat_of_lt_chunkBytes hlt').trans (congrArg (s.buflen.toNat + ·) hlen)
  case payload => exact (Memory.read_writeBytes_inside _ _ _ i (by omega)).trans (List.getElem?_take_of_lt hi)
  case frame => exact Memory.read_writeBytes_outside _ _ _ i (by rwa [hlen])

end Sys2Proof.Proofs.ChunkBuffer

/-! ## Proofs of the statements about 45_md5_compress.md: the message order (R144) -/

namespace Sys2Proof.Proofs.Md5Order

open Sys2Proof Sys2Proof.Machine

/-! ### The order in each group of sixteen steps -/

theorem gMd5_of_first_group {i : Nat} (h : i < 16) : gMd5 i = i := if_pos (by omega)

theorem gMd5_of_second_group {i : Nat} (hl : 16 ≤ i) (hu : i < 32) : gMd5 i = (5 * i + 1) % 16 :=
  (if_neg (by omega)).trans (if_pos (by omega))

theorem gMd5_of_third_group {i : Nat} (hl : 32 ≤ i) (hu : i < 48) : gMd5 i = (3 * i + 5) % 16 :=
  (if_neg (by omega)).trans ((if_neg (by omega)).trans (if_pos (by omega)))

theorem gMd5_of_fourth_group {i : Nat} (h : 48 ≤ i) : gMd5 i = 7 * i % 16 :=
  (if_neg (by omega)).trans ((if_neg (by omega)).trans (if_neg (by omega)))

/-- The step of a group that uses the word `j`: the group's order is affine modulo 16 with an odd factor, so it is undone by
the inverse factor, 13 for 5, 11 for 3 and 7 for itself. -/
def stepUsing : Nat → Nat → Nat
  | 0, j => j
  | 1, j => (13 * j + 3) % 16
  | 2, j => (11 * j + 9) % 16
  | _, j => 7 * j % 16

theorem stepUsing_lt {j : Nat} (hj : j < 16) (group : Nat) : stepUsing group j < 16 := by
  unfold stepUsing
  split <;> omega

theorem gMd5_stepUsing {group j : Nat} (hg : group < 4) (hj : j < 16) : gMd5 (16 * group + stepUsing group j) = j := by
  have hlt : stepUsing group j < 16 := stepUsing_lt hj group
  match group, hg with
  | 0, _ =>
    rw [gMd5_of_first_group (by omega), stepUsing]
    omega
  | 1, _ =>
    rw [gMd5_of_second_group (by omega) (by omega), stepUsing]
    omega
  | 2, _ =>
    rw [gMd5_of_third_group (by omega) (by omega), stepUsing]
    omega
  | 3, _ =>
    rw [gMd5_of_fourth_group (by omega), stepUsing] <;> omega

/-- Settles O30: the order group by group, and the step of each group that uses a given word. -/
theorem md5MessageOrderIsAPermutation : Obligations.Md5MessageOrderIsAPermutation := by
  unfold Obligations.Md5MessageOrderIsAPermutation
  refine ⟨fun i _ => ?order, fun group hg j hj => ⟨stepUsing group j, stepUsing_lt hj group, gMd5_stepUsing hg hj⟩⟩
  case order =>
    split_ifs with h16 h32 h48
    · exact gMd5_of_first_group h16
    · exact gMd5_of_second_group (not_lt.1 h16) h32
    · exact gMd5_of_third_group (not_lt.1 h32) h48
    · exact gMd5_of_fourth_group (not_lt.1 h48)

end Sys2Proof.Proofs.Md5Order

/-! ## Proofs of the statements about 46_padding_finalizer.md: the length field (R157), DIGEST (R150, R151, R153, R155) and what is
emitted on `dout` (R154) -/

namespace Sys2Proof.Proofs.Finalizer

open Sys2Proof Sys2Proof.Machine
open Sys2Proof.Proofs.StateRules (illegalWord_of_faulted illegalWord_of_not_faulted)

/-! ### The length field (R157) -/

/-- The low byte first: byte `i` of the little-endian field is the byte of weight `256 ^ i`. -/
theorem getElem?_toLe_word (L : Word64) {i : Nat} (hi : i < 8) :
    (toLe L.toNat 8)[i]? = some (L.extractLsb' (8 * i) 8) := by
  rw [toLe_getElem? _ _ _ hi, byte_of_word]

/-- The high byte first: byte `i` of the big-endian field is the byte of weight `256 ^ (7 - i)`. -/
theorem getElem?_toBe_word (L : Word64) {i : Nat} (hi : i < 8) :
    (toBe L.toNat 8)[i]? = some (L.extractLsb' (56 - 8 * i) 8) := by
  rw [toBe_getElem? _ _ _ hi, byte_of_word, show 8 * (8 - 1 - i) = 56 - 8 * i by omega]

theorem getElem?_zeros_append {n i : Nat} (hi : i < n) (bytes : List Byte) : (zeros n ++ bytes)[i]? = some 0x00#8 := by
  rw [List.getElem?_append_left (by rwa [zeros_length]), zeros, List.getElem?_replicate_of_lt hi]

theorem getElem?_zeros_append_add (n i : Nat) (bytes : List Byte) : (zeros n ++ bytes)[n + i]? = bytes[i]? := by
  rw [List.getElem?_append_right (by rw [zeros_length]; omega), zeros_length, Nat.add_sub_cancel_left]

/-- Settles O33: each descriptor's field is the 64-bit length in its byte order, that of SHA512 behind eight zero bytes. -/
theorem lengthFieldBytesByDescriptor : Obligations.LengthFieldBytesByDescriptor := by
  unfold Obligations.LengthFieldBytesByDescriptor
  exact ⟨rfl, fun L i hi => ⟨getElem?_toBe_word L hi, lengthField_length .sha1 L, getElem?_toBe_word L hi, lengthField_length .sha256 L,
    getElem?_zeros_append hi _, (getElem?_zeros_append_add 8 i _).trans (getElem?_toBe_word L hi),
    lengthField_length .sha512 L, getElem?_toLe_word L hi, lengthField_length .md5 L⟩⟩

/-! ### DIGEST in ACTIVE (R150, R151, R153, R155) -/

theorem bitLength_toNat (s : State) :
    (bitLength s).toNat = (s.processed.toNat + s.buflen.toNat) % 2 ^ 64 * 8 % 2 ^ 64 := by
  have hwiden : (s.buflen.setWidth 64).toNat = s.buflen.toNat :=
    BitVec.toNat_setWidth_of_le (by omega)
  rw [bitLength, BitVec.toNat_mul, BitVec.toNat_add, hwiden]
  rfl

/-- The unprocessed bytes, the byte 0x80 and the length field fit one chunk, and the zeros fill it (R156). -/
theorem padTail_length_of_short {a : Algorithm} {rest : List Byte} (L : Word64)
    (h : rest.length + a.lengthBytes + 1 ≤ a.chunkBytes) : (padTail a rest L).length = a.chunkBytes := by
  rw [padTail_length, padZeros_short h]
  omega

/-- They do not fit one chunk, and the zeros fill a second (R156). -/
theorem padTail_length_of_long {a : Algorithm} {rest : List Byte} (L : Word64) (hrest : rest.length < a.chunkBytes)
    (h : a.chunkBytes ≤ rest.length + a.lengthBytes) : (padTail a rest L).length = 2 * a.chunkBytes := by
  have hF := lengthBytes_lt a
  rw [padTail_length, padZeros_long hrest h]
  omega

/-- In ACTIVE, with the unprocessed bytes inside BUF and written, DIGEST answers the digested state, its word consumed. -/
theorem exec_digest_of_active {s : State} {a : Algorithm} {held : List Byte} (hp : s.phase = .active)
    (ha : s.alg = a.tag) (hlen : s.buflen.toNat ≤ a.chunkBytes) (hheld : s.buf.readBytes 0 s.buflen.toNat = .ok held) :
    exec .digest s = .next (digestedState a held (retire s)) := by
  have hbody : digestBody (retire s) = .ok (digestedState a held (retire s)) :=
    digestBody_ok.2 ⟨a, held, by rw [retire_alg, ha, ofTag_tag], hlen, hheld, rfl⟩
  exact exec_digest_next.2 (inActivePhase_ok.2 (.inr (.inr (.inr ⟨hp, hbody⟩))))

/-- Settles O36: the digested state's H is the fold of Compress over the padded tail, which is one chunk or two. -/
theorem digestPadsCompressesAndEmits : Obligations.DigestPadsCompressesAndEmits := by
  unfold Obligations.DigestPadsCompressesAndEmits
  intro s a held hp ha hlt hheld
  have hlen : held.length = s.buflen.toNat := ((Memory.readBytes_ok _ _ _ _).1 hheld).1
  refine ⟨bitLength s, (digestedState a held (retire s)).h, bitLength_toNat s, fun hshort => ?one, fun hlong => ?two,
    exec_digest_of_active hp ha (Nat.le_of_lt hlt) hheld⟩
  case one => exact compressChunks_of_one s.h (padTail_length_of_short _ hshort)
  case two => exact compressChunks_of_two s.h (padTail_length_of_long _ (by rwa [hlen]) hlong)

/-! ### What is emitted (R154) -/

/-- `t` emits on top of `s` exactly the digest of a computation that was ACTIVE and is DONE. -/
def EmitsDigest (s t : State) : Prop :=
  s.phase = .active ∧ t.phase = .done ∧ ∃ a : Algorithm, s.alg = a.tag ∧ t.dout = s.dout ++ serialize a t.h

theorem exec_digest_dout {s t : State} (h : exec .digest s = .next t) : t.dout = s.dout ∨ EmitsDigest s t := by
  obtain ⟨-, rfl⟩ | ⟨-, rfl⟩ | ⟨-, rfl⟩ | ⟨hp, hbody⟩ := inActivePhase_ok.1 (exec_digest_next.1 h)
  · exact .inl rfl
  · exact .inl rfl
  · exact .inl rfl
  · obtain ⟨a, held, ha, -, -, rfl⟩ := digestBody_ok.1 hbody
    exact .inr ⟨hp, rfl, a, ofTag_eq_some ha, rfl⟩

theorem exec_create_dout {tag : BitVec 8} {s t : State} (h : exec (.create tag) s = .next t) : t.dout = s.dout := by
  obtain ⟨-, rfl⟩ | ⟨-, -, rfl⟩ | ⟨-, a, -, rfl⟩ := exec_create_next.1 h
  · rfl
  · rfl
  · rfl

theorem updateBody_dout {data : List Byte} {s t : State} (h : updateBody data s = .ok t) : t.dout = s.dout := by
  obtain ⟨a, -, ⟨-, rfl⟩ | ⟨-, -, held, -, rfl⟩⟩ := updateBody_ok.1 h
  · rfl
  · rfl

theorem exec_update_dout {n : Nat} {s t : State} (h : exec (.update n) s = .next t) : t.dout = s.dout := by
  obtain ⟨-, rfl⟩ | ⟨-, hok⟩ := exec_update_next.1 h
  · rfl
  · obtain ⟨-, rfl⟩ | ⟨-, rfl⟩ | ⟨-, rfl⟩ | ⟨-, hbody⟩ := inActivePhase_ok.1 hok
    · rfl
    · rfl
    · rfl
    · simpa using updateBody_dout hbody

/-- A micro-operation hands its result to its invoker and emits nothing (R79). -/
theorem exec_uop_dout {kind : UopKind} {a : Algorithm} {s t : State} (h : exec (uopOf kind a) s = .next t) :
    t.dout = s.dout := by
  cases kind with
  | compress =>
    obtain ⟨_, -, -, rfl⟩ := exec_compress_next.1 h
    rfl
  | pad =>
    obtain ⟨_, _, _, -, -, rfl⟩ := exec_pad_next.1 h
    rfl
  | serialize =>
    obtain ⟨_, -, -, rfl⟩ := exec_serialize_next.1 h
    rfl

theorem illegalWord_dout (s : State) : (illegalWord s).dout = s.dout := by
  by_cases hp : s.phase = .faulted
  · rw [illegalWord_of_faulted hp, retire_dout]
  · rw [illegalWord_of_not_faulted hp, raise_dout, retire_dout]

/-- Settles O37: of everything a step can do, only the legal word of DIGEST can write `dout`. -/
theorem onlyDigestEmits : Obligations.OnlyDigestEmits := by
  unfold Obligations.OnlyDigestEmits
  intro s t hstep
  obtain ⟨-, -, rfl⟩ | ⟨-, u, a, -, -, huop⟩ | ⟨-, -, -, rfl⟩ | ⟨-, -, word, rest, hcmd, hword⟩ := step_next.1 hstep
  · exact .inl rfl
  · exact .inl (exec_uop_dout huop)
  · exact .inl rfl
  · obtain ⟨i, hdec, hexec⟩ | ⟨e, -, rfl⟩ := hword
    · obtain ⟨-, -, rfl⟩ | ⟨-, rfl⟩ | ⟨hop, harg, rfl⟩ := decodeCommand_ok.1 hdec
      · exact .inl (exec_create_dout hexec)
      · exact .inl (exec_update_dout hexec)
      · have hhead : s.cmd.head? = some digestWord := by rw [hcmd, eq_digestWord hop harg, List.head?_cons]
        exact (exec_digest_dout hexec).imp_right fun ⟨hp, ht, hdigest⟩ => ⟨hp, ht, hhead, hdigest⟩
    · exact .inl (illegalWord_dout s)

end Sys2Proof.Proofs.Finalizer

/-! ## Proofs of the statements about 47_state_serializer.md: the lengths of the digests (R162) -/

namespace Sys2Proof.Proofs.Serializer

open Sys2Proof Sys2Proof.Machine

/-- The file of H holds the N words of every descriptor (R21). -/
theorem words_take_length (a : Algorithm) (h : Digest) : (h.words.take a.digestWords).length = a.digestWords := by
  cases a <;> rfl

/-- SERIALIZE emits N words of W/8 bytes each, whatever their values (R160). -/
theorem serialize_length (a : Algorithm) (h : Digest) : (serialize a h).length = a.digestBytes := by
  rw [serialize, List.length_flatMap, funext (wordToBytes_length a), List.map_const', List.sum_replicate_nat, words_take_length,
    Algorithm.digestBytes]

/-- Settles O35: the length is D by `serialize_length`, and the product N x W/8 of each descriptor is the printed number. -/
theorem digestLengthsAreFixed : Obligations.DigestLengthsAreFixed := by
  unfold Obligations.DigestLengthsAreFixed
  exact fun h => ⟨serialize_length .sha1 h, serialize_length .sha256 h, serialize_length .sha512 h, serialize_length .md5 h⟩

end Sys2Proof.Proofs.Serializer

/-! ## Proofs of the statements about 60_exceptions.md: the order of the checks (R171, R174), FAULTED (R173) and the phase faults (R172) -/

namespace Sys2Proof.Proofs.Exceptions

open Sys2Proof Sys2Proof.Machine
open Sys2Proof.Proofs.StateRules (step_of_legal_word step_of_illegal_word illegalWord_of_faulted illegalWord_of_not_faulted
  exec_create_row exec_update_row exec_digest_row)
open Sys2Proof.Proofs.Encoding (decodeCommand_error retire_of_cmd_cons)

/-! ### The phase faults of UPDATE and DIGEST (R172) -/

theorem inActivePhase_of_faulted {body : State → Except Fault State} {s : State} (hp : s.phase = .faulted) :
    inActivePhase body s = .ok s :=
  inActivePhase_ok.2 (.inl ⟨hp, rfl⟩)

theorem inActivePhase_of_idle {body : State → Except Fault State} {s : State} (hp : s.phase = .idle) :
    inActivePhase body s = .ok (raise .notCreated s) :=
  inActivePhase_ok.2 (.inr (.inl ⟨hp, rfl⟩))

theorem inActivePhase_of_done {body : State → Except Fault State} {s : State} (hp : s.phase = .done) :
    inActivePhase body s = .ok (raise .useAfterDigest s) :=
  inActivePhase_ok.2 (.inr (.inr (.inl ⟨hp, rfl⟩)))

theorem exec_create_cause {tag : BitVec 8} {s t : State} (h : exec (.create tag) s = .next t) :
    t.cause = s.cause ∨ t.cause = .unsupportedAlgorithm := by
  obtain ⟨-, rfl⟩ | ⟨-, -, rfl⟩ | ⟨-, a, -, rfl⟩ := exec_create_next.1 h
  · exact .inl rfl
  · exact .inr rfl
  · exact .inl rfl

/-- Settles O13: the phase check of UPDATE, its payload consumed, and of DIGEST, and the outcomes of CREATE. -/
theorem updateAndDigestFaultOutsideActive : Obligations.UpdateAndDigestFaultOutsideActive := by
  unfold Obligations.UpdateAndDigestFaultOutsideActive
  refine ⟨fun s n hn => ⟨fun hp => ⟨false, ?updateIdle⟩, fun hp => ⟨false, ?updateDone⟩⟩,
    fun s => ⟨fun hp => ?digestIdle, fun hp => ?digestDone⟩, fun s t tag => exec_create_cause⟩
  case updateIdle => exact exec_update_next.2 (.inr ⟨hn, inActivePhase_of_idle hp⟩)
  case updateDone => exact exec_update_next.2 (.inr ⟨hn, inActivePhase_of_done hp⟩)
  case digestIdle => exact exec_digest_next.2 (inActivePhase_of_idle hp)
  case digestDone => exact exec_digest_next.2 (inActivePhase_of_done hp)

/-! ### A word and its payload consumed (R80 step 1, R81) -/

/-- `s` once the word at the head of `cmd` and the payload it owns are consumed: `rest` is left on `cmd`, and `b` is the record that an
UPDATE is in progress. -/
def afterWord (word : CommandWord) (rest : List CommandWord) (b : Bool) (s : State) : State :=
  { s with cmd := rest, din := s.din.drop (payloadLength word), begun := b }

/-- The payload read off a legal word before anything else is the one of its instruction (R80 step 1, R81). -/
theorem payloadLength_of_decode {word : CommandWord} {i : Instr} (hdec : decode (.cmd word) = .ok i) :
    payloadLength word = Laws.EncodedPayload.owned i := by
  obtain ⟨hop, -, rfl⟩ | ⟨hop, rfl⟩ | ⟨hop, -, rfl⟩ := decodeCommand_ok.1 hdec
  · exact if_neg (by simp [hop])
  · exact if_pos hop
  · exact if_neg (by simp [hop])

/-- An illegal word owns no payload: every word with the `op` of UPDATE is legal (R78). -/
theorem payloadLength_of_decode_error {word : CommandWord} {e : DecodeError} (hdec : decode (.cmd word) = .error e) :
    payloadLength word = 0 := by
  obtain ⟨-, hop, -⟩ | ⟨hop, -⟩ | ⟨hop, -⟩ := decodeCommand_error.1 ⟨e, hdec⟩
  · exact if_neg hop
  · exact if_neg (by simp [hop])
  · exact if_neg (by simp [hop])

theorem retire_eq_afterWord {s : State} {word : CommandWord} {rest : List CommandWord} (hcmd : s.cmd = word :: rest)
    (hnone : payloadLength word = 0) : retire s = afterWord word rest s.begun s := by
  rw [retire_of_cmd_cons hcmd, afterWord, hnone, List.drop_zero]

theorem dropPayload_retire_eq_afterWord {s : State} {word : CommandWord} {rest : List CommandWord}
    (hcmd : s.cmd = word :: rest) : dropPayload (payloadLength word) (retire s) = afterWord word rest false s := by
  rw [retire_of_cmd_cons hcmd]
  rfl

/-! ### The checks of R174 on a presented word -/

section PresentedWord

variable {s : State} {word : CommandWord} {rest : List CommandWord}
variable (hrst : s.rst = false) (huop : s.uop = none) (hcmd : s.cmd = word :: rest)
include hrst huop hcmd

/-- The check of legality, FAULTED apart. -/
theorem step_illegal_word_raises {e : DecodeError} (hdec : decode (.cmd word) = .error e) (hp : s.phase ≠ .faulted) :
    step s = .next (raise .illegalCommand (afterWord word rest s.begun s)) := by
  rw [step_of_illegal_word hrst huop hcmd hdec, illegalWord_of_not_faulted hp,
    retire_eq_afterWord hcmd (payloadLength_of_decode_error hdec)]

/-- The check of the tag, FAULTED apart. -/
theorem step_unrecognised_create_raises {tag : BitVec 8} (hdec : decode (.cmd word) = .ok (.create tag))
    (htag : Algorithm.ofTag tag = none) (hp : s.phase ≠ .faulted) :
    step s = .next (raise .unsupportedAlgorithm (afterWord word rest s.begun s)) := by
  rw [step_of_legal_word hrst huop hcmd hdec, ← retire_eq_afterWord hcmd (payloadLength_of_decode hdec)]
  exact exec_create_next.2 (.inr (.inl ⟨hp, htag, rfl⟩))

/-- UPDATE, its payload presented, and DIGEST go through one phase check, after their word and payload are consumed. -/
theorem step_phase_checked_word {i : Instr} (hdec : decode (.cmd word) = .ok i) (hi : i = .digest ∨ ∃ n, i = .update n)
    (hpay : payloadLength word ≤ s.din.length) :
    ∃ b body, ∀ t, inActivePhase body (afterWord word rest b s) = .ok t → step s = .next t := by
  rw [step_of_legal_word hrst huop hcmd hdec]
  obtain rfl | ⟨n, rfl⟩ := hi
  · refine ⟨s.begun, digestBody, fun t ht => exec_digest_next.2 ?_⟩
    rwa [retire_eq_afterWord hcmd (payloadLength_of_decode hdec)]
  · obtain rfl : payloadLength word = n := payloadLength_of_decode hdec
    refine ⟨false, updateBody (s.din.take (payloadLength word)), fun t ht => exec_update_next.2 (.inr ⟨hpay, ?_⟩)⟩
    rwa [dropPayload_retire_eq_afterWord hcmd]

/-- The first check, FAULTED: the word and its payload are consumed and nothing else happens (R173). -/
theorem step_word_ignored_of_faulted (hpay : payloadLength word ≤ s.din.length) (hp : s.phase = .faulted) :
    ∃ b, step s = .next (afterWord word rest b s) := by
  have hchecked {i : Instr} (hdec : decode (.cmd word) = .ok i) (hi : i = .digest ∨ ∃ n, i = .update n) :
      ∃ b, step s = .next (afterWord word rest b s) := by
    obtain ⟨b, body, hstep⟩ := step_phase_checked_word hrst huop hcmd hdec hi hpay
    exact ⟨b, hstep _ (inActivePhase_of_faulted hp)⟩
  cases hdec : decode (.cmd word) with
  | error e =>
    refine ⟨s.begun, ?_⟩
    rw [step_of_illegal_word hrst huop hcmd hdec, illegalWord_of_faulted hp,
      retire_eq_afterWord hcmd (payloadLength_of_decode_error hdec)]
  | ok i =>
    obtain ⟨-, -, rfl⟩ | ⟨-, rfl⟩ | ⟨-, -, rfl⟩ := decodeCommand_ok.1 hdec
    · refine ⟨s.begun, ?_⟩
      rw [step_of_legal_word hrst huop hcmd hdec, ← retire_eq_afterWord hcmd (payloadLength_of_decode hdec)]
      exact exec_create_next.2 (.inl ⟨hp, rfl⟩)
    · exact hchecked hdec (.inr ⟨_, rfl⟩)
    · exact hchecked hdec (.inl rfl)

end PresentedWord

/-- Settles O15: one lemma for each check, in its order. -/
theorem faultsFollowFixedPriority : Obligations.FaultsFollowFixedPriority := by
  unfold Obligations.FaultsFollowFixedPriority
  intro s word rest hrst huop hcmd hpay
  refine ⟨step_word_ignored_of_faulted hrst huop hcmd hpay, fun hp => ⟨fun e hdec => ?legality, fun i hdec hi => ?phase,
    fun tag hdec htag => ?tag⟩⟩
  case legality => exact ⟨s.begun, step_illegal_word_raises hrst huop hcmd hdec hp⟩
  case phase =>
    obtain ⟨b, body, hstep⟩ := step_phase_checked_word hrst huop hcmd hdec hi hpay
    exact ⟨fun hidle => ⟨b, hstep _ (inActivePhase_of_idle hidle)⟩, fun hdone => ⟨b, hstep _ (inActivePhase_of_done hdone)⟩⟩
  case tag => exact ⟨s.begun, step_unrecognised_create_raises hrst huop hcmd hdec htag hp⟩

/-! ### FAULTED is left by reset only (R173) -/

/-- A micro-operation works on the computation and leaves PHASE and CAUSE. -/
theorem exec_uop_phase_cause {kind : UopKind} {a : Algorithm} {s t : State} (h : exec (uopOf kind a) s = .next t) :
    t.phase = s.phase ∧ t.cause = s.cause := by
  cases kind with
  | compress =>
    obtain ⟨_, -, -, rfl⟩ := exec_compress_next.1 h
    exact ⟨rfl, rfl⟩
  | pad =>
    obtain ⟨_, _, _, -, -, rfl⟩ := exec_pad_next.1 h
    exact ⟨rfl, rfl⟩
  | serialize =>
    obtain ⟨_, -, -, rfl⟩ := exec_serialize_next.1 h
    exact ⟨rfl, rfl⟩

/-- UPDATE keeps FAULTED and CAUSE while it waits as well as when it completes. -/
theorem exec_update_of_faulted {n : Nat} {s t : State} (hp : s.phase = .faulted) (h : exec (.update n) s = .next t) :
    t.phase = .faulted ∧ t.cause = s.cause := by
  obtain ⟨-, rfl⟩ | ⟨hn, -⟩ := exec_update_next.1 h
  · exact ⟨hp, rfl⟩
  · exact (exec_update_row hn h).faulted hp

theorem step_of_faulted {s t : State} (hp : s.phase = .faulted) (hrst : s.rst = false) (h : step s = .next t) :
    t.phase = .faulted ∧ t.cause = s.cause := by
  obtain ⟨hreset, -⟩ | ⟨-, u, a, -, -, huop⟩ | ⟨-, -, -, rfl⟩ | ⟨-, -, word, rest, -, hword⟩ := step_next.1 h
  · rw [hrst] at hreset
    cases hreset
  · rw [← hp]
    exact exec_uop_phase_cause huop
  · exact ⟨hp, rfl⟩
  · obtain ⟨i, hdec, hexec⟩ | ⟨e, -, rfl⟩ := hword
    · obtain ⟨-, -, rfl⟩ | ⟨-, rfl⟩ | ⟨-, -, rfl⟩ := decodeCommand_ok.1 hdec
      · exact (exec_create_row hexec).1 hp
      · exact exec_update_of_faulted hp hexec
      · exact (exec_digest_row hexec).faulted hp
    · rw [illegalWord_of_faulted hp]
      exact ⟨hp, rfl⟩

/-- Nothing is emitted outside ACTIVE (R154). -/
theorem step_dout_of_not_active {s t : State} (hp : s.phase ≠ .active) (h : step s = .next t) : t.dout = s.dout :=
  (Finalizer.onlyDigestEmits s t h).resolve_right fun ⟨hactive, _⟩ => hp hactive

/-- Settles O12: a presented word by the first check of R174, every other step by what a step can do, `dout` by O37. -/
theorem faultedBlockIgnoresEveryWord : Obligations.FaultedBlockIgnoresEveryWord := by
  unfold Obligations.FaultedBlockIgnoresEveryWord
  refine ⟨fun s word rest n hp hrst huop hcmd hlen hn => ?ignored, fun s t hp hrst hstep => ?kept, fun s hp => ?ended⟩
  case ignored =>
    subst hlen
    exact step_word_ignored_of_faulted hrst huop hcmd hn hp
  case kept =>
    obtain ⟨hphase, hcause⟩ := step_of_faulted hp hrst hstep
    exact ⟨hphase, hcause, step_dout_of_not_active (by simp [hp]) hstep⟩
  case ended => simp [State.endedWell, hp]

end Sys2Proof.Proofs.Exceptions

/-! ## Proofs of the statements about UPDATE in ACTIVE: what a sequence of bytes makes of the computation (10_state.md R30,
41_chunk_buffer.md R102 to R105) -/

namespace Sys2Proof.Proofs.Absorption

open Sys2Proof Sys2Proof.Machine
open Sys2Proof.Proofs.ChunkBuffer (exec_update_of_active updateBody_of_short toNat_ofNat_of_lt_chunkBytes)

/-! ### The whole chunks of a message -/

/-- Whole chunks first, then the chunks of what follows them. -/
theorem compressChunks_whole_append {a : Algorithm} {q : Nat} {x : List Byte} (hx : x.length = q * a.chunkBytes)
    (h : Digest) (y : List Byte) :
    compressChunks a ((x ++ y).length / a.chunkBytes) h (x ++ y) =
      compressChunks a (y.length / a.chunkBytes) (compressChunks a q h x) y := by
  have hcount : (x ++ y).length / a.chunkBytes = q + y.length / a.chunkBytes := by
    rw [List.length_append, hx, Nat.add_comm, Nat.add_mul_div_right _ _ (chunkBytes_pos a), Nat.add_comm]
  rw [hcount, compressChunks_add, compressChunks_append a q h x y (Nat.le_of_eq hx.symm), ← hx, List.drop_left]

/-- A message cut behind its whole chunks. -/
theorem length_take_wholeChunks (a : Algorithm) (msg : List Byte) :
    (msg.take (msg.length / a.chunkBytes * a.chunkBytes)).length = msg.length / a.chunkBytes * a.chunkBytes :=
  List.length_take_of_le (Nat.div_mul_le_self _ _)

theorem length_drop_wholeChunks (a : Algorithm) (msg : List Byte) :
    (msg.drop (msg.length / a.chunkBytes * a.chunkBytes)).length = msg.length % a.chunkBytes := by
  have hsplit := Nat.div_add_mod' msg.length a.chunkBytes
  rw [List.length_drop]
  omega

/-- Compressing the whole chunks of a message looks at nothing behind them. -/
theorem compressChunks_take_wholeChunks (a : Algorithm) (h : Digest) (msg : List Byte) :
    compressChunks a (msg.length / a.chunkBytes) h (msg.take (msg.length / a.chunkBytes * a.chunkBytes)) =
      compressChunks a (msg.length / a.chunkBytes) h msg := by
  have happend := compressChunks_append a (msg.length / a.chunkBytes) h
    (msg.take (msg.length / a.chunkBytes * a.chunkBytes)) (msg.drop (msg.length / a.chunkBytes * a.chunkBytes))
    (Nat.le_of_eq (length_take_wholeChunks a msg).symm)
  rw [← happend, List.take_append_drop]

/-! ### A computation reached from a digest and a count -/

/-- In ACTIVE under `a`, the computation is what the bytes `msg` make of the digest `h` and the count `p` of bytes compressed before: the whole
chunks of `msg` are folded and counted, the rest is held in BUF. -/
structure AbsorbedFrom (a : Algorithm) (h : Digest) (p : Word64) (msg : List Byte) (s : State) : Prop where
  phase : s.phase = .active
  alg : s.alg = a.tag
  digest : s.h = compressChunks a (msg.length / a.chunkBytes) h msg
  processed : s.processed = p + BitVec.ofNat 64 (msg.length / a.chunkBytes * a.chunkBytes)
  buflen : s.buflen.toNat = msg.length % a.chunkBytes
  buffered : s.buf.readBytes 0 s.buflen.toNat = .ok (msg.drop (msg.length / a.chunkBytes * a.chunkBytes))

/-- What the model calls absorbed is reached from the initial vector and no byte. -/
theorem absorbed_iff {a : Algorithm} {msg : List Byte} {s : State} :
    Absorbed a msg s ↔ AbsorbedFrom a (initialVector a) 0 msg s := by
  constructor
  · rintro ⟨hphase, halg, hdigest, hprocessed, hbuflen, hbuffered⟩
    exact ⟨hphase, halg, hdigest, by rw [hprocessed, Nat.mul_comm, zero_add], hbuflen,
      by rw [hbuflen, hbuffered, Nat.mul_comm]⟩
  · rintro ⟨hphase, halg, hdigest, hprocessed, hbuflen, hbuffered⟩
    exact ⟨hphase, halg, hdigest, by rw [hprocessed, Nat.mul_comm, zero_add], hbuflen,
      by rw [← hbuflen, hbuffered, Nat.mul_comm]⟩

theorem AbsorbedFrom.buflen_lt {a : Algorithm} {h : Digest} {p : Word64} {msg : List Byte} {s : State}
    (hs : AbsorbedFrom a h p msg s) : s.buflen.toNat < a.chunkBytes := by
  rw [hs.buflen]
  exact Nat.mod_lt _ (chunkBytes_pos a)

/-- A state with less than a chunk held is reached from its own digest and count by the bytes it holds. -/
theorem absorbedFrom_held {a : Algorithm} {held : List Byte} {s : State} (hp : s.phase = .active) (ha : s.alg = a.tag)
    (hlt : s.buflen.toNat < a.chunkBytes) (hheld : s.buf.readBytes 0 s.buflen.toNat = .ok held) :
    AbsorbedFrom a s.h s.processed held s := by
  have hlen : held.length = s.buflen.toNat := ((Memory.readBytes_ok _ _ _ _).1 hheld).1
  have hdiv : held.length / a.chunkBytes = 0 := Nat.div_eq_of_lt (hlen ▸ hlt)
  exact ⟨hp, ha, by rw [hdiv, compressChunks], by simp [hdiv], by rw [hlen, Nat.mod_eq_of_lt hlt], by simp [hdiv, hheld]⟩

/-- Bytes absorbed in two parts: `s` from `h` and `p`, then `t` from what `s` has, by the bytes `s` holds and more. -/
theorem AbsorbedFrom.trans {a : Algorithm} {h : Digest} {p : Word64} {msg data : List Byte} {s t : State}
    (hs : AbsorbedFrom a h p msg s)
    (ht : AbsorbedFrom a s.h s.processed (msg.drop (msg.length / a.chunkBytes * a.chunkBytes) ++ data) t) :
    AbsorbedFrom a h p (msg ++ data) t := by
  have hwhole := length_take_wholeChunks a msg
  have hfold := compressChunks_take_wholeChunks a h msg
  generalize hq : msg.length / a.chunkBytes = q at hwhole hfold ht
  have hmsg : msg ++ data = msg.take (q * a.chunkBytes) ++ (msg.drop (q * a.chunkBytes) ++ data) := by
    rw [← List.append_assoc, List.take_append_drop]
  generalize msg.drop (q * a.chunkBytes) ++ data = rest at hmsg ht
  have hlen : (msg ++ data).length = rest.length + q * a.chunkBytes := by
    rw [hmsg, List.length_append, hwhole, Nat.add_comm]
  have hdiv : (msg ++ data).length / a.chunkBytes * a.chunkBytes =
      q * a.chunkBytes + rest.length / a.chunkBytes * a.chunkBytes := by
    rw [hlen, Nat.add_mul_div_right _ _ (chunkBytes_pos a), Nat.add_mul, Nat.add_comm]
  refine ⟨ht.phase, ht.alg, ?_, ?_, ?_, ?_⟩
  · rw [ht.digest, hs.digest, hmsg, compressChunks_whole_append hwhole, hq, hfold]
  · rw [ht.processed, hs.processed, hq, hdiv, BitVec.ofNat_add, BitVec.add_assoc]
  · rw [ht.buflen, hlen, Nat.add_mul_mod_self_right]
  · rw [ht.buffered, hdiv, hmsg, ← List.drop_drop, List.drop_left' hwhole]

/-- The same bytes absorbed from the same digest and count leave the same computation (R104). -/
theorem AbsorbedFrom.sameComputation {a : Algorithm} {h : Digest} {p : Word64} {msg : List Byte} {s t : State}
    (hs : AbsorbedFrom a h p msg s) (ht : AbsorbedFrom a h p msg t) : SameComputation s t := by
  have hbuflen : s.buflen = t.buflen := BitVec.eq_of_toNat_eq (hs.buflen.trans ht.buflen.symm)
  refine ⟨hs.phase.trans ht.phase.symm, hs.alg.trans ht.alg.symm, hs.digest.trans ht.digest.symm,
    hs.processed.trans ht.processed.symm, hbuflen, fun i hi => ?_⟩
  have hreads := ((Memory.readBytes_ok _ _ _ _).1 hs.buffered).2 i hi
  have hreadt := ((Memory.readBytes_ok _ _ _ _).1 ht.buffered).2 i (hbuflen ▸ hi)
  rw [Nat.zero_add] at hreads hreadt
  rw [hreads, hreadt]

/-! ### The body of UPDATE -/

/-- `t` is `s` but for the computation: H, PROCESSED, BUFLEN and BUF. -/
def SameControl (s t : State) : Prop :=
  t = { s with h := t.h, processed := t.processed, buflen := t.buflen, buf := t.buf }

theorem readBytes_writeBytes_append {m : Memory} {n : Nat} {held : List Byte} (data : List Byte)
    (hheld : m.readBytes 0 n = .ok held) : (m.writeBytes n data).readBytes 0 (n + data.length) = .ok (held ++ data) := by
  refine Memory.readBytes_append _ 0 n data.length held data ?_ ?_
  · rw [← hheld]
    exact Memory.readBytes_congr _ _ _ _ fun i hi => Memory.read_writeBytes_outside _ _ _ _ (.inl (by omega))
  · rw [Nat.zero_add]
    exact Memory.readBytes_writeBytes m n data

/-- The body of UPDATE where it completes a chunk (R102). -/
theorem updateBody_of_long {a : Algorithm} {data held : List Byte} {s : State} (ha : s.alg = a.tag)
    (hlt : s.buflen.toNat < a.chunkBytes) (hheld : s.buf.readBytes 0 s.buflen.toNat = .ok held)
    (hn : a.chunkBytes ≤ s.buflen.toNat + data.length) : updateBody data s = .ok (completedState a held data s) :=
  updateBody_ok.2 ⟨a, by rw [ha, ofTag_tag], .inr ⟨hn, Nat.le_of_lt hlt, held, hheld, rfl⟩⟩

/-- After the completing branch, what it held and the payload have been absorbed. -/
theorem completedState_absorbedFrom {a : Algorithm} {data held : List Byte} {s : State} (hp : s.phase = .active)
    (ha : s.alg = a.tag) (hheld : s.buf.readBytes 0 s.buflen.toNat = .ok held) :
    AbsorbedFrom a s.h s.processed (held ++ data) (completedState a held data s) := by
  have hlen : (held ++ data).length = s.buflen.toNat + data.length := by
    rw [List.length_append, ((Memory.readBytes_ok _ _ _ _).1 hheld).1]
  have hbuflen : (completedState a held data s).buflen.toNat =
      ((held ++ data).drop ((held ++ data).length / a.chunkBytes * a.chunkBytes)).length := by
    rw [completedState, hlen]
    exact toNat_ofNat_of_lt_chunkBytes (by rw [← hlen, length_drop_wholeChunks]; exact Nat.mod_lt _ (chunkBytes_pos a))
  refine ⟨hp, ha, by rw [completedState, hlen], by rw [completedState, hlen], ?_, ?_⟩
  · rw [hbuflen, length_drop_wholeChunks]
  · rw [hbuflen, completedState, hlen]
    exact Memory.readBytes_writeBytes _ _ _

/-- The state after UPDATE has stored `data` behind the held bytes (R101). -/
def bufferedState (data : List Byte) (s : State) : State :=
  { s with buf := s.buf.writeBytes s.buflen.toNat data, buflen := BitVec.ofNat 8 (s.buflen.toNat + data.length) }

/-- After the buffering branch too. -/
theorem bufferedState_absorbedFrom {a : Algorithm} {data held : List Byte} {s : State} (hp : s.phase = .active)
    (ha : s.alg = a.tag) (hn : s.buflen.toNat + data.length < a.chunkBytes)
    (hheld : s.buf.readBytes 0 s.buflen.toNat = .ok held) :
    AbsorbedFrom a s.h s.processed (held ++ data) (bufferedState data s) := by
  have hbuflen : (bufferedState data s).buflen.toNat = s.buflen.toNat + data.length := toNat_ofNat_of_lt_chunkBytes hn
  refine absorbedFrom_held (s := bufferedState data s) hp ha (by rwa [hbuflen]) ?_
  rw [hbuflen]
  exact readBytes_writeBytes_append data hheld

/-- In ACTIVE with less than a chunk held, UPDATE absorbs its payload: both branches of R100 do the same to the computation. -/
theorem updateBody_absorbs {a : Algorithm} {held : List Byte} {s : State} (data : List Byte) (hp : s.phase = .active)
    (ha : s.alg = a.tag) (hlt : s.buflen.toNat < a.chunkBytes) (hheld : s.buf.readBytes 0 s.buflen.toNat = .ok held) :
    ∃ t, updateBody data s = .ok t ∧ SameControl s t ∧ AbsorbedFrom a s.h s.processed (held ++ data) t := by
  by_cases hn : s.buflen.toNat + data.length < a.chunkBytes
  · exact ⟨bufferedState data s, updateBody_of_short ha hn, rfl, bufferedState_absorbedFrom hp ha hn hheld⟩
  · exact ⟨completedState a held data s, updateBody_of_long ha hlt hheld (Nat.le_of_not_lt hn), rfl,
      completedState_absorbedFrom hp ha hheld⟩

/-- UPDATE with its payload presented consumes its word and its payload and absorbs the payload. -/
theorem exec_update_absorbs {a : Algorithm} {h : Digest} {p : Word64} {msg : List Byte} {n : Nat} {s : State}
    (hs : AbsorbedFrom a h p msg s) (hn : n ≤ s.din.length) :
    ∃ t, exec (.update n) s = .next t ∧ SameControl (dropPayload n (retire s)) t ∧
      AbsorbedFrom a h p (msg ++ s.din.take n) t := by
  obtain ⟨t, hbody, hframe, habs⟩ := updateBody_absorbs (s := dropPayload n (retire s)) (s.din.take n) hs.phase hs.alg
    hs.buflen_lt hs.buffered
  exact ⟨t, exec_update_of_active hs.phase hn hbody, hframe, hs.trans habs⟩

/-! ### CREATE and UPDATE (R30) -/

theorem exec_create_absorbs {s : State} (a : Algorithm) (hp : s.phase ≠ .faulted) :
    exec (.create a.tag) s = .next (beginComputation a (retire s)) ∧
      AbsorbedFrom a (initialVector a) 0 [] (beginComputation a (retire s)) :=
  ⟨exec_create_next.2 (.inr (.inr ⟨hp, a, ofTag_tag a, rfl⟩)), by constructor <;> simp [compressChunks, Memory.readBytes]⟩

/-- C divides `2^64`, so a count of whole chunks is a multiple of C after the wrap. -/
theorem mod_two_pow_mod_chunkBytes (a : Algorithm) (n : Nat) : n % 2 ^ 64 % a.chunkBytes = n % a.chunkBytes :=
  Nat.mod_mod_of_dvd _ (by cases a <;> decide)

theorem absorbed_counts {a : Algorithm} {msg : List Byte} {s : State} (hs : Absorbed a msg s) :
    s.processed.toNat % a.chunkBytes = 0 ∧
      (s.processed.toNat + s.buflen.toNat) % 2 ^ 64 = msg.length % 2 ^ 64 := by
  have hsplit := Nat.div_add_mod msg.length a.chunkBytes
  rw [hs.processed, hs.buflen, BitVec.toNat_ofNat]
  refine ⟨?_, ?_⟩
  · rw [mod_two_pow_mod_chunkBytes, Nat.mul_mod_right]
  · rw [Nat.mod_add_mod, hsplit]

/-- Settles O39: CREATE begins with the empty message, and UPDATE absorbs whatever branch it takes. -/
theorem updateAbsorbsItsPayload : Obligations.UpdateAbsorbsItsPayload := by
  unfold Obligations.UpdateAbsorbsItsPayload
  refine ⟨fun s a hp => ?create, fun s a msg n hs hn => ?update, fun s a msg hs => ?items⟩
  case create =>
    obtain ⟨hexec, habs⟩ := exec_create_absorbs a hp
    exact ⟨_, hexec, absorbed_iff.2 habs⟩
  case update =>
    obtain ⟨t, hexec, -, habs⟩ := exec_update_absorbs (absorbed_iff.1 hs) hn
    exact ⟨t, hexec, absorbed_iff.2 habs⟩
  case items => exact ⟨(absorbed_iff.1 hs).buflen_lt, absorbed_counts hs⟩

/-! ### The completing branch and the UPDATE of no bytes (R102, R103, R105) -/

/-- What the completing branch leaves of BUF: every byte above the rest it stores and outside the chunk it completes. -/
theorem completedState_read_outside {a : Algorithm} {data held : List Byte} {s : State} {i : Nat}
    (hheld : s.buf.readBytes 0 s.buflen.toNat = .ok held) (hlt : s.buflen.toNat < a.chunkBytes)
    (hrest : (s.buflen.toNat + data.length) % a.chunkBytes ≤ i) (hi : i < s.buflen.toNat ∨ a.chunkBytes ≤ i) :
    (completedState a held data s).buf.read i = s.buf.read i := by
  have hlen : (held ++ data).length = s.buflen.toNat + data.length := by
    rw [List.length_append, ((Memory.readBytes_ok _ _ _ _).1 hheld).1]
  have hstored := length_drop_wholeChunks a (held ++ data)
  rw [hlen] at hstored
  rw [completedState, Memory.read_writeBytes_outside _ _ _ _ (.inr (by omega)),
    Memory.read_writeBytes_outside _ _ _ _ (by rw [List.length_take]; omega)]

/-- Settles O22: the completing branch in closed form, and the bytes of BUF by the laws of `writeBytes`. -/
theorem updateCompressesEveryCompletedChunk : Obligations.UpdateCompressesEveryCompletedChunk := by
  unfold Obligations.UpdateCompressesEveryCompletedChunk
  intro s a n held hp ha hn hlt hheld hge
  have htake : (s.din.take n).length = n := List.length_take_of_le hn
  have hlen : (held ++ s.din.take n).length = s.buflen.toNat + n := by
    rw [List.length_append, htake, ((Memory.readBytes_ok _ _ _ _).1 hheld).1]
  have habs : AbsorbedFrom a s.h s.processed (held ++ s.din.take n)
      (completedState a held (s.din.take n) (dropPayload n (retire s))) :=
    completedState_absorbedFrom (s := dropPayload n (retire s)) hp ha hheld
  have hexec := exec_update_of_active hp hn
    (updateBody_of_long (s := dropPayload n (retire s)) (data := s.din.take n) ha hlt hheld (by rwa [htake]))
  refine ⟨_, hexec, ?next, ?buflen, ?rest, fun i hi hout => ?frame⟩
  case next =>
    simp only [completedState, htake]
    rfl
  case buflen => rw [habs.buflen, hlen]
  case rest => rw [habs.buffered, hlen]
  case frame =>
    refine completedState_read_outside (s := dropPayload n (retire s)) hheld hlt ?_ hout
    rwa [habs.buflen, hlen, ← htake] at hi

/-- Settles O23: in ACTIVE the buffering branch on no byte, else the phase check. -/
theorem zeroLengthUpdateChangesNothing : Obligations.ZeroLengthUpdateChangesNothing := by
  unfold Obligations.ZeroLengthUpdateChangesNothing
  refine fun s => ⟨fun a hp ha hlt => ?active, fun hp => ?idle, fun hp => ?done⟩
  case active =>
    have hbody := updateBody_of_short (s := dropPayload 0 (retire s)) (data := []) ha hlt
    rw [exec_update_of_active hp (Nat.zero_le _) hbody]
    simp [Memory.writeBytes, dropPayload, retire]
  case idle => exact exec_update_next.2 (.inr ⟨Nat.zero_le _, inActivePhase_ok.2 (.inr (.inl ⟨hp, rfl⟩))⟩)
  case done => exact exec_update_next.2 (.inr ⟨Nat.zero_le _, inActivePhase_ok.2 (.inr (.inr (.inl ⟨hp, rfl⟩)))⟩)

end Sys2Proof.Proofs.Absorption

/-! ## Proofs of the statements about whole messages: where payloads are cut (41_chunk_buffer.md R104), the digest of what has been absorbed
(46_padding_finalizer.md R150 to R153) and a session (20_memory.md R63, 30_encoding.md R85) -/

namespace Sys2Proof.Proofs.Sessions

open Sys2Proof Sys2Proof.Machine
open Sys2Proof.Proofs.StateRules (step_of_legal_word)
open Sys2Proof.Proofs.Finalizer (bitLength_toNat exec_digest_of_active)
open Sys2Proof.Proofs.Absorption (AbsorbedFrom absorbed_iff absorbedFrom_held exec_create_absorbs exec_update_absorbs
  compressChunks_whole_append compressChunks_take_wholeChunks length_take_wholeChunks length_drop_wholeChunks)

/-! ### One word of a session, and a run of UPDATEs -/

/-- `t` follows `s` between commands with `c` and `d` left on the streams and nothing emitted or raised. -/
structure Leaves (c : List CommandWord) (d : List Byte) (s t : State) : Prop where
  cmd : t.cmd = c
  din : t.din = d
  dout : t.dout = s.dout
  cause : t.cause = s.cause
  rst : t.rst = s.rst
  uop : t.uop = s.uop

theorem Leaves.trans {c c' : List CommandWord} {d d' : List Byte} {s t u : State} (h : Leaves c d s t)
    (h' : Leaves c' d' t u) : Leaves c' d' s u :=
  ⟨h'.cmd, h'.din, h'.dout.trans h.dout, h'.cause.trans h.cause, h'.rst.trans h.rst, h'.uop.trans h.uop⟩

/-- An UPDATE word with its payload at the head of the streams is one step, which absorbs the payload. -/
theorem step_update_absorbs {a : Algorithm} {h : Digest} {p : Word64} {msg data d : List Byte} {c : List CommandWord} {s : State}
    (hs : AbsorbedFrom a h p msg s) (hrst : s.rst = false) (huop : s.uop = none) (hlt : data.length < 2 ^ 24)
    (hcmd : s.cmd = updateWord data.length :: c) (hdin : s.din = data ++ d) :
    ∃ t, step s = .next t ∧ AbsorbedFrom a h p (msg ++ data) t ∧ Leaves c d s t := by
  obtain ⟨t, hexec, hframe, habs⟩ := exec_update_absorbs (n := data.length) hs (by simp [hdin])
  rw [hdin, List.take_left] at habs
  refine ⟨t, (step_of_legal_word hrst huop hcmd (decodeCommand_updateWord hlt)).trans hexec, habs, ?_⟩
  rw [hframe]
  constructor <;> simp [hcmd, hdin]

/-- A run over the UPDATE words of `parts` absorbs their concatenation. -/
theorem run_updates_absorb {a : Algorithm} {h : Digest} {p : Word64} {d : List Byte} {c : List CommandWord}
    (parts : List (List Byte)) {msg : List Byte} {s : State} (hs : AbsorbedFrom a h p msg s) (hrst : s.rst = false)
    (huop : s.uop = none) (hlt : ∀ q ∈ parts, q.length < 2 ^ 24)
    (hcmd : s.cmd = parts.map (fun q => updateWord q.length) ++ c) (hdin : s.din = parts.flatten ++ d) :
    ∃ t, run parts.length s = .next t ∧ AbsorbedFrom a h p (msg ++ parts.flatten) t ∧ Leaves c d s t := by
  induction parts generalizing msg s with
  | nil => exact ⟨s, run_zero s, by simpa using hs, hcmd, hdin, rfl, rfl, rfl, rfl⟩
  | cons q parts ih =>
    rw [List.flatten_cons, List.append_assoc] at hdin
    obtain ⟨t, hstep, habs, hleft⟩ :=
      step_update_absorbs hs hrst huop (hlt q List.mem_cons_self) hcmd hdin
    obtain ⟨u, hrun, habs', hleft'⟩ := ih habs (hleft.rst.trans hrst) (hleft.uop.trans huop)
      (fun q' hq' => hlt q' (List.mem_cons_of_mem q hq')) hleft.cmd hleft.din
    refine ⟨u, (run_succ_of_step hstep).trans hrun, ?_, hleft.trans hleft'⟩
    rwa [List.flatten_cons, ← List.append_assoc]

/-! ### Where payloads are cut (R104) -/

theorem step_of_run_one {s t : State} (h : run 1 s = .next t) : step s = .next t := by
  cases hs : step s with
  | next u => rwa [run_succ_of_step hs] at h
  | fault e => simp [run_succ, hs] at h
  | refused e => simp [run_succ, hs] at h

/-- Settles O24: however `x ++ y` is cut, its UPDATEs absorb `x ++ y` from the same digest and count. -/
theorem chunkBoundariesDoNotMatter : Obligations.ChunkBoundariesDoNotMatter := by
  unfold Obligations.ChunkBoundariesDoNotMatter
  intro s a x y d c hp ha hrst huop hlt hwritten hshort
  obtain ⟨held, hheld⟩ := Memory.readBytes_of_isSome s.buf 0 s.buflen.toNat (by simpa [State.bytesWritten] using hwritten)
  have hcut (parts : List (List Byte)) (hparts : parts.flatten = x ++ y) (words : List CommandWord)
      (hwords : words = parts.map (fun q => updateWord q.length) ++ c) :
      ∃ t, run parts.length { s with cmd := words, din := x ++ y ++ d } = .next t ∧
        AbsorbedFrom a s.h s.processed (held ++ (x ++ y)) t ∧ t.cmd = c ∧ t.din = d := by
    have hmem : ∀ q ∈ parts, q.length < 2 ^ 24 := fun q hq =>
      Nat.lt_of_le_of_lt (hparts ▸ (List.sublist_flatten_of_mem hq).length_le) hshort
    obtain ⟨t, hrun, habs, hleft⟩ := run_updates_absorb parts (s := { s with cmd := words, din := x ++ y ++ d })
      (absorbedFrom_held hp ha hlt hheld) hrst huop hmem hwords (by rw [hparts])
    exact ⟨t, hrun, hparts ▸ habs, hleft.cmd, hleft.din⟩
  obtain ⟨one, hone, habs1, hcmd1, hdin1⟩ := hcut [x ++ y] (by simp) _ rfl
  obtain ⟨two, htwo, habs2, hcmd2, hdin2⟩ := hcut [x, y] (by simp) _ rfl
  obtain ⟨each, heach, habs3, hcmd3, hdin3⟩ := hcut ((x ++ y).map fun b => [b])
    (by rw [← List.flatMap_def, List.flatMap_singleton'])
    ((x ++ y).map (fun _ => updateWord 1) ++ c) (by rw [List.map_map]; rfl)
  refine ⟨one, two, each, ?_, htwo, by rwa [List.length_map] at heach, habs1.sameComputation habs2,
    habs1.sameComputation habs3, hcmd1, hcmd2, hcmd3, hdin1, hdin2, hdin3⟩
  exact step_of_run_one hone

/-! ### The digest of what has been absorbed (R150 to R153) -/

/-- Padding a message is padding what its whole chunks leave: the zeros depend on its length modulo C only. -/
theorem padTail_wholeChunks (a : Algorithm) (msg : List Byte) (L : Word64) :
    padTail a msg L = msg.take (msg.length / a.chunkBytes * a.chunkBytes) ++
      padTail a (msg.drop (msg.length / a.chunkBytes * a.chunkBytes)) L := by
  simp only [padTail, length_drop_wholeChunks, ← padZeros_mod, ← List.append_assoc, List.take_append_drop]

/-- The bit length DIGEST computes is that of the message absorbed, modulo `2^64` (R151). -/
theorem bitLength_of_absorbed {a : Algorithm} {msg : List Byte} {s : State} (hs : Absorbed a msg s) :
    bitLength s = BitVec.ofNat 64 (8 * msg.length) := by
  apply BitVec.eq_of_toNat_eq
  rw [bitLength_toNat, (Absorption.absorbed_counts hs).2, BitVec.toNat_ofNat]
  omega

/-- What DIGEST makes of a state that has absorbed a message. -/
theorem exec_digest_of_absorbed {a : Algorithm} {msg : List Byte} {s : State} (hs : Absorbed a msg s) :
    ∃ t, exec .digest s = .next t ∧ t.dout = s.dout ++ digestOf a msg ∧ t.phase = .done ∧ t.cause = s.cause ∧
      t.cmd = s.cmd.tail ∧ t.din = s.din := by
  have hfrom := absorbed_iff.1 hs
  refine ⟨_, exec_digest_of_active hs.phase hs.alg (Nat.le_of_lt hfrom.buflen_lt) hfrom.buffered, ?_, rfl, rfl, rfl, rfl⟩
  have hbits : bitLength (retire s) = BitVec.ofNat 64 (8 * msg.length) :=
    show bitLength s = _ from bitLength_of_absorbed hs
  simp only [digestedState, digestOf, hbits, retire_h, retire_dout, hfrom.digest]
  rw [padTail_wholeChunks a msg, compressChunks_whole_append (length_take_wholeChunks a msg), compressChunks_take_wholeChunks]

/-- Settles O40: the tail DIGEST pads is the end of the message padded as a whole. -/
theorem digestOfAbsorbedMessage : Obligations.DigestOfAbsorbedMessage := by
  unfold Obligations.DigestOfAbsorbedMessage
  intro s a msg hs
  obtain ⟨t, hexec, hdout, hdone, -⟩ := exec_digest_of_absorbed hs
  exact ⟨t, hexec, hdout, hdone⟩

/-! ### A session (R63, R85) -/

/-- Settles O41: CREATE begins with the empty message, the UPDATEs absorb the payloads, DIGEST emits the digest. -/
theorem sessionEmitsDigestOfConcatenation : Obligations.SessionEmitsDigestOfConcatenation := by
  unfold Obligations.SessionEmitsDigestOfConcatenation
  intro a parts s c d hp hrst huop hlt hcmd hdin
  obtain ⟨hcreate, hbegun⟩ := exec_create_absorbs a hp
  have hstep := (step_of_legal_word hrst huop hcmd (decodeCommand_createWord a.tag)).trans hcreate
  obtain ⟨t, hrun, habs, hleft⟩ := run_updates_absorb parts hbegun hrst huop hlt (c := digestWord :: c) (by simp [hcmd]) hdin
  obtain ⟨u, hdigest, hdout, hdone, hcause, hcmd', hdin'⟩ := exec_digest_of_absorbed (absorbed_iff.2 habs)
  have hlast : step t = .next u :=
    (step_of_legal_word (hleft.rst.trans hrst) (hleft.uop.trans huop) hleft.cmd decodeCommand_digestWord).trans hdigest
  refine ⟨u, ?run, ?dout, hdone, hcause.trans hleft.cause, ?cmd, hdin'.trans hleft.din⟩
  case run =>
    rw [show parts.length + 2 = parts.length + 1 + 1 from rfl, run_succ_of_step hstep, run_add hrun,
      run_succ_of_step hlast, run_zero]
  case dout =>
    rw [hdout, hleft.dout]
    rfl
  case cmd => rw [hcmd', hleft.cmd, List.tail_cons]

end Sys2Proof.Proofs.Sessions

/-! ## Proofs of the statements about what a step writes: the streams (30_encoding.md R80), the control state (10_state.md sections 2 to 4)
and BUF in its canonical form (20_memory.md R53) -/

namespace Sys2Proof.Proofs.Writers

open Sys2Proof Sys2Proof.Machine
open Sys2Proof.Proofs.StateRules (step_of_legal_word step_of_illegal_word illegalWord_of_faulted illegalWord_of_not_faulted
  ActiveOnlyRow exec_update_row exec_digest_row)
open Sys2Proof.Proofs.Exceptions (afterWord payloadLength_of_decode payloadLength_of_decode_error retire_eq_afterWord
  dropPayload_retire_eq_afterWord exec_uop_phase_cause)

/-! ### The ports (R70, R71, R80) -/

/-- `t` has the ports and the requests of `s`: the two input streams, the reset request, the record of an UPDATE in progress and the invocation. -/
structure SamePorts (s t : State) : Prop where
  cmd : t.cmd = s.cmd
  din : t.din = s.din
  rst : t.rst = s.rst
  begun : t.begun = s.begun
  uop : t.uop = s.uop

theorem SamePorts.refl (s : State) : SamePorts s s := ⟨rfl, rfl, rfl, rfl, rfl⟩

theorem updateBody_ports {data : List Byte} {s t : State} (h : updateBody data s = .ok t) : SamePorts s t := by
  obtain ⟨a, -, ⟨-, rfl⟩ | ⟨-, -, held, -, rfl⟩⟩ := updateBody_ok.1 h
  · exact ⟨rfl, rfl, rfl, rfl, rfl⟩
  · exact ⟨rfl, rfl, rfl, rfl, rfl⟩

theorem digestBody_ports {s t : State} (h : digestBody s = .ok t) : SamePorts s t := by
  obtain ⟨a, held, -, -, -, rfl⟩ := digestBody_ok.1 h
  exact ⟨rfl, rfl, rfl, rfl, rfl⟩

theorem inActivePhase_ports {body : State → Except Fault State} {s t : State} (hbody : body s = .ok t → SamePorts s t)
    (h : inActivePhase body s = .ok t) : SamePorts s t := by
  obtain ⟨-, rfl⟩ | ⟨-, rfl⟩ | ⟨-, rfl⟩ | ⟨-, hok⟩ := inActivePhase_ok.1 h
  · exact .refl _
  · exact ⟨rfl, rfl, rfl, rfl, rfl⟩
  · exact ⟨rfl, rfl, rfl, rfl, rfl⟩
  · exact hbody hok

theorem exec_create_ports {tag : BitVec 8} {s t : State} (h : exec (.create tag) s = .next t) : SamePorts (retire s) t := by
  obtain ⟨-, rfl⟩ | ⟨-, -, rfl⟩ | ⟨-, a, -, rfl⟩ := exec_create_next.1 h
  · exact .refl _
  · exact ⟨rfl, rfl, rfl, rfl, rfl⟩
  · exact ⟨rfl, rfl, rfl, rfl, rfl⟩

theorem exec_digest_ports {s t : State} (h : exec .digest s = .next t) : SamePorts (retire s) t :=
  inActivePhase_ports digestBody_ports (exec_digest_next.1 h)

theorem illegalWord_ports (s : State) : SamePorts (retire s) (illegalWord s) := by
  by_cases hp : s.phase = .faulted
  · rw [illegalWord_of_faulted hp]
    exact .refl _
  · rw [illegalWord_of_not_faulted hp]
    exact ⟨rfl, rfl, rfl, rfl, rfl⟩

/-- What a step on a presented word does to the ports: an UPDATE word waits, or the word and its payload are consumed; then the record of an
UPDATE in progress is down, or is that of `s` and the word no UPDATE. -/
theorem step_word_ports {s t : State} {word : CommandWord} {rest : List CommandWord} (hrst : s.rst = false) (huop : s.uop = none)
    (hcmd : s.cmd = word :: rest) (h : step s = .next t) :
    (s.din.length < payloadLength word ∧ opField word = 0x02#8 ∧ t = awaitPayload s) ∨
    (payloadLength word ≤ s.din.length ∧
      ∃ b, SamePorts (afterWord word rest b s) t ∧ (b = true → s.begun = true ∧ opField word ≠ 0x02#8)) := by
  cases hdec : decode (.cmd word) with
  | error e =>
    have hnone := payloadLength_of_decode_error hdec
    have hop : opField word ≠ 0x02#8 := fun hop => by simp [decode, decodeCommand, hop] at hdec
    rw [step_of_illegal_word hrst huop hcmd hdec, Host.Outcome.next.injEq] at h
    subst h
    exact .inr ⟨by omega, s.begun, retire_eq_afterWord hcmd hnone ▸ illegalWord_ports s, fun hb => ⟨hb, hop⟩⟩
  | ok i =>
    rw [step_of_legal_word hrst huop hcmd hdec] at h
    have hpay := payloadLength_of_decode hdec
    obtain ⟨hop, -, rfl⟩ | ⟨hop, rfl⟩ | ⟨hop, -, rfl⟩ := decodeCommand_ok.1 hdec
    · exact .inr ⟨by simp [hpay, Laws.EncodedPayload.owned], s.begun, retire_eq_afterWord hcmd hpay ▸ exec_create_ports h,
        fun hb => ⟨hb, by simp [hop]⟩⟩
    · change payloadLength word = (argField word).toNat at hpay
      rw [← hpay] at h
      obtain ⟨hlt, rfl⟩ | ⟨hle, hok⟩ := exec_update_next.1 h
      · exact .inl ⟨hlt, hop, rfl⟩
      · rw [dropPayload_retire_eq_afterWord hcmd] at hok
        exact .inr ⟨hle, false, inActivePhase_ports updateBody_ports hok, fun hb => by cases hb⟩
    · exact .inr ⟨by simp [hpay, Laws.EncodedPayload.owned], s.begun, retire_eq_afterWord hcmd hpay ▸ exec_digest_ports h,
        fun hb => ⟨hb, by simp [hop]⟩⟩

/-! ### The computation: ALG, PROCESSED, BUFLEN, BUF and H -/

/-- Of the computation of `s`, `t` writes a part only where one of the four events that write it has taken place. -/
structure WritesOnlyBy (create update digest compress : Prop) (s t : State) : Prop where
  alg : t.alg = s.alg ∨ create
  counts : (t.processed = s.processed ∧ t.buflen = s.buflen) ∨ create ∨ update
  buf : t.buf = s.buf ∨ update
  h : t.h = s.h ∨ create ∨ update ∨ digest ∨ compress

/-- A computation that is kept is written by no event. -/
theorem writesOnlyBy_of_kept {create update digest compress : Prop} {s t : State} (halg : t.alg = s.alg)
    (hprocessed : t.processed = s.processed) (hbuflen : t.buflen = s.buflen) (hbuf : t.buf = s.buf) (hh : t.h = s.h) :
    WritesOnlyBy create update digest compress s t :=
  ⟨.inl halg, .inl ⟨hprocessed, hbuflen⟩, .inl hbuf, .inl hh⟩

/-- The event that writes ALG: a CREATE word of a recognised tag begins a computation (R90). -/
def BeginsComputation (s t : State) : Prop :=
  ∃ (a : Algorithm) (rest : List CommandWord), s.cmd = createWord a.tag :: rest ∧ t.alg = a.tag ∧ t.phase = .active

/-- An UPDATE word in ACTIVE, no micro-operation before it (R100). -/
def UpdatesActive (s : State) : Prop :=
  s.phase = .active ∧ s.uop = none ∧ ∃ (word : CommandWord) (rest : List CommandWord) (n : Nat),
    s.cmd = word :: rest ∧ decode (.cmd word) = .ok (.update n)

/-- A DIGEST word in ACTIVE (R150). -/
def DigestsActive (s : State) : Prop := s.phase = .active ∧ ∃ rest, s.cmd = digestWord :: rest

/-- An invoked COMPRESS (R79). -/
def RunsCompress (s : State) : Prop := ∃ chunk, s.uop = some (.compress chunk)

/-- The word of CREATE with a tag is the only one (R75). -/
theorem eq_createWord {word : CommandWord} {tag : BitVec 8} (h : decodeCommand word = .ok (.create tag)) : word = createWord tag :=
  Encoding.decodeCommand_injective h (decodeCommand_createWord tag)

theorem exec_uop_writes {kind : UopKind} {a : Algorithm} {s t : State} (h : exec (uopOf kind a) s = .next t)
    {create update digest : Prop} : WritesOnlyBy create update digest (RunsCompress s) s t := by
  cases kind with
  | compress =>
    obtain ⟨chunk, hu, -, rfl⟩ := exec_compress_next.1 h
    exact ⟨.inl rfl, .inl ⟨rfl, rfl⟩, .inl rfl, .inr (.inr (.inr (.inr ⟨chunk, hu⟩)))⟩
  | pad =>
    obtain ⟨_, _, _, -, -, rfl⟩ := exec_pad_next.1 h
    exact writesOnlyBy_of_kept rfl rfl rfl rfl rfl
  | serialize =>
    obtain ⟨_, -, -, rfl⟩ := exec_serialize_next.1 h
    exact writesOnlyBy_of_kept rfl rfl rfl rfl rfl

theorem exec_create_writes {tag : BitVec 8} {s t : State} {rest : List CommandWord} (hcmd : s.cmd = createWord tag :: rest)
    (h : exec (.create tag) s = .next t) {update digest compress : Prop} :
    WritesOnlyBy (BeginsComputation s t) update digest compress s t := by
  obtain ⟨-, rfl⟩ | ⟨-, -, rfl⟩ | ⟨-, a, htag, rfl⟩ := exec_create_next.1 h
  · exact writesOnlyBy_of_kept rfl rfl rfl rfl rfl
  · exact writesOnlyBy_of_kept rfl rfl rfl rfl rfl
  · have hbegins : BeginsComputation s (beginComputation a (retire s)) :=
      ⟨a, rest, ofTag_eq_some htag ▸ hcmd, rfl, rfl⟩
    exact ⟨.inr hbegins, .inr (.inl hbegins), .inl rfl, .inr (.inl hbegins)⟩

/-- A command that only ACTIVE accepts writes nothing of the computation but what its body writes. -/
theorem inActivePhase_writes {create update digest compress : Prop} {body : State → Except Fault State} {s t : State}
    (hbody : s.phase = .active → body s = .ok t → WritesOnlyBy create update digest compress s t)
    (h : inActivePhase body s = .ok t) : WritesOnlyBy create update digest compress s t := by
  obtain ⟨-, rfl⟩ | ⟨-, rfl⟩ | ⟨-, rfl⟩ | ⟨hp, hok⟩ := inActivePhase_ok.1 h
  · exact writesOnlyBy_of_kept rfl rfl rfl rfl rfl
  · exact writesOnlyBy_of_kept rfl rfl rfl rfl rfl
  · exact writesOnlyBy_of_kept rfl rfl rfl rfl rfl
  · exact hbody hp hok

theorem updateBody_alg {data : List Byte} {s t : State} (h : updateBody data s = .ok t) : t.alg = s.alg := by
  obtain ⟨a, -, ⟨-, rfl⟩ | ⟨-, -, held, -, rfl⟩⟩ := updateBody_ok.1 h
  · rfl
  · rfl

theorem exec_update_writes {n : Nat} {s t : State} (h : exec (.update n) s = .next t) {create digest compress : Prop} :
    WritesOnlyBy create (s.phase = .active) digest compress s t := by
  obtain ⟨-, rfl⟩ | ⟨-, hok⟩ := exec_update_next.1 h
  · exact writesOnlyBy_of_kept rfl rfl rfl rfl rfl
  · have hw : WritesOnlyBy create (s.phase = .active) digest compress (dropPayload n (retire s)) t :=
      inActivePhase_writes (fun hp hbody => ⟨.inl (updateBody_alg hbody), .inr (.inr hp), .inr hp, .inr (.inr (.inl hp))⟩) hok
    exact ⟨hw.alg, hw.counts, hw.buf, hw.h⟩

theorem exec_digest_writes {s t : State} (h : exec .digest s = .next t) {create update compress : Prop} :
    WritesOnlyBy create update (s.phase = .active) compress s t := by
  have hw : WritesOnlyBy create update (s.phase = .active) compress (retire s) t := by
    refine inActivePhase_writes (fun hp hbody => ?_) (exec_digest_next.1 h)
    obtain ⟨a, held, -, -, -, rfl⟩ := digestBody_ok.1 hbody
    exact ⟨.inl rfl, .inl ⟨rfl, rfl⟩, .inl rfl, .inr (.inr (.inr (.inl hp)))⟩
  exact ⟨hw.alg, hw.counts, hw.buf, hw.h⟩

theorem illegalWord_writes (s : State) {create update digest compress : Prop} :
    WritesOnlyBy create update digest compress s (illegalWord s) := by
  by_cases hp : s.phase = .faulted
  · rw [illegalWord_of_faulted hp]
    exact writesOnlyBy_of_kept rfl rfl rfl rfl rfl
  · rw [illegalWord_of_not_faulted hp]
    exact writesOnlyBy_of_kept rfl rfl rfl rfl rfl

theorem WritesOnlyBy.imp {c u d k c' u' d' k' : Prop} {s t : State} (h : WritesOnlyBy c u d k s t) (hc : c → c') (hu : u → u')
    (hd : d → d') (hk : k → k') : WritesOnlyBy c' u' d' k' s t :=
  ⟨h.alg.imp_right hc, h.counts.imp_right (Or.imp hc hu), h.buf.imp_right hu,
    h.h.imp_right (Or.imp hc (Or.imp hu (Or.imp hd hk)))⟩

/-- Which events write the computation, resets apart. -/
theorem step_writes {s t : State} (hrst : s.rst = false) (h : step s = .next t) :
    WritesOnlyBy (BeginsComputation s t) (UpdatesActive s) (DigestsActive s) (RunsCompress s) s t := by
  obtain ⟨hreset, -⟩ | ⟨-, u, a, -, -, huop⟩ | ⟨-, -, -, rfl⟩ | ⟨-, hnone, word, rest, hcmd, hword⟩ := step_next.1 h
  · simp [hrst] at hreset
  · exact exec_uop_writes huop
  · exact writesOnlyBy_of_kept rfl rfl rfl rfl rfl
  · obtain ⟨i, hdec, hexec⟩ | ⟨e, -, rfl⟩ := hword
    · obtain ⟨-, -, rfl⟩ | ⟨-, rfl⟩ | ⟨hop, harg, rfl⟩ := decodeCommand_ok.1 hdec
      · exact exec_create_writes (eq_createWord hdec ▸ hcmd) hexec
      · exact (exec_update_writes hexec).imp id (fun hp => ⟨hp, hnone, word, rest, _, hcmd, hdec⟩) id id
      · exact (exec_digest_writes hexec).imp id id (fun hp => ⟨hp, rest, eq_digestWord hop harg ▸ hcmd⟩) id
    · exact illegalWord_writes s

/-! ### CAUSE and the record of an UPDATE in progress -/

/-- The row of a command that only ACTIVE accepts writes CAUSE only on entering FAULTED. -/
theorem activeOnlyRow_cause_write {p : Phase} {s t : State} (hrow : ActiveOnlyRow p s t) (hne : t.cause ≠ s.cause) :
    s.phase ≠ .faulted ∧ t.phase = .faulted := by
  cases hp : s.phase with
  | faulted => exact absurd (hrow.faulted hp).2 hne
  | idle => exact ⟨by simp, (hrow.idle hp).1⟩
  | active => exact absurd (hrow.active hp).2 hne
  | done => exact ⟨by simp, (hrow.done hp).1⟩

theorem exec_create_cause_write {tag : BitVec 8} {s t : State} (h : exec (.create tag) s = .next t) (hne : t.cause ≠ s.cause) :
    s.phase ≠ .faulted ∧ t.phase = .faulted := by
  obtain ⟨-, rfl⟩ | ⟨hp, -, rfl⟩ | ⟨-, a, -, rfl⟩ := exec_create_next.1 h
  · exact absurd rfl hne
  · exact ⟨hp, rfl⟩
  · exact absurd rfl hne

theorem exec_update_cause_write {n : Nat} {s t : State} (h : exec (.update n) s = .next t) (hne : t.cause ≠ s.cause) :
    s.phase ≠ .faulted ∧ t.phase = .faulted := by
  obtain ⟨-, rfl⟩ | ⟨hn, -⟩ := exec_update_next.1 h
  · exact absurd rfl hne
  · exact activeOnlyRow_cause_write (exec_update_row hn h) hne

theorem illegalWord_cause_write {s : State} (hne : (illegalWord s).cause ≠ s.cause) :
    s.phase ≠ .faulted ∧ (illegalWord s).phase = .faulted := by
  by_cases hp : s.phase = .faulted
  · rw [illegalWord_of_faulted hp] at hne
    exact absurd rfl hne
  · rw [illegalWord_of_not_faulted hp]
    exact ⟨hp, rfl⟩

theorem step_cause_write {s t : State} (hrst : s.rst = false) (h : step s = .next t) (hne : t.cause ≠ s.cause) :
    s.phase ≠ .faulted ∧ t.phase = .faulted := by
  obtain ⟨hreset, -⟩ | ⟨-, u, a, -, -, huop⟩ | ⟨-, -, -, rfl⟩ | ⟨-, -, word, rest, hcmd, hword⟩ := step_next.1 h
  · simp [hrst] at hreset
  · exact absurd (exec_uop_phase_cause huop).2 hne
  · exact absurd rfl hne
  · obtain ⟨i, hdec, hexec⟩ | ⟨e, -, rfl⟩ := hword
    · obtain ⟨-, -, rfl⟩ | ⟨-, rfl⟩ | ⟨-, -, rfl⟩ := decodeCommand_ok.1 hdec
      · exact exec_create_cause_write hexec hne
      · exact exec_update_cause_write hexec hne
      · exact activeOnlyRow_cause_write (exec_digest_row hexec) hne
    · exact illegalWord_cause_write hne

theorem uopOf_ne_update (kind : UopKind) (a : Algorithm) (n : Nat) : uopOf kind a ≠ .update n := by
  cases kind <;> cases a <;> simp [uopOf, compressOf]

theorem step_begun_write {s t : State} (hrst : s.rst = false) (h : step s = .next t) (hne : t.begun ≠ s.begun) :
    ∃ (word : CommandWord) (rest : List CommandWord) (n : Nat), s.cmd = word :: rest ∧
      decode (.cmd word) = .ok (.update n) ∧ (t.begun = true ↔ s.din.length < n) := by
  obtain ⟨hreset, -⟩ | ⟨-, u, a, -, -, huop⟩ | ⟨-, -, -, rfl⟩ | ⟨-, -, word, rest, hcmd, hword⟩ := step_next.1 h
  · simp [hrst] at hreset
  · exact absurd (exec_begun (uopOf_ne_update u.kind a) huop) hne
  · exact absurd rfl hne
  · obtain ⟨i, hdec, hexec⟩ | ⟨e, -, rfl⟩ := hword
    · obtain ⟨-, -, rfl⟩ | ⟨-, rfl⟩ | ⟨-, -, rfl⟩ := decodeCommand_ok.1 hdec
      · exact absurd (exec_begun (fun n => by simp) hexec) hne
      · exact ⟨word, rest, _, hcmd, hdec, exec_update_begun hexec⟩
      · exact absurd (exec_begun (fun n => by simp) hexec) hne
    · exact absurd (illegalWord_ports s).begun hne

/-- Settles O16: each clause names the events that `step_writes` allows to write the field. -/
theorem controlStateHasFixedWriters : Obligations.ControlStateHasFixedWriters := by
  unfold Obligations.ControlStateHasFixedWriters
  intro s t hrst hstep
  have hw := step_writes hrst hstep
  refine ⟨fun hne => hw.alg.resolve_left hne, fun hne => ?counts, fun hne => ?buf,
    step_cause_write hrst hstep, step_begun_write hrst hstep, fun hne => ?digest⟩
  case counts =>
    obtain ⟨hprocessed, hbuflen⟩ | ⟨a, rest, hcmd, -⟩ | ⟨hp, -, word, rest, n, hcmd, hdec⟩ := hw.counts
    · exact absurd hne (not_or.2 ⟨not_not.2 hprocessed, not_not.2 hbuflen⟩)
    · exact ⟨_, rest, hcmd, .inl ⟨a, rfl⟩⟩
    · exact ⟨word, rest, hcmd, .inr ⟨hp, n, hdec⟩⟩
  case buf =>
    obtain ⟨hp, -, hword⟩ := hw.buf.resolve_left hne
    exact ⟨hp, hword⟩
  case digest =>
    obtain ⟨a, rest, hcmd, -⟩ | ⟨hp, -, word, rest, n, hcmd, hdec⟩ | ⟨hp, rest, hcmd⟩ | hcompress := hw.h.resolve_left hne
    · exact .inr ⟨_, rest, hcmd, .inl ⟨a, rfl⟩⟩
    · exact .inr ⟨word, rest, hcmd, .inr ⟨hp, .inr ⟨n, hdec⟩⟩⟩
    · exact .inr ⟨_, rest, hcmd, .inr ⟨hp, .inl rfl⟩⟩
    · exact .inl hcompress

/-! ### BUF in its canonical form (10_state.md R29, 20_memory.md R53) -/

/-- Settles O48: inside the bound by the laws of `writeBytes` and `readBytes`, beyond it by the guard. -/
theorem memWriteThenMemRead : Obligations.MemWriteThenMemRead := by
  unfold Obligations.MemWriteThenMemRead
  intro c addr v m hc
  refine ⟨fun hin => ?inside, fun hout => ?outside⟩
  case inside =>
    exact ⟨_, memWrite_ok.2 ⟨hin, rfl⟩, memRead_ok.2 ⟨hin, Memory.readBytes_writeBytes m addr v⟩,
      fun i hi => Memory.read_writeBytes_outside m addr v i hi,
      fun hwf => Memory.wf_writeBytes m addr v (Nat.le_trans hin hc) hwf⟩
  case outside => exact ⟨if_neg (by omega), if_neg (by omega)⟩

/-- The body of UPDATE writes below C only. -/
theorem updateBody_wf {data : List Byte} {s t : State} (hwf : s.buf.wf = true) (h : updateBody data s = .ok t) :
    t.buf.wf = true := by
  obtain ⟨a, -, ⟨hlt, rfl⟩ | ⟨-, hle, held, hheld, rfl⟩⟩ := updateBody_ok.1 h
  · exact Memory.wf_writeBytes _ _ _ (Nat.le_trans (Nat.le_of_lt hlt) (chunkBytes_le a)) hwf
  · have hlen : (held ++ data).length = s.buflen.toNat + data.length := by
      rw [List.length_append, ((Memory.readBytes_ok _ _ _ _).1 hheld).1]
    have hrest := Absorption.length_drop_wholeChunks a (held ++ data)
    have hmod := Nat.mod_lt (held ++ data).length (chunkBytes_pos a)
    have hC : a.chunkBytes ≤ Config.bufCapacity := chunkBytes_le a
    rw [hlen] at hrest hmod
    exact Memory.wf_writeBytes _ _ _ (by omega)
      (Memory.wf_writeBytes _ _ _ (by rw [List.length_take]; omega) hwf)

theorem exec_update_wf {n : Nat} {s t : State} (hwf : s.buf.wf = true) (h : exec (.update n) s = .next t) : t.buf.wf = true := by
  obtain ⟨-, rfl⟩ | ⟨-, hok⟩ := exec_update_next.1 h
  · exact hwf
  · obtain ⟨-, rfl⟩ | ⟨-, rfl⟩ | ⟨-, rfl⟩ | ⟨-, hbody⟩ := inActivePhase_ok.1 hok
    · exact hwf
    · exact hwf
    · exact hwf
    · exact updateBody_wf (s := dropPayload n (retire s)) hwf hbody

/-- Settles O46: a reset empties BUF, an UPDATE writes inside it, and nothing else writes it. -/
theorem stepKeepsBufferCanonical : Obligations.StepKeepsBufferCanonical := by
  unfold Obligations.StepKeepsBufferCanonical
  intro s t hwf hstep
  cases hrst : s.rst with
  | true =>
    obtain ⟨-, -, rfl⟩ | ⟨hno, -⟩ | ⟨hno, -⟩ | ⟨hno, -⟩ := step_next.1 hstep
    · rfl
    all_goals exact absurd (hrst.symm.trans hno) (by decide)
  | false =>
    obtain hbuf | ⟨-, huop, word, rest, n, hcmd, hdec⟩ := (step_writes hrst hstep).buf
    · rwa [hbuf]
    · rw [step_of_legal_word hrst huop hcmd hdec] at hstep
      exact exec_update_wf hwf hstep

end Sys2Proof.Proofs.Writers

/-! ## Proofs of the statements about the invariant (10_state.md sections 2 to 4): it holds at reset, every step keeps it, and from it the block
goes on to the end of its words (70_reset_and_hazards.md R190, R200) -/

namespace Sys2Proof.Proofs.Invariant

open Sys2Proof Sys2Proof.Machine
open Sys2Proof.Proofs.StateRules (step_of_legal_word step_of_illegal_word illegalWord_of_faulted illegalWord_of_not_faulted)
open Sys2Proof.Proofs.Exceptions (inActivePhase_of_faulted inActivePhase_of_idle inActivePhase_of_done)
open Sys2Proof.Proofs.Absorption (AbsorbedFrom absorbedFrom_held updateBody_absorbs exec_create_absorbs
  mod_two_pow_mod_chunkBytes)
open Sys2Proof.Proofs.Writers (step_word_ports)

/-- Settles O42: a fixed state. -/
theorem invariantHoldsAtReset : Obligations.InvariantHoldsAtReset := by
  unfold Obligations.InvariantHoldsAtReset
  decide

/-! ### The computation in place, and what a sequence of bytes makes of it -/

theorem computationOk_of_phaseOk {s : State} (hp : s.phase = .active) (h : s.phaseOk = true) : s.computationOk = true := by
  simpa only [State.phaseOk, hp] using h

/-- A computation in place is reached from its own digest and count by the bytes it holds. -/
theorem absorbedFrom_of_computationOk {s : State} (hp : s.phase = .active) (h : s.computationOk = true) :
    ∃ a held, s.h.fits a = true ∧ s.processed.toNat % a.chunkBytes = 0 ∧ AbsorbedFrom a s.h s.processed held s := by
  obtain ⟨a, ha, hlt, hcount, hwritten, hfits⟩ := computationOk_iff.1 h
  obtain ⟨held, hheld⟩ := Memory.readBytes_of_isSome s.buf 0 s.buflen.toNat (by simpa using hwritten)
  exact ⟨a, held, hfits, hcount, absorbedFrom_held hp (ofTag_eq_some ha) hlt hheld⟩

/-- What any bytes make of a digest in the shape of its descriptor and a count of whole chunks is a computation in place. -/
theorem computationOk_of_absorbedFrom {a : Algorithm} {h : Digest} {p : Word64} {msg : List Byte} {s : State}
    (hs : AbsorbedFrom a h p msg s) (hfits : h.fits a = true) (hcount : p.toNat % a.chunkBytes = 0) : s.computationOk = true := by
  obtain ⟨hlen, hread⟩ := (Memory.readBytes_ok _ _ _ _).1 hs.buffered
  refine computationOk_iff.2 ⟨a, by rw [hs.alg, ofTag_tag], hs.buflen_lt, ?count, fun i hi => ?written, ?shape⟩
  case count =>
    rw [hs.processed, BitVec.toNat_add, mod_two_pow_mod_chunkBytes, BitVec.toNat_ofNat, Nat.add_mod, hcount,
      mod_two_pow_mod_chunkBytes, Nat.mul_mod_left, Nat.add_zero, Nat.zero_mod]
  case written =>
    rw [← Nat.zero_add i, hread i hi, List.getElem?_eq_getElem (hlen ▸ hi), Option.isSome_some]
  case shape =>
    rw [hs.digest]
    exact compressChunks_fits _ _ _ _ hfits

/-! ### CAUSE and PHASE with what they promise -/

/-- The part of the invariant that commands have to establish: CAUSE tells FAULTED (R26), and PHASE keeps its promise. -/
def Sound (s : State) : Prop := (s.cause = .none ↔ s.phase ≠ .faulted) ∧ s.phaseOk = true

theorem sound_raise {c : Cause} (hc : c ≠ .none) (s : State) : Sound (raise c s) := ⟨by simp [hc], rfl⟩

theorem inActivePhase_sound {body : State → Except Fault State} {s t : State} (hs : Sound s)
    (hbody : s.phase = .active → body s = .ok t → Sound t) (h : inActivePhase body s = .ok t) : Sound t := by
  obtain ⟨-, rfl⟩ | ⟨-, rfl⟩ | ⟨-, rfl⟩ | ⟨hp, hok⟩ := inActivePhase_ok.1 h
  · exact hs
  · exact sound_raise (by decide) s
  · exact sound_raise (by decide) s
  · exact hbody hp hok

theorem updateBody_sound {data : List Byte} {s t : State} (hs : Sound s) (hp : s.phase = .active) (h : updateBody data s = .ok t) :
    Sound t := by
  obtain ⟨a, held, hfits, hcount, habs⟩ := absorbedFrom_of_computationOk hp (computationOk_of_phaseOk hp hs.2)
  obtain ⟨u, hbody, hframe, habs'⟩ := updateBody_absorbs data hp habs.alg habs.buflen_lt habs.buffered
  obtain rfl : u = t := Except.ok.inj (hbody.symm.trans h)
  have hcause : u.cause = s.cause := by rw [hframe]
  refine ⟨by rw [hcause, hs.1, hp, habs'.phase], ?_⟩
  simpa only [State.phaseOk, habs'.phase] using computationOk_of_absorbedFrom habs' hfits hcount

theorem digestBody_sound {s t : State} (hs : Sound s) (hp : s.phase = .active) (h : digestBody s = .ok t) : Sound t := by
  obtain ⟨a, held, ha, -, -, rfl⟩ := digestBody_ok.1 h
  obtain ⟨b, hb, hlt, hcount, hwritten, hfits⟩ := computationOk_iff.1 (computationOk_of_phaseOk hp hs.2)
  obtain rfl : a = b := Option.some.inj (ha.symm.trans hb)
  have hnone : s.cause = .none := hs.1.2 (by simp [hp])
  exact ⟨by simp [digestedState, hnone], computationOk_iff.2 ⟨a, hb, hlt, hcount, hwritten, compressChunks_fits _ _ _ _ hfits⟩⟩

theorem exec_create_sound {tag : BitVec 8} {s t : State} (hs : Sound s) (h : exec (.create tag) s = .next t) : Sound t := by
  obtain ⟨-, rfl⟩ | ⟨-, -, rfl⟩ | ⟨hp, a, -, rfl⟩ := exec_create_next.1 h
  · exact hs
  · exact sound_raise (by decide) _
  · refine ⟨by simp [hs.1.2 hp], ?_⟩
    exact computationOk_of_absorbedFrom (exec_create_absorbs a hp).2 (initialVector_fits a) (Nat.zero_mod _)

theorem exec_update_sound {n : Nat} {s t : State} (hs : Sound s) (h : exec (.update n) s = .next t) : Sound t := by
  obtain ⟨-, rfl⟩ | ⟨-, hok⟩ := exec_update_next.1 h
  · exact hs
  · have hs' : Sound (dropPayload n (retire s)) := hs
    exact inActivePhase_sound hs' (updateBody_sound hs') hok

theorem exec_digest_sound {s t : State} (hs : Sound s) (h : exec .digest s = .next t) : Sound t := by
  have hs' : Sound (retire s) := hs
  exact inActivePhase_sound hs' (digestBody_sound hs') (exec_digest_next.1 h)

theorem illegalWord_sound {s : State} (hs : Sound s) : Sound (illegalWord s) := by
  by_cases hp : s.phase = .faulted
  · rw [illegalWord_of_faulted hp]
    exact hs
  · rw [illegalWord_of_not_faulted hp]
    exact sound_raise (by decide) _

/-- The step on a presented word. -/
theorem step_word_sound {s t : State} {word : CommandWord} {rest : List CommandWord} (hrst : s.rst = false) (huop : s.uop = none)
    (hcmd : s.cmd = word :: rest) (hs : Sound s) (h : step s = .next t) : Sound t := by
  cases hdec : decode (.cmd word) with
  | error e =>
    rw [step_of_illegal_word hrst huop hcmd hdec, Host.Outcome.next.injEq] at h
    exact h ▸ illegalWord_sound hs
  | ok i =>
    rw [step_of_legal_word hrst huop hcmd hdec] at h
    obtain ⟨-, -, rfl⟩ | ⟨-, rfl⟩ | ⟨-, -, rfl⟩ := decodeCommand_ok.1 hdec
    · exact exec_create_sound hs h
    · exact exec_update_sound hs h
    · exact exec_digest_sound hs h

/-! ### Every step keeps the invariant -/

/-- A command in progress after the step on a word is the UPDATE that still waits at the head of `cmd` (log 23). -/
theorem step_word_begunOk {s t : State} {word : CommandWord} {rest : List CommandWord} (hrst : s.rst = false) (huop : s.uop = none)
    (hcmd : s.cmd = word :: rest) (hs : s.begunOk = true) (h : step s = .next t) : t.begunOk = true := by
  rw [begunOk_iff] at hs ⊢
  intro hbegun
  obtain ⟨-, hop, rfl⟩ | ⟨-, b, hports, hb⟩ := step_word_ports hrst huop hcmd h
  · exact ⟨word, rest, hcmd, hop⟩
  · obtain ⟨hbegun', hop⟩ := hb (hports.begun.symm.trans hbegun)
    obtain ⟨word', rest', hcmd', hop'⟩ := hs hbegun'
    rw [hcmd, List.cons.injEq] at hcmd'
    exact absurd (hcmd'.1 ▸ hop') hop

theorem step_word_uop {s t : State} {word : CommandWord} {rest : List CommandWord} (hrst : s.rst = false) (huop : s.uop = none)
    (hcmd : s.cmd = word :: rest) (h : step s = .next t) : t.uop = none := by
  obtain ⟨-, -, rfl⟩ | ⟨-, b, hports, -⟩ := step_word_ports hrst huop hcmd h
  · exact huop
  · exact hports.uop.trans huop

/-- Settles O43: a reset establishes the invariant, a step with nothing presented is none, and one on a word keeps each part. -/
theorem stepKeepsTheInvariant : Obligations.StepKeepsTheInvariant := by
  unfold Obligations.StepKeepsTheInvariant
  intro s t hinv hstep
  obtain ⟨hwf, hcause, huop, hbegun, hphase⟩ := inv_iff.1 hinv
  have hwf' : t.buf.wf = true := Writers.stepKeepsBufferCanonical s t hwf hstep
  obtain ⟨-, -, rfl⟩ | ⟨-, u, a, hu, -⟩ | ⟨-, -, -, rfl⟩ | ⟨hrst, -, word, rest, hcmd, -⟩ := step_next.1 hstep
  · exact inv_iff.2 ⟨hwf', by simp, rfl, rfl, rfl⟩
  · simp [huop] at hu
  · exact hinv
  · obtain ⟨hcause', hphase'⟩ := step_word_sound hrst huop hcmd ⟨hcause, hphase⟩ hstep
    exact inv_iff.2 ⟨hwf', hcause', step_word_uop hrst huop hcmd hstep, step_word_begunOk hrst huop hcmd hbegun hstep, hphase'⟩

/-! ### From the invariant a step always answers -/

theorem inActivePhase_answers {body : State → Except Fault State} {s : State} (hbody : s.phase = .active → ∃ t, body s = .ok t) :
    ∃ t, inActivePhase body s = .ok t := by
  cases hp : s.phase with
  | idle => exact ⟨_, inActivePhase_of_idle hp⟩
  | done => exact ⟨_, inActivePhase_of_done hp⟩
  | faulted => exact ⟨_, inActivePhase_of_faulted hp⟩
  | active =>
    obtain ⟨t, ht⟩ := hbody hp
    exact ⟨t, inActivePhase_ok.2 (.inr (.inr (.inr ⟨hp, ht⟩)))⟩

theorem exec_update_answers (n : Nat) {s : State} (hs : s.phaseOk = true) : ∃ t, exec (.update n) s = .next t := by
  by_cases hn : s.din.length < n
  · exact ⟨_, exec_update_next.2 (.inl ⟨hn, rfl⟩)⟩
  · obtain ⟨t, ht⟩ := inActivePhase_answers (s := dropPayload n (retire s)) (body := updateBody (s.din.take n)) fun hp => by
      obtain ⟨a, held, -, -, habs⟩ := absorbedFrom_of_computationOk hp (computationOk_of_phaseOk hp hs)
      obtain ⟨t, hbody, -⟩ := updateBody_absorbs (s.din.take n) hp habs.alg habs.buflen_lt habs.buffered
      exact ⟨t, hbody⟩
    exact ⟨t, exec_update_next.2 (.inr ⟨Nat.le_of_not_lt hn, ht⟩)⟩

theorem exec_digest_answers {s : State} (hs : s.phaseOk = true) : ∃ t, exec .digest s = .next t := by
  obtain ⟨t, ht⟩ := inActivePhase_answers (s := retire s) (body := digestBody) fun hp => by
    obtain ⟨a, held, -, -, habs⟩ := absorbedFrom_of_computationOk hp (computationOk_of_phaseOk hp hs)
    exact ⟨_, digestBody_ok.2 ⟨a, _, by rw [habs.alg, ofTag_tag], Nat.le_of_lt habs.buflen_lt, habs.buffered, rfl⟩⟩
  exact ⟨t, exec_digest_next.2 ht⟩

/-- Without a reset request. -/
theorem step_answers_of_inv {s : State} (hinv : s.inv = true) (hrst : s.rst = false) : ∃ t, step s = .next t := by
  obtain ⟨-, -, huop, -, hphase⟩ := inv_iff.1 hinv
  cases hcmd : s.cmd with
  | nil => exact ⟨s, step_next.2 (.inr (.inr (.inl ⟨hrst, huop, hcmd, rfl⟩)))⟩
  | cons word rest =>
    cases hdec : decode (.cmd word) with
    | error e => exact ⟨_, step_of_illegal_word hrst huop hcmd hdec⟩
    | ok i =>
      rw [step_of_legal_word hrst huop hcmd hdec]
      obtain ⟨-, -, rfl⟩ | ⟨-, rfl⟩ | ⟨-, -, rfl⟩ := decodeCommand_ok.1 hdec
      · exact ⟨_, rfl⟩
      · exact exec_update_answers _ hphase
      · exact exec_digest_answers hphase

/-- Settles O44: a reset between commands is taken; without a request each command has what its body needs. -/
theorem invariantStatesNeverStop : Obligations.InvariantStatesNeverStop := by
  unfold Obligations.InvariantStatesNeverStop
  intro s hinv hreset
  cases hrst : s.rst with
  | true => exact ⟨_, step_next.2 (.inl ⟨hrst, hreset hrst, rfl⟩)⟩
  | false => exact step_answers_of_inv hinv hrst

/-! ### The end of a run (R200) -/

/-- A word whose payload is presented is consumed with it by one step. -/
theorem step_consumes_word {s : State} {word : CommandWord} {rest : List CommandWord} (hinv : s.inv = true) (hrst : s.rst = false)
    (hcmd : s.cmd = word :: rest) (hpay : payloadLength word ≤ s.din.length) :
    ∃ t, step s = .next t ∧ t.inv = true ∧ t.rst = false ∧ t.cmd = rest ∧ t.din = s.din.drop (payloadLength word) := by
  obtain ⟨-, -, huop, -⟩ := inv_iff.1 hinv
  obtain ⟨t, hstep⟩ := step_answers_of_inv hinv hrst
  refine ⟨t, hstep, stepKeepsTheInvariant s t hinv hstep, ?_⟩
  obtain ⟨hlt, -⟩ | ⟨-, b, hports, -⟩ := step_word_ports hrst huop hcmd hstep
  · omega
  · exact ⟨hports.rst.trans hrst, hports.cmd, hports.din⟩

theorem run_consumes_words {s : State} (hinv : s.inv = true) (hrst : s.rst = false)
    (hpay : (s.cmd.map payloadLength).sum ≤ s.din.length) :
    ∃ t, run s.cmd.length s = .next t ∧ t.cmd = [] ∧ t.din = s.din.drop (s.cmd.map payloadLength).sum ∧ t.inv = true := by
  generalize hwords : s.cmd = words at hpay
  induction words generalizing s with
  | nil => exact ⟨s, run_zero s, hwords, by simp, hinv⟩
  | cons word rest ih =>
    rw [List.map_cons, List.sum_cons] at hpay
    obtain ⟨t, hstep, hinv', hrst', hcmd', hdin'⟩ := step_consumes_word hinv hrst hwords (by omega)
    obtain ⟨u, hrun, hcmd, hdin, hinv⟩ := ih hinv' hrst' hcmd' (by rw [hdin', List.length_drop]; omega)
    refine ⟨u, (run_succ_of_step hstep).trans hrun, hcmd, ?_, hinv⟩
    rw [hdin, hdin', List.drop_drop, List.map_cons, List.sum_cons]

/-- A state of the invariant with nothing presented is over, not stuck, and ended well or badly by its phase. -/
theorem ended_of_cmd_nil {s : State} (hinv : s.inv = true) (hcmd : s.cmd = []) :
    s.runOver = true ∧ s.stuck = false ∧ (s.endedWell = true ∨ s.endedBadly = true) := by
  obtain ⟨-, -, huop, -⟩ := inv_iff.1 hinv
  have hover : s.runOver = true := by simp [State.runOver, hcmd, huop]
  refine ⟨hover, by simp [State.stuck, waitingUpdate, hcmd], ?_⟩
  by_cases hp : s.phase = .faulted
  · exact .inr (by simp [State.endedBadly, hover, hp])
  · exact .inl (by simp [State.endedWell, hover, hp])

/-- Settles O45: an induction over the words presented, each one step that keeps the invariant. -/
theorem everyRunEndsWellOrBadly : Obligations.EveryRunEndsWellOrBadly := by
  unfold Obligations.EveryRunEndsWellOrBadly
  intro s hinv hrst hpay
  obtain ⟨t, hrun, hcmd, hdin, hinv'⟩ := run_consumes_words hinv hrst hpay
  exact ⟨t, hrun, hcmd, hdin, hinv', ended_of_cmd_nil hinv' hcmd⟩

end Sys2Proof.Proofs.Invariant

/-! ## Proof of the statement about what nothing reads (10_state.md R36): steps from indistinguishable states end in indistinguishable states -/

namespace Sys2Proof.Proofs.Isolation

open Sys2Proof Sys2Proof.Machine
open Sys2Proof.Proofs.StateRules (step_of_legal_word step_of_illegal_word illegalWord_of_faulted illegalWord_of_not_faulted)
open Sys2Proof.Proofs.Invariant (step_word_uop)

/-! ### The updates of State on two indistinguishable states -/

section Updates

variable {s t : State} (h : Indistinguishable s t)
include h

theorem indistinguishable_retire : Indistinguishable (retire s) (retire t) := by
  obtain ⟨hphase, hcause, hcmd, hdin, hdout, hrst, hbegun, huop, halg, hprocessed, hbuflen, hbuffered, hvisible⟩ := h
  exact ⟨hphase, hcause, congrArg List.tail hcmd, hdin, hdout, hrst, hbegun, huop, halg, hprocessed, hbuflen, hbuffered, hvisible⟩

theorem indistinguishable_awaitPayload : Indistinguishable (awaitPayload s) (awaitPayload t) := by
  obtain ⟨hphase, hcause, hcmd, hdin, hdout, hrst, -, huop, halg, hprocessed, hbuflen, hbuffered, hvisible⟩ := h
  exact ⟨hphase, hcause, hcmd, hdin, hdout, hrst, rfl, huop, halg, hprocessed, hbuflen, hbuffered, hvisible⟩

theorem indistinguishable_dropPayload (n : Nat) : Indistinguishable (dropPayload n s) (dropPayload n t) := by
  obtain ⟨hphase, hcause, hcmd, hdin, hdout, hrst, -, huop, halg, hprocessed, hbuflen, hbuffered, hvisible⟩ := h
  exact ⟨hphase, hcause, hcmd, congrArg (List.drop n) hdin, hdout, hrst, rfl, huop, halg, hprocessed, hbuflen, hbuffered, hvisible⟩

/-- Outside ACTIVE nothing of the computation counts. -/
theorem indistinguishable_raise (c : Cause) : Indistinguishable (raise c s) (raise c t) := by
  constructor <;> simp [h.cmd, h.din, h.dout, h.rst, h.begun, h.uop]

theorem indistinguishable_resetEvent : Indistinguishable (resetEvent s) (resetEvent t) := by
  constructor <;> simp [h.cmd, h.din, h.dout]

/-- CREATE writes the whole computation. -/
theorem indistinguishable_beginComputation (a : Algorithm) :
    Indistinguishable (beginComputation a s) (beginComputation a t) := by
  constructor <;> simp [h.cause, h.cmd, h.din, h.dout, h.rst, h.begun, h.uop]

theorem indistinguishable_illegalWord : Indistinguishable (illegalWord s) (illegalWord t) := by
  by_cases hp : s.phase = .faulted
  · rw [illegalWord_of_faulted hp, illegalWord_of_faulted (h.phase ▸ hp)]
    exact indistinguishable_retire h
  · rw [illegalWord_of_not_faulted hp, illegalWord_of_not_faulted (h.phase ▸ hp)]
    exact indistinguishable_raise (indistinguishable_retire h) _

/-- A computation written anew: the digests agree as the descriptor reads them, PROCESSED and BUFLEN are the same, and the bytes below
BUFLEN agree. -/
theorem indistinguishable_of_computation {a : Algorithm} (ha : s.alg = a.tag) {d d' : Digest} {p : Word64}
    {n : Byte} {m m' : Memory} (hd : d.visible a = d'.visible a) (hm : ∀ i, i < n.toNat → m.read i = m'.read i) :
    Indistinguishable { s with h := d, processed := p, buflen := n, buf := m }
      { t with h := d', processed := p, buflen := n, buf := m' } := by
  refine ⟨h.phase, h.cause, h.cmd, h.din, h.dout, h.rst, h.begun, h.uop, h.alg, fun _ => rfl, fun _ => rfl, fun _ => hm,
    fun _ b hb => ?_⟩
  obtain rfl : a = b := Option.some.inj (by rw [← ofTag_tag a, ← ha, ← ofTag_tag b, ← hb])
  exact hd

/-- The bytes held are the same. -/
theorem readBytes_of_indistinguishable (hp : s.phase = .active) :
    s.buf.readBytes 0 s.buflen.toNat = t.buf.readBytes 0 t.buflen.toNat := by
  rw [← h.buflen hp]
  exact Memory.readBytes_congr _ _ _ _ fun i hi => by rw [Nat.zero_add, h.buffered hp i hi]

end Updates

/-! ### The bodies of UPDATE and DIGEST -/

/-- Equal writes behind bytes that agree leave bytes that agree. -/
theorem read_writeBytes_congr {m m' : Memory} {n : Nat} (h : ∀ i, i < n → m.read i = m'.read i) (v : List Byte) {i : Nat}
    (hi : i < n + v.length) : (m.writeBytes n v).read i = (m'.writeBytes n v).read i := by
  by_cases hlt : i < n
  · rw [Memory.read_writeBytes_outside _ _ _ _ (.inl hlt), Memory.read_writeBytes_outside _ _ _ _ (.inl hlt), h i hlt]
  · obtain ⟨j, rfl⟩ := Nat.exists_eq_add_of_le (Nat.le_of_not_lt hlt)
    rw [Memory.read_writeBytes_inside _ _ _ _ (by omega), Memory.read_writeBytes_inside _ _ _ _ (by omega)]

theorem lt_of_lt_toNat_ofNat {i k : Nat} (h : i < (BitVec.ofNat 8 k).toNat) : i < k :=
  Nat.lt_of_lt_of_le h (by rw [BitVec.toNat_ofNat]; exact Nat.mod_le _ _)

theorem updateBody_indistinguishable {data : List Byte} {s t s' : State} (h : Indistinguishable s t) (hp : s.phase = .active)
    (hok : updateBody data s = .ok s') : ∃ t', updateBody data t = .ok t' ∧ Indistinguishable s' t' := by
  obtain ⟨a, ha, hbranch⟩ := updateBody_ok.1 hok
  have hbuflen := h.buflen hp
  have hread := readBytes_of_indistinguishable h hp
  have hvisible := h.visible hp a (ofTag_eq_some ha)
  have ht : Algorithm.ofTag t.alg = some a := h.alg hp ▸ ha
  obtain ⟨hlt, rfl⟩ | ⟨hge, hle, held, hheld, rfl⟩ := hbranch
  · refine ⟨_, updateBody_ok.2 ⟨a, ht, .inl ⟨hbuflen ▸ hlt, rfl⟩⟩, ?_⟩
    rw [← hbuflen, ← h.processed hp]
    exact indistinguishable_of_computation h (ofTag_eq_some ha) hvisible fun i hi =>
      read_writeBytes_congr (h.buffered hp) data (lt_of_lt_toNat_ofNat hi)
  · refine ⟨_, updateBody_ok.2 ⟨a, ht, .inr ⟨hbuflen ▸ hge, hbuflen ▸ hle, held, hread ▸ hheld, rfl⟩⟩, ?_⟩
    simp only [completedState, ← hbuflen, ← h.processed hp]
    exact indistinguishable_of_computation h (ofTag_eq_some ha) (compressChunks_visible _ _ hvisible) fun i hi =>
      read_writeBytes_congr (n := 0) (by simp) _ (by simpa using lt_of_lt_toNat_ofNat hi)

theorem digestBody_indistinguishable {s t s' : State} (h : Indistinguishable s t) (hp : s.phase = .active)
    (hok : digestBody s = .ok s') : ∃ t', digestBody t = .ok t' ∧ Indistinguishable s' t' := by
  obtain ⟨a, held, ha, hle, hheld, rfl⟩ := digestBody_ok.1 hok
  have hbits : bitLength t = bitLength s := by rw [bitLength, bitLength, h.processed hp, h.buflen hp]
  have hserial := serialize_visible (compressChunks_visible ((padTail a held (bitLength s)).length / a.chunkBytes)
    (padTail a held (bitLength s)) (h.visible hp a (ofTag_eq_some ha)))
  refine ⟨_, digestBody_ok.2 ⟨a, held, h.alg hp ▸ ha, h.buflen hp ▸ hle, readBytes_of_indistinguishable h hp ▸ hheld, rfl⟩, ?_⟩
  constructor <;> simp [digestedState, h.cause, h.cmd, h.din, h.dout, h.rst, h.begun, h.uop, hbits, hserial]

/-- The phase check of two indistinguishable states, given their bodies in ACTIVE. -/
theorem inActivePhase_indistinguishable {body : State → Except Fault State} {s t s' : State} (h : Indistinguishable s t)
    (hbody : s.phase = .active → body s = .ok s' → ∃ t', body t = .ok t' ∧ Indistinguishable s' t')
    (hok : inActivePhase body s = .ok s') : ∃ t', inActivePhase body t = .ok t' ∧ Indistinguishable s' t' := by
  obtain ⟨hp, rfl⟩ | ⟨hp, rfl⟩ | ⟨hp, rfl⟩ | ⟨hp, hok⟩ := inActivePhase_ok.1 hok
  · exact ⟨t, inActivePhase_ok.2 (.inl ⟨h.phase ▸ hp, rfl⟩), h⟩
  · exact ⟨_, inActivePhase_ok.2 (.inr (.inl ⟨h.phase ▸ hp, rfl⟩)), indistinguishable_raise h _⟩
  · exact ⟨_, inActivePhase_ok.2 (.inr (.inr (.inl ⟨h.phase ▸ hp, rfl⟩))), indistinguishable_raise h _⟩
  · obtain ⟨t', ht', hind⟩ := hbody hp hok
    exact ⟨t', inActivePhase_ok.2 (.inr (.inr (.inr ⟨h.phase ▸ hp, ht'⟩))), hind⟩

/-! ### The commands and the step -/

theorem exec_create_indistinguishable {tag : BitVec 8} {s t s' : State} (h : Indistinguishable s t)
    (hexec : exec (.create tag) s = .next s') : ∃ t', exec (.create tag) t = .next t' ∧ Indistinguishable s' t' := by
  have hr := indistinguishable_retire h
  obtain ⟨hp, rfl⟩ | ⟨hp, htag, rfl⟩ | ⟨hp, a, htag, rfl⟩ := exec_create_next.1 hexec
  · exact ⟨_, exec_create_next.2 (.inl ⟨h.phase ▸ hp, rfl⟩), hr⟩
  · exact ⟨_, exec_create_next.2 (.inr (.inl ⟨h.phase ▸ hp, htag, rfl⟩)), indistinguishable_raise hr _⟩
  · exact ⟨_, exec_create_next.2 (.inr (.inr ⟨h.phase ▸ hp, a, htag, rfl⟩)), indistinguishable_beginComputation hr a⟩

theorem exec_update_indistinguishable {n : Nat} {s t s' : State} (h : Indistinguishable s t)
    (hexec : exec (.update n) s = .next s') : ∃ t', exec (.update n) t = .next t' ∧ Indistinguishable s' t' := by
  obtain ⟨hn, rfl⟩ | ⟨hn, hok⟩ := exec_update_next.1 hexec
  · exact ⟨_, exec_update_next.2 (.inl ⟨h.din ▸ hn, rfl⟩), indistinguishable_awaitPayload h⟩
  · have hd := indistinguishable_dropPayload (indistinguishable_retire h) n
    obtain ⟨t', ht', hind⟩ := inActivePhase_indistinguishable hd (updateBody_indistinguishable hd) hok
    exact ⟨t', exec_update_next.2 (.inr ⟨h.din ▸ hn, h.din ▸ ht'⟩), hind⟩

theorem exec_digest_indistinguishable {s t s' : State} (h : Indistinguishable s t) (hexec : exec .digest s = .next s') :
    ∃ t', exec .digest t = .next t' ∧ Indistinguishable s' t' := by
  have hr := indistinguishable_retire h
  obtain ⟨t', ht', hind⟩ := inActivePhase_indistinguishable hr (digestBody_indistinguishable hr) (exec_digest_next.1 hexec)
  exact ⟨t', exec_digest_next.2 ht', hind⟩

/-- The step on a presented word. -/
theorem step_word_indistinguishable {s t s' : State} {word : CommandWord} {rest : List CommandWord} (h : Indistinguishable s t)
    (hrst : s.rst = false) (huop : s.uop = none) (hcmd : s.cmd = word :: rest) (hstep : step s = .next s') :
    ∃ t', step t = .next t' ∧ Indistinguishable s' t' := by
  have hrst' : t.rst = false := h.rst ▸ hrst
  have huop' : t.uop = none := h.uop ▸ huop
  have hcmd' : t.cmd = word :: rest := h.cmd ▸ hcmd
  cases hdec : decode (.cmd word) with
  | error e =>
    rw [step_of_illegal_word hrst huop hcmd hdec, Host.Outcome.next.injEq] at hstep
    exact ⟨_, step_of_illegal_word hrst' huop' hcmd' hdec, hstep ▸ indistinguishable_illegalWord h⟩
  | ok i =>
    rw [step_of_legal_word hrst huop hcmd hdec] at hstep
    rw [step_of_legal_word hrst' huop' hcmd' hdec]
    obtain ⟨-, -, rfl⟩ | ⟨-, rfl⟩ | ⟨-, -, rfl⟩ := decodeCommand_ok.1 hdec
    · exact exec_create_indistinguishable h hstep
    · exact exec_update_indistinguishable h hstep
    · exact exec_digest_indistinguishable h hstep

/-- Settles O47: an unwinding over what a step can do, each command by what it reads. -/
theorem hiddenStateNeverInfluences : Obligations.HiddenStateNeverInfluences := by
  unfold Obligations.HiddenStateNeverInfluences
  intro s t s' h huop hstep
  obtain ⟨hrst, hmid, rfl⟩ | ⟨-, u, a, hu, -⟩ | ⟨hrst, -, hcmd, rfl⟩ | ⟨hrst, -, word, rest, hcmd, -⟩ := step_next.1 hstep
  · have hmid' : midCommand t = false := by rwa [midCommand, ← h.uop, ← h.begun]
    exact ⟨_, step_next.2 (.inl ⟨h.rst ▸ hrst, hmid', rfl⟩), indistinguishable_resetEvent h, rfl⟩
  · simp [huop] at hu
  · exact ⟨t, step_next.2 (.inr (.inr (.inl ⟨h.rst ▸ hrst, h.uop ▸ huop, h.cmd ▸ hcmd, rfl⟩))), h, huop⟩
  · obtain ⟨t', ht', hind⟩ := step_word_indistinguishable h hrst huop hcmd hstep
    exact ⟨t', ht', hind, step_word_uop hrst huop hcmd hstep⟩

end Sys2Proof.Proofs.Isolation

/-! ## Proofs of the statements about the decoder (30_encoding.md R72 to R79) and about which instruction a step runs (R79, R80) -/

namespace Sys2Proof.Proofs.Decoding

open Sys2Proof Sys2Proof.Machine
open Sys2Proof.Proofs.StateRules (step_of_legal_word)
open Sys2Proof.Proofs.Encoding (encode_of_decodeCommand)

/-! ### Decode and encode -/

/-- Settles O1: fixed words. -/
theorem specWordsDecodeAsPrinted : Obligations.SpecWordsDecodeAsPrinted := by
  unfold Obligations.SpecWordsDecodeAsPrinted
  decide

theorem decodeUop_tag (kind : UopKind) (a : Algorithm) : decodeUop kind a.tag = .ok (uopOf kind a) := by
  rw [decodeUop, ofTag_tag]

/-- Settles O2: a command by its word, a micro-operation by its kind and its tag. -/
theorem decodeOfEncodeIsIdentity : Obligations.DecodeOfEncodeIsIdentity := by
  unfold Obligations.DecodeOfEncodeIsIdentity
  intro a i hwf
  cases i with
  | create tag => exact decodeCommand_createWord tag
  | update n => exact decodeCommand_updateWord (of_decide_eq_true hwf)
  | digest => exact decodeCommand_digestWord
  | compressSha1 => exact decodeUop_tag .compress .sha1
  | compressSha256 => exact decodeUop_tag .compress .sha256
  | compressSha512 => exact decodeUop_tag .compress .sha512
  | compressMd5 => exact decodeUop_tag .compress .md5
  | pad => exact decodeUop_tag .pad a
  | serialize => exact decodeUop_tag .serialize a

/-- The operand of a legal word fits its field (R76). -/
theorem wellFormed_of_decodeCommand {word : CommandWord} {i : Instr} (hdec : decodeCommand word = .ok i) :
    i.wellFormed = true := by
  obtain ⟨-, -, rfl⟩ | ⟨-, rfl⟩ | ⟨-, -, rfl⟩ := decodeCommand_ok.1 hdec
  · rfl
  · exact decide_eq_true (argField word).isLt
  · rfl

/-- Settles O3: every bit of a legal word is a fixed bit or part of an operand. -/
theorem encodeOfDecodedWordIsTheWord : Obligations.EncodeOfDecodedWordIsTheWord := by
  unfold Obligations.EncodeOfDecodedWordIsTheWord
  exact fun word i hdec => ⟨wellFormed_of_decodeCommand hdec, encode_of_decodeCommand hdec⟩

/-! ### What a step runs -/

/-- Settles O4: a word at the head of `cmd`, and none. -/
theorem stepRunsTheDecodedCommand : Obligations.StepRunsTheDecodedCommand := by
  unfold Obligations.StepRunsTheDecodedCommand
  refine ⟨fun s word rest i hrst huop hcmd hdec => step_of_legal_word hrst huop hcmd hdec, fun s hrst huop hcmd => ?waits⟩
  case waits => exact step_next.2 (.inr (.inr (.inl ⟨hrst, huop, hcmd, rfl⟩)))

/-- An invocation is run before any word, as the micro-operation that its unit and ALG select (R79). -/
theorem step_of_invocation {s : State} {u : Uop} {i : Instr} (hrst : s.rst = false) (huop : s.uop = some u)
    (hdec : decodeUop u.kind s.alg = .ok i) : step s = exec i s := by
  simp [step, hrst, huop, decode, hdec]

/-- Settles O5: the tag in ALG selects its own descriptor. -/
theorem stepRunsTheInvokedMicroOperation : Obligations.StepRunsTheInvokedMicroOperation := by
  unfold Obligations.StepRunsTheInvokedMicroOperation
  intro s u a hrst huop halg
  exact step_of_invocation hrst huop (by rw [halg, decodeUop_tag])

theorem ok_of_toOption {r : Except DecodeError Instr} {i : Instr} (h : r.toOption = some i) : r = .ok i := by
  cases r with
  | ok j => exact congrArg Except.ok (Option.some.inj h)
  | error e => cases h

/-- Settles O6: a 32-bit word stands at the head of `cmd`, an 8-bit value in ALG beside an invoked COMPRESS. -/
theorem placedTableWordRunsNext : Obligations.PlacedTableWordRunsNext := by
  unfold Obligations.PlacedTableWordRunsNext
  intro s nbits w i hdec
  unfold decodeTableWord at hdec
  split_ifs at hdec with h32 h8
  · subst h32
    exact step_of_legal_word rfl rfl rfl (ok_of_toOption hdec)
  · subst h8
    exact step_of_invocation (u := .compress _) rfl rfl (ok_of_toOption hdec)

end Sys2Proof.Proofs.Decoding

/-! ## Proofs of the statements about the reset (70_reset_and_hazards.md R190), the UPDATE that waits for its payload (30_encoding.md R71) and the
model's own stops (00_scope.md section 5, 20_memory.md R53) -/

namespace Sys2Proof.Proofs.Stops

open Sys2Proof Sys2Proof.Machine
open Sys2Proof.Proofs.StateRules (step_of_legal_word)

/-! ### Reset (R38, R190) -/

/-- Settles O10: a fixed state. -/
theorem resetStateIsIdle : Obligations.ResetStateIsIdle := by
  unfold Obligations.ResetStateIsIdle
  decide

theorem step_refuses_of_midCommand {s : State} (hrst : s.rst = true) (hmid : midCommand s = true) :
    step s = .refused .resetMidCommand := by
  simp [step, hrst, hmid]

/-- Settles O11: the reset event between commands, the refusal in the middle of one. -/
theorem requestedResetRestoresIdle : Obligations.RequestedResetRestoresIdle := by
  unfold Obligations.RequestedResetRestoresIdle
  refine ⟨fun s hrst huop hbegun => ?between, fun s hrst hmid => ?middle⟩
  case between =>
    have hmid : midCommand s = false := by simp [midCommand, huop, hbegun]
    exact ⟨_, step_next.2 (.inl ⟨hrst, hmid, rfl⟩), rfl, rfl, rfl, rfl, rfl, rfl, rfl, rfl⟩
  case middle => exact step_refuses_of_midCommand hrst (by simpa [midCommand, Option.isSome_iff_ne_none] using hmid)

/-! ### The UPDATE that waits (R71, R195, log 1, log 23) -/

theorem exec_update_waits {s : State} {n : Nat} (hn : s.din.length < n) : exec (.update n) s = .next (awaitPayload s) :=
  exec_update_next.2 (.inl ⟨hn, rfl⟩)

section WaitingUpdate

variable {s : State} {n : Nat} {rest : List CommandWord}
variable (hrst : s.rst = false) (huop : s.uop = none) (hlt : n < 2 ^ 24) (hcmd : s.cmd = updateWord n :: rest)
include hrst huop hlt hcmd

theorem step_of_updateWord : step s = exec (.update n) s :=
  step_of_legal_word hrst huop hcmd (decodeCommand_updateWord hlt)

theorem step_updateWord_waits (hn : s.din.length < n) : step s = .next (awaitPayload s) :=
  (step_of_updateWord hrst huop hlt hcmd).trans (exec_update_waits hn)

end WaitingUpdate

/-- Settles O20: the waiting branch of UPDATE; its word stays at the head of `cmd`. -/
theorem updateWaitsForItsPayload : Obligations.UpdateWaitsForItsPayload := by
  unfold Obligations.UpdateWaitsForItsPayload
  refine ⟨fun s n hn => exec_update_waits hn, fun s n rest hrst huop hlt hcmd hn =>
    ⟨step_updateWord_waits hrst huop hlt hcmd hn, ?stuck, ?notOver⟩⟩
  case stuck => simp [State.stuck, waitingUpdate, hcmd, starved, payloadLength_updateWord hlt, hn]
  case notOver => simp [State.runOver, hcmd]

/-- Once its payload is there, an UPDATE does the same whether or not it has waited. -/
theorem exec_update_awaitPayload {s : State} {n : Nat} (hn : n ≤ s.din.length) :
    exec (.update n) (awaitPayload s) = exec (.update n) s := by
  have hpresent : starved n s = false := decide_eq_false (Nat.not_lt.2 hn)
  have hpresent' : starved n (awaitPayload s) = false := hpresent
  simp only [exec, execUpdate, hpresent, hpresent']
  rfl

/-- Settles O54: the record is written by UPDATE alone; what the host presents next changes neither it nor the word at the head of `cmd`. -/
theorem updateIsInProgressUntilItsPayloadArrives : Obligations.UpdateIsInProgressUntilItsPayloadArrives := by
  unfold Obligations.UpdateIsInProgressUntilItsPayloadArrives
  refine ⟨fun s t n => exec_update_begun, fun s t i => exec_begun, fun s n rest more hrst huop hlt hcmd hn =>
    ⟨awaitPayload s, step_updateWord_waits hrst huop hlt hcmd hn, ?refused, fun hall => ?same⟩⟩
  case refused => exact step_refuses_of_midCommand rfl (Bool.or_true _)
  case same =>
    have hall' : n ≤ (s.presentPayload more).din.length := by simpa [State.presentPayload] using hall
    calc step ((awaitPayload s).presentPayload more)
      _ = exec (.update n) (awaitPayload (s.presentPayload more)) :=
        step_of_updateWord (s := awaitPayload (s.presentPayload more)) hrst huop hlt hcmd
      _ = exec (.update n) (s.presentPayload more) := exec_update_awaitPayload hall'
      _ = step (s.presentPayload more) := (step_of_updateWord (s := s.presentPayload more) hrst huop hlt hcmd).symm

/-! ### The stops of UPDATE and DIGEST in ACTIVE (log 11) -/

/-- What the model stops on, by name, where UPDATE or DIGEST needs a descriptor and the held bytes. -/
def StopsOn (s : State) : Fault → Prop
  | .noAlgorithm => Algorithm.ofTag s.alg = none
  | .bufferRange => ∃ a, Algorithm.ofTag s.alg = some a ∧ a.chunkBytes < s.buflen.toNat
  | .unwrittenByte => ∃ a, Algorithm.ofTag s.alg = some a ∧ s.buflen.toNat ≤ a.chunkBytes ∧
      ∃ j, j < s.buflen.toNat ∧ s.buf.read j = none
  | .noInvocation => False
  | .chunkLength => False

theorem StopsOn.eq_of_none {s : State} {f : Fault} (ha : Algorithm.ofTag s.alg = none) (hf : StopsOn s f) : f = .noAlgorithm := by
  cases f <;> simp_all [StopsOn]

/-- With a descriptor, BUFLEN decides which of the other two it is. -/
theorem StopsOn.eq_of_some {s : State} {f : Fault} {a : Algorithm} (ha : Algorithm.ofTag s.alg = some a) (hf : StopsOn s f) :
    f = if a.chunkBytes < s.buflen.toNat then .bufferRange else .unwrittenByte := by
  cases f with
  | bufferRange =>
    obtain ⟨b, hb, hlt⟩ := hf
    obtain rfl : a = b := Option.some.inj (ha.symm.trans hb)
    exact (if_pos hlt).symm
  | unwrittenByte =>
    obtain ⟨b, hb, hle, -⟩ := hf
    obtain rfl : a = b := Option.some.inj (ha.symm.trans hb)
    exact (if_neg (Nat.not_lt.2 hle)).symm
  | noAlgorithm => exact absurd (ha.symm.trans hf) (by simp)
  | noInvocation => exact hf.elim
  | chunkLength => exact hf.elim

/-- UPDATE stops so only where it completes a chunk, or has no descriptor. -/
theorem stopsOn_of_updateBody_error {data : List Byte} {s : State} {f : Fault} (h : updateBody data s = .error f) :
    StopsOn s f ∧ ∀ a, Algorithm.ofTag s.alg = some a → a.chunkBytes ≤ s.buflen.toNat + data.length := by
  obtain ⟨rfl, ha⟩ | ⟨a, ha, hge, hwhy⟩ := updateBody_error h
  · exact ⟨ha, fun a ha' => absurd (ha.symm.trans ha') (by simp)⟩
  · refine ⟨?_, fun b hb => Option.some.inj (ha.symm.trans hb) ▸ hge⟩
    obtain ⟨rfl, hlt⟩ | ⟨rfl, hle, hj⟩ := hwhy
    · exact ⟨a, ha, hlt⟩
    · exact ⟨a, ha, hle, hj⟩

theorem stopsOn_of_digestBody_error {s : State} {f : Fault} (h : digestBody s = .error f) : StopsOn s f := by
  obtain ⟨rfl, ha⟩ | ⟨a, ha, ⟨rfl, hlt⟩ | ⟨rfl, hle, hj⟩⟩ := digestBody_error h
  · exact ha
  · exact ⟨a, ha, hlt⟩
  · exact ⟨a, ha, hle, hj⟩

theorem exec_update_fault {n : Nat} {s : State} {f : Fault} :
    exec (.update n) s = .fault f ↔
      n ≤ s.din.length ∧ s.phase = .active ∧ updateBody (s.din.take n) (dropPayload n (retire s)) = .error f := by
  simp only [exec, execUpdate, starved, decide_eq_true_eq]
  split_ifs with hn
  · simp [hn]
  · simp [Nat.not_lt.1 hn, finish_eq_fault, inActivePhase_error]

theorem exec_digest_fault {s : State} {f : Fault} :
    exec .digest s = .fault f ↔ s.phase = .active ∧ digestBody (retire s) = .error f := by
  simp [exec, execDigest, finish_eq_fault, inActivePhase_error]

/-- Where its body answers nothing, UPDATE stops, on the one reason there is. -/
theorem exec_update_stops {n : Nat} {s : State} {f : Fault} (hp : s.phase = .active) (hn : n ≤ s.din.length)
    (hno : ∀ t, updateBody (s.din.take n) (dropPayload n (retire s)) ≠ .ok t) (hf : ∀ g, StopsOn s g → g = f) :
    exec (.update n) s = .fault f := by
  cases hbody : updateBody (s.din.take n) (dropPayload n (retire s)) with
  | ok t => exact absurd hbody (hno t)
  | error g =>
    obtain rfl : g = f := hf g (stopsOn_of_updateBody_error hbody).1
    exact exec_update_fault.2 ⟨hn, hp, hbody⟩

theorem exec_digest_stops {s : State} {f : Fault} (hp : s.phase = .active) (hno : ∀ t, digestBody (retire s) ≠ .ok t)
    (hf : ∀ g, StopsOn s g → g = f) : exec .digest s = .fault f := by
  cases hbody : digestBody (retire s) with
  | ok t => exact absurd hbody (hno t)
  | error g =>
    obtain rfl : g = f := hf g (stopsOn_of_digestBody_error (s := retire s) hbody)
    exact exec_digest_fault.2 ⟨hp, hbody⟩

/-- Bytes that have been read are written. -/
theorem read_ne_none_of_readBytes {m : Memory} {n j : Nat} {bs : List Byte} (h : m.readBytes 0 n = .ok bs) (hj : j < n) :
    m.read j ≠ none := fun hnone => by
  rw [Memory.readBytes_unwritten m hj (by rwa [Nat.zero_add])] at h
  cases h

/-- What UPDATE needs to answer in ACTIVE. -/
theorem updateBody_needs {data : List Byte} {s t : State} (h : updateBody data s = .ok t) :
    ∃ a, Algorithm.ofTag s.alg = some a ∧ s.buflen.toNat ≤ a.chunkBytes ∧
      (a.chunkBytes ≤ s.buflen.toNat + data.length → ∀ j, j < s.buflen.toNat → s.buf.read j ≠ none) := by
  obtain ⟨a, ha, ⟨hlt, -⟩ | ⟨-, hle, held, hheld, -⟩⟩ := updateBody_ok.1 h
  · exact ⟨a, ha, by omega, fun hge => by omega⟩
  · exact ⟨a, ha, hle, fun _ j hj => read_ne_none_of_readBytes hheld hj⟩

/-- What DIGEST needs to answer in ACTIVE. -/
theorem digestBody_needs {s t : State} (h : digestBody s = .ok t) :
    ∃ a, Algorithm.ofTag s.alg = some a ∧ s.buflen.toNat ≤ a.chunkBytes ∧ ∀ j, j < s.buflen.toNat → s.buf.read j ≠ none := by
  obtain ⟨a, held, ha, hle, hheld, -⟩ := digestBody_ok.1 h
  exact ⟨a, ha, hle, fun j hj => read_ne_none_of_readBytes hheld hj⟩

/-! ### The stops of a micro-operation -/

/-- A meaning that answers no state ends in a fault: none refuses. -/
theorem exec_faults_of_no_answer {i : Instr} {s : State} (h : ∀ t, exec i s ≠ .next t) : ∃ f, exec i s = .fault f := by
  cases hexec : exec i s with
  | next t => exact absurd hexec (h t)
  | fault f => exact ⟨f, rfl⟩
  | refused e => exact absurd hexec (exec_ne_refused i s e)

/-- A micro-operation whose unit is not the one invoked: to answer, and to stop on anything else, it needs the invocation of its unit. -/
theorem exec_uop_noInvocation {kind : UopKind} (a : Algorithm) {s : State} (h : s.uop.map Uop.kind ≠ some kind) :
    exec (uopOf kind a) s = .fault .noInvocation := by
  obtain ⟨f, hf⟩ : ∃ f, exec (uopOf kind a) s = .fault f := exec_faults_of_no_answer fun t ht => by
    cases kind with
    | compress =>
      obtain ⟨chunk, hu, -⟩ := exec_compress_next.1 ht
      exact h (by simp [hu, Uop.kind])
    | pad =>
      obtain ⟨rest, bits, b, hu, -⟩ := exec_pad_next.1 ht
      exact h (by simp [hu, Uop.kind])
    | serialize =>
      obtain ⟨b, hu, -⟩ := exec_serialize_next.1 ht
      exact h (by simp [hu, Uop.kind])
  rw [hf, Host.Outcome.fault.injEq]
  cases kind with
  | compress =>
    obtain ⟨rfl, -⟩ | ⟨-, chunk, hu, -⟩ := exec_compress_fault hf
    · rfl
    · exact absurd (by simp [hu, Uop.kind]) h
  | pad =>
    obtain ⟨rfl, -⟩ | ⟨-, hu, -⟩ := exec_pad_fault hf
    · rfl
    · exact absurd hu h
  | serialize =>
    obtain ⟨rfl, -⟩ | ⟨-, hu, -⟩ := exec_serialize_fault hf
    · rfl
    · exact absurd (by simp [hu, Uop.kind]) h

theorem exec_compress_chunkLength {a : Algorithm} {s : State} {chunk : List Byte} (hu : s.uop = some (.compress chunk))
    (hlen : chunk.length ≠ a.chunkBytes) : exec (compressOf a) s = .fault .chunkLength := by
  obtain ⟨f, hf⟩ : ∃ f, exec (compressOf a) s = .fault f := exec_faults_of_no_answer fun t ht => by
    obtain ⟨chunk', hu', hlen', -⟩ := exec_compress_next.1 ht
    obtain rfl : chunk = chunk' := by simpa [hu] using hu'
    exact hlen hlen'
  obtain ⟨-, hkind⟩ | ⟨rfl, -⟩ := exec_compress_fault hf
  · simp [hu, Uop.kind] at hkind
  · exact hf

theorem exec_pad_noAlgorithm {s : State} {rest : List Byte} {L : Word64} (hu : s.uop = some (.pad rest L))
    (halg : Algorithm.ofTag s.alg = none) : exec .pad s = .fault .noAlgorithm := by
  obtain ⟨f, hf⟩ : ∃ f, exec .pad s = .fault f := exec_faults_of_no_answer fun t ht => by
    obtain ⟨_, _, a, -, ha, -⟩ := exec_pad_next.1 ht
    simp [halg] at ha
  obtain ⟨-, hkind⟩ | ⟨rfl, -⟩ := exec_pad_fault hf
  · simp [hu, Uop.kind] at hkind
  · exact hf

theorem exec_serialize_noAlgorithm {s : State} (hu : s.uop = some .serialize) (halg : Algorithm.ofTag s.alg = none) :
    exec .serialize s = .fault .noAlgorithm := by
  obtain ⟨f, hf⟩ : ∃ f, exec .serialize s = .fault f := exec_faults_of_no_answer fun t ht => by
    obtain ⟨a, -, ha, -⟩ := exec_serialize_next.1 ht
    simp [halg] at ha
  obtain ⟨-, hkind⟩ | ⟨rfl, -⟩ := exec_serialize_fault hf
  · simp [hu, Uop.kind] at hkind
  · exact hf

theorem step_uop_noAlgorithm {s : State} {u : Uop} (hrst : s.rst = false) (hu : s.uop = some u)
    (halg : Algorithm.ofTag s.alg = none) : step s = .fault .noAlgorithm := by
  simp [step, hrst, hu, decode, decodeUop, halg]

/-- Settles O14: each condition excludes an answer, and leaves one reason to stop on. -/
theorem outsideTheSpecifiedDomainTheModelStops : Obligations.OutsideTheSpecifiedDomainTheModelStops := by
  unfold Obligations.OutsideTheSpecifiedDomainTheModelStops
  refine ⟨fun s hu => ?notInvoked, fun s u kind a hu hkind => exec_uop_noInvocation a (by simpa [hu] using hkind),
    fun s a chunk hu hlen => exec_compress_chunkLength hu hlen, fun s rest L hu halg => exec_pad_noAlgorithm hu halg,
    fun s hu halg => exec_serialize_noAlgorithm hu halg, fun s u hrst hu halg => step_uop_noAlgorithm hrst hu halg,
    fun s n hp halg hn => ?noAlgorithm, fun s a n hp halg hn hlt => ?bufferRange,
    fun s a n i hp halg hn hle hi hread => ?unwrittenByte⟩
  case notInvoked =>
    have hnone (kind : UopKind) : s.uop.map Uop.kind ≠ some kind := by simp [hu]
    exact ⟨exec_uop_noInvocation .sha1 (hnone .compress), exec_uop_noInvocation .sha256 (hnone .compress),
      exec_uop_noInvocation .sha512 (hnone .compress), exec_uop_noInvocation .md5 (hnone .compress),
      exec_uop_noInvocation .md5 (hnone .pad), exec_uop_noInvocation .md5 (hnone .serialize)⟩
  case noAlgorithm =>
    refine ⟨exec_update_stops hp hn (fun t ht => ?_) fun g => StopsOn.eq_of_none halg,
      exec_digest_stops hp (fun t ht => ?_) fun g => StopsOn.eq_of_none halg⟩
    · obtain ⟨a, ha, -⟩ := updateBody_needs ht
      exact absurd (halg.symm.trans ha) (by simp)
    · obtain ⟨a, ha, -⟩ := digestBody_needs ht
      exact absurd (halg.symm.trans ha) (by simp)
  case bufferRange =>
    have htag : Algorithm.ofTag s.alg = some a := by rw [halg, ofTag_tag]
    have hwhy (g : Fault) (hg : StopsOn s g) : g = .bufferRange := (hg.eq_of_some htag).trans (if_pos hlt)
    refine ⟨exec_update_stops hp hn (fun t ht => ?_) hwhy, exec_digest_stops hp (fun t ht => ?_) hwhy⟩
    · obtain ⟨b, hb, hle, -⟩ := updateBody_needs ht
      obtain rfl : a = b := Option.some.inj (htag.symm.trans hb)
      exact Nat.not_lt.2 hle hlt
    · obtain ⟨b, hb, hle, -⟩ := digestBody_needs ht
      obtain rfl : a = b := Option.some.inj (htag.symm.trans hb)
      exact Nat.not_lt.2 hle hlt
  case unwrittenByte =>
    have htag : Algorithm.ofTag s.alg = some a := by rw [halg, ofTag_tag]
    have hwhy (g : Fault) (hg : StopsOn s g) : g = .unwrittenByte :=
      (hg.eq_of_some htag).trans (if_neg (Nat.not_lt.2 hle))
    refine ⟨exec_digest_stops hp (fun t ht => ?_) hwhy, fun hge => exec_update_stops hp hn (fun t ht => ?_) hwhy⟩
    · obtain ⟨b, -, -, hwritten⟩ := digestBody_needs ht
      exact hwritten i hi hread
    · obtain ⟨b, hb, -, hwritten⟩ := updateBody_needs ht
      obtain rfl : a = b := Option.some.inj (htag.symm.trans hb)
      exact hwritten (by rwa [List.length_take_of_le hn]) i hi hread

/-! ### Every stop is one of these -/

/-- The domain of a stop: for each of the model's faults, the instructions and states in which the spec defines no operation. -/
def OutsideDomain (i : Instr) (s : State) (f : Fault) : Prop :=
  match f with
  | .noInvocation => ∃ (kind : UopKind) (a : Algorithm), i = uopOf kind a ∧ s.uop.map Uop.kind ≠ some kind
  | .chunkLength => ∃ (a : Algorithm) (chunk : List Byte), i = compressOf a ∧ s.uop = some (.compress chunk) ∧
      chunk.length ≠ a.chunkBytes
  | .noAlgorithm => Algorithm.ofTag s.alg = none ∧
      ((i = .pad ∧ s.uop.map Uop.kind = some .pad) ∨ (i = .serialize ∧ s.uop = some .serialize) ∨
       (s.phase = .active ∧ (i = .digest ∨ ∃ n, i = .update n ∧ n ≤ s.din.length)))
  | .bufferRange => ∃ a : Algorithm, s.alg = a.tag ∧ s.phase = .active ∧ a.chunkBytes < s.buflen.toNat ∧
      (i = .digest ∨ ∃ n, i = .update n ∧ n ≤ s.din.length)
  | .unwrittenByte => ∃ a : Algorithm, s.alg = a.tag ∧ s.phase = .active ∧ s.buflen.toNat ≤ a.chunkBytes ∧
      (∃ j, j < s.buflen.toNat ∧ s.buf.read j = none) ∧
      (i = .digest ∨ ∃ n, i = .update n ∧ n ≤ s.din.length ∧ a.chunkBytes ≤ s.buflen.toNat + n)

theorem exec_compress_outsideDomain {a : Algorithm} {s : State} {f : Fault} (h : exec (compressOf a) s = .fault f) :
    OutsideDomain (compressOf a) s f := by
  obtain ⟨rfl, hkind⟩ | ⟨rfl, chunk, hu, hlen⟩ := exec_compress_fault h
  · exact ⟨.compress, a, rfl, hkind⟩
  · exact ⟨a, chunk, rfl, hu, hlen⟩

theorem exec_pad_outsideDomain {s : State} {f : Fault} (h : exec .pad s = .fault f) : OutsideDomain .pad s f := by
  obtain ⟨rfl, hkind⟩ | ⟨rfl, hkind, halg⟩ := exec_pad_fault h
  · exact ⟨.pad, .sha1, rfl, hkind⟩
  · exact ⟨halg, .inl ⟨rfl, hkind⟩⟩

theorem exec_serialize_outsideDomain {s : State} {f : Fault} (h : exec .serialize s = .fault f) : OutsideDomain .serialize s f := by
  obtain ⟨rfl, hkind⟩ | ⟨rfl, hu, halg⟩ := exec_serialize_fault h
  · exact ⟨.serialize, .sha1, rfl, hkind⟩
  · exact ⟨halg, .inr (.inl ⟨rfl, hu⟩)⟩

theorem exec_update_outsideDomain {n : Nat} {s : State} {f : Fault} (h : exec (.update n) s = .fault f) :
    OutsideDomain (.update n) s f := by
  obtain ⟨hn, hp, hbody⟩ := exec_update_fault.1 h
  obtain ⟨hstops, hge⟩ := stopsOn_of_updateBody_error hbody
  rw [List.length_take_of_le hn] at hge
  cases f with
  | noAlgorithm => exact ⟨hstops, .inr (.inr ⟨hp, .inr ⟨n, rfl, hn⟩⟩)⟩
  | bufferRange =>
    obtain ⟨a, ha, hlt⟩ := hstops
    exact ⟨a, ofTag_eq_some ha, hp, hlt, .inr ⟨n, rfl, hn⟩⟩
  | unwrittenByte =>
    obtain ⟨a, ha, hle, hj⟩ := hstops
    exact ⟨a, ofTag_eq_some ha, hp, hle, hj, .inr ⟨n, rfl, hn, hge a ha⟩⟩
  | noInvocation => exact hstops.elim
  | chunkLength => exact hstops.elim

theorem exec_digest_outsideDomain {s : State} {f : Fault} (h : exec .digest s = .fault f) : OutsideDomain .digest s f := by
  obtain ⟨hp, hbody⟩ := exec_digest_fault.1 h
  have hstops := stopsOn_of_digestBody_error hbody
  cases f with
  | noAlgorithm => exact ⟨hstops, .inr (.inr ⟨hp, .inl rfl⟩)⟩
  | bufferRange =>
    obtain ⟨a, ha, hlt⟩ := hstops
    exact ⟨a, ofTag_eq_some ha, hp, hlt, .inl rfl⟩
  | unwrittenByte =>
    obtain ⟨a, ha, hle, hj⟩ := hstops
    exact ⟨a, ofTag_eq_some ha, hp, hle, hj, .inl rfl⟩
  | noInvocation => exact hstops.elim
  | chunkLength => exact hstops.elim

/-- Settles O52: instruction by instruction; CREATE always answers. -/
theorem everyStopLiesOutsideTheSpecifiedDomain : Obligations.EveryStopLiesOutsideTheSpecifiedDomain := by
  unfold Obligations.EveryStopLiesOutsideTheSpecifiedDomain
  refine ⟨exec_ne_refused, fun i s f h => ?domain⟩
  case domain =>
    cases i with
    | create tag => cases h
    | update n => exact exec_update_outsideDomain h
    | digest => exact exec_digest_outsideDomain h
    | compressSha1 => exact exec_compress_outsideDomain (a := .sha1) h
    | compressSha256 => exact exec_compress_outsideDomain (a := .sha256) h
    | compressSha512 => exact exec_compress_outsideDomain (a := .sha512) h
    | compressMd5 => exact exec_compress_outsideDomain (a := .md5) h
    | pad => exact exec_pad_outsideDomain h
    | serialize => exact exec_serialize_outsideDomain h

end Sys2Proof.Proofs.Stops

/-! ## Proofs of the statements about the tables (42_sha1_compress.md to 45_md5_compress.md, section 1): as printed, and in closed form -/

namespace Sys2Proof.Proofs.TableForms

open Sys2Proof Sys2Proof.Machine
open Sys2Proof.Proofs.Absorption (exec_create_absorbs)

/-- Settles O18: CREATE loads the initial vector of the tag, whose words are the printed ones. -/
theorem createLoadsPrintedInitialVectors : Obligations.CreateLoadsPrintedInitialVectors := by
  unfold Obligations.CreateLoadsPrintedInitialVectors
  intro s hp
  exact ⟨⟨_, (exec_create_absorbs .sha1 hp).1, rfl⟩, ⟨_, (exec_create_absorbs .sha256 hp).1, rfl⟩,
    ⟨_, (exec_create_absorbs .sha512 hp).1, rfl⟩, ⟨_, (exec_create_absorbs .md5 hp).1, rfl⟩⟩

/-- Settles O53: a fixed table. -/
theorem md5ConstantsAreAsPrinted : Obligations.Md5ConstantsAreAsPrinted := by
  unfold Obligations.Md5ConstantsAreAsPrinted
  decide +kernel

/-! ### The first eighty primes -/

/-- The primes below 410, in order. -/
def firstPrimes : List Nat :=
  [2, 3, 5, 7, 11, 13, 17, 19, 23, 29, 31, 37, 41, 43, 47, 53, 59, 61, 67, 71, 73, 79, 83, 89, 97, 101, 103, 107, 109, 113, 127, 131, 137,
    139, 149, 151, 157, 163, 167, 173, 179, 181, 191, 193, 197, 199, 211, 223, 227, 229, 233, 239, 241, 251, 257, 263, 269, 271, 277, 281,
    283, 293, 307, 311, 313, 317, 331, 337, 347, 349, 353, 359, 367, 373, 379, 383, 389, 397, 401, 409]

/-- Trial division by the numbers below 21. -/
def isTrialPrime (n : Nat) : Bool :=
  decide (2 ≤ n) && (List.range 21).all fun m => decide (m < 2) || decide (n < m * m) || decide (n % m ≠ 0)

/-- Below `21 ^ 2` trial division decides. -/
theorem prime_iff_isTrialPrime {n : Nat} (hn : n < 441) : Nat.Prime n ↔ isTrialPrime n = true := by
  simp only [Nat.prime_def_le_sqrt, Nat.le_sqrt, isTrialPrime, Bool.and_eq_true, Bool.or_eq_true, decide_eq_true_eq, List.all_eq_true,
    List.mem_range, Nat.dvd_iff_mod_eq_zero]
  refine and_congr_right fun _ => ⟨fun h m _ => ?_, fun h m h2 hle => ?_⟩
  · by_cases hm : 2 ≤ m ∧ m * m ≤ n
    · exact .inr (h m hm.1 hm.2)
    · exact .inl (by omega)
  · have hlt : m < 21 := Nat.mul_self_lt_mul_self_iff.1 (Nat.lt_of_le_of_lt hle hn)
    exact (h m hlt).resolve_left (by omega)

theorem filter_prime_range : (List.range 410).filter (fun n => decide (Nat.Prime n)) = firstPrimes := by
  have htrial : (List.range 410).filter isTrialPrime = firstPrimes := by decide +kernel
  rw [← htrial]
  refine List.filter_congr fun n hn => ?_
  rw [List.mem_range] at hn
  exact Bool.eq_iff_iff.2 (decide_eq_true_iff.trans (prime_iff_isTrialPrime (by omega)))

section FilterRange

variable (p : Nat → Prop) [DecidablePred p]

theorem length_filter_range (n : Nat) : ((List.range n).filter fun k => decide (p k)).length = Nat.count p n := by
  induction n with
  | zero => simp
  | succ n ih => by_cases hp : p n <;> simp [List.range_succ, Nat.count_succ, ih, hp]

/-- The members of a range that satisfy `p` stand each at its own count. -/
theorem getElem?_filter_range_count {n bound : Nat} (hp : p n) (hn : n < bound) :
    ((List.range bound).filter fun k => decide (p k))[Nat.count p n]? = some n := by
  have hsplit : List.range (n + 1) <+: List.range bound := by
    obtain ⟨m, rfl⟩ := Nat.exists_eq_add_of_le hn
    rw [List.range_add (n := n.succ)]
    exact ⟨_, rfl⟩
  have hfiltered := hsplit.filter fun k => decide (p k)
  have hlast : ((List.range (n + 1)).filter fun k => decide (p k))[Nat.count p n]? = some n := by
    rw [List.range_succ, List.filter_append, ← length_filter_range, List.getElem?_append_right (Nat.le_refl _)]
    simp [hp]
  obtain ⟨more, hmore⟩ := hfiltered
  rw [← hmore, List.getElem?_append_left (List.getElem?_eq_some_iff.1 hlast).1, hlast]

end FilterRange

/-- The prime number `t`, counting from 0. -/
theorem firstPrimes_getD {p : Nat} (hp : Nat.Prime p) (ht : Nat.count Nat.Prime p < 80) :
    firstPrimes.getD (Nat.count Nat.Prime p) 0 = p := by
  have hlt : p < 410 := by
    by_contra hge
    have hcount := Nat.count_monotone Nat.Prime (Nat.le_of_not_lt hge)
    rw [← length_filter_range, filter_prime_range] at hcount
    exact absurd (Nat.lt_of_le_of_lt hcount ht) (by decide)
  rw [List.getD_eq_getElem?_getD, ← filter_prime_range, getElem?_filter_range_count Nat.Prime hp hlt, Option.getD_some]

/-! ### Fractional parts of roots -/

/-- `v` is the first `w` bits of the fractional part of the root of order `k` of `p`: with the integer part of the root in front, it lies within
one unit below the root scaled by `2 ^ w`. -/
def isRootFraction (k w p v : Nat) : Bool :=
  let scaled := Nat.findGreatest (fun r => r ^ k ≤ p) p * 2 ^ w + v
  decide (scaled ^ k ≤ p * 2 ^ (w * k)) && decide (p * 2 ^ (w * k) < (scaled + 1) ^ k) && decide (v < 2 ^ w)

theorem exists_of_isRootFraction {k w p v : Nat} (h : isRootFraction k w p v = true) :
    ∃ F, F ^ k ≤ p * 2 ^ (w * k) ∧ p * 2 ^ (w * k) < (F + 1) ^ k ∧ v = F % 2 ^ w := by
  simp only [isRootFraction, Bool.and_eq_true, decide_eq_true_eq] at h
  obtain ⟨⟨hlow, hhigh⟩, hv⟩ := h
  exact ⟨_, hlow, hhigh, by rw [Nat.mul_add_mod_self_right, Nat.mod_eq_of_lt hv]⟩

theorem initialVector_fractions : ∀ t < 8,
    isRootFraction 2 32 (firstPrimes.getD t 0) (ivSha256.words.getD t 0).toNat = true ∧
    isRootFraction 2 64 (firstPrimes.getD t 0) (ivSha512.words.getD t 0).toNat = true := by decide +kernel

theorem kSha256_fractions : ∀ t < 64, isRootFraction 3 32 (firstPrimes.getD t 0) (kSha256 t).toNat = true := by decide +kernel

theorem kSha512_fractions : ∀ t < 80, isRootFraction 3 64 (firstPrimes.getD t 0) (kSha512 t).toNat = true := by decide +kernel

/-- Settles O19: the prime is the entry of `firstPrimes` at its count, and each table is checked along that list. -/
theorem tablesHaveTheirClosedForms : Obligations.TablesHaveTheirClosedForms := by
  unfold Obligations.TablesHaveTheirClosedForms
  intro t p hp ht
  subst ht
  refine ⟨fun ht => ?iv256, fun ht => ?iv512, fun ht => ?k256, fun ht => ?k512⟩
  case iv256 =>
    have h := (initialVector_fractions _ ht).1
    rw [firstPrimes_getD hp (by omega)] at h
    exact exists_of_isRootFraction h
  case iv512 =>
    have h := (initialVector_fractions _ ht).2
    rw [firstPrimes_getD hp (by omega)] at h
    exact exists_of_isRootFraction h
  case k256 =>
    have h := kSha256_fractions _ ht
    rw [firstPrimes_getD hp (by omega)] at h
    exact exists_of_isRootFraction h
  case k512 =>
    have h := kSha512_fractions _ ht
    rw [firstPrimes_getD hp ht] at h
    exact exists_of_isRootFraction h

end Sys2Proof.Proofs.TableForms

/-! ## Proofs of the statements about the compression functions (42_sha1_compress.md to 45_md5_compress.md, section 2): the schedule, the rounds and
the add-back of each, and what a compression depends on -/

namespace Sys2Proof.Proofs.Compression

open Sys2Proof Sys2Proof.Machine
open Sys2Proof.Proofs.Md5Order (gMd5_of_first_group gMd5_of_second_group gMd5_of_third_group gMd5_of_fourth_group)

/-! ### What the four have in common -/

theorem exec_compress_of_invoked {a : Algorithm} {s : State} {chunk : List Byte} (hu : s.uop = some (.compress chunk))
    (hlen : chunk.length = a.chunkBytes) : exec (compressOf a) s = .next { s with h := compress a s.h chunk, uop := none } :=
  exec_compress_next.2 ⟨chunk, hu, hlen, rfl⟩

/-- Settles O29: on the same chunk, agreement on what the descriptor reads of H is carried over. -/
theorem compressionDependsOnDigestAndChunkOnly : Obligations.CompressionDependsOnDigestAndChunkOnly := by
  unfold Obligations.CompressionDependsOnDigestAndChunkOnly
  intro a s t chunk hs ht hlen hvisible
  exact ⟨_, _, exec_compress_of_invoked hs hlen, exec_compress_of_invoked ht hlen, compress_visible chunk hvisible⟩

section Schedule

variable {w : Nat} (next : List (BitVec w) → BitVec w) (count : Nat) (word : List Byte → Nat → BitVec w) (chunk : List Byte)

/-- A schedule begins with the sixteen words parsed from the chunk. -/
theorem parsedSchedule_start {t : Nat} (ht : t < 16) :
    (extend next count (parseWords word chunk).reverse).reverse.getD t 0 = word chunk t := by
  rw [schedule_start _ _ _ _ (by rwa [parseWords_length]), parseWords_getD _ _ _ ht]

/-- Each later word is computed from the words before it. -/
theorem parsedSchedule_next {t : Nat} (h0 : 16 ≤ t) (ht : t < 16 + count) :
    ∃ older : List (BitVec w),
      (extend next count (parseWords word chunk).reverse).reverse.getD t 0 = next older ∧
      ∀ j, 0 < j → j ≤ t → back older j = (extend next count (parseWords word chunk).reverse).reverse.getD (t - j) 0 :=
  schedule_next next count _ t (by rwa [parseWords_length]) (by rwa [parseWords_length])

end Schedule

/-! ### SHA-1 (R110 to R115) -/

theorem sha1Schedule_start {chunk : List Byte} (hlen : chunk.length = 64) {t : Nat} (ht : t < 16) :
    ((sha1Schedule chunk).getD t 0).toNat = (chunk.getD (4 * t) 0).toNat * 2 ^ 24 + (chunk.getD (4 * t + 1) 0).toNat * 2 ^ 16 +
      (chunk.getD (4 * t + 2) 0).toNat * 2 ^ 8 + (chunk.getD (4 * t + 3) 0).toNat := by
  rw [sha1Schedule, parsedSchedule_start _ _ _ _ ht, beWord32_toNat (by omega)]

theorem sha1Schedule_next (chunk : List Byte) {t : Nat} (h0 : 16 ≤ t) (ht : t < 80) :
    (sha1Schedule chunk).getD t 0 = ((sha1Schedule chunk).getD (t - 3) 0 ^^^ (sha1Schedule chunk).getD (t - 8) 0 ^^^
      (sha1Schedule chunk).getD (t - 14) 0 ^^^ (sha1Schedule chunk).getD (t - 16) 0).rotateLeft 1 := by
  obtain ⟨older, hnext, hback⟩ := parsedSchedule_next sha1Next 64 beWord32 chunk h0 ht
  rw [sha1Schedule, hnext, sha1Next, rotl_eq_rotateLeft (by decide), hback 3 (by omega) (by omega), hback 8 (by omega) (by omega),
    hback 14 (by omega) (by omega), hback 16 (by omega) (by omega)]

/-- The working variable `a` of a round, its group of twenty known (R112, R114). -/
theorem sha1Round_a (ws : List Word32) {t q : Nat} (hq : t / 20 = q) (v : Work5) :
    (sha1Round ws t v).a = v.a.rotateLeft 5 + sha1F q v.b v.c v.d + v.e + kSha1 q + ws.getD t 0 := by
  rw [sha1Round, hq, rotl_eq_rotateLeft (by decide)]

/-- Settles O25: the schedule, and the value the loop carries. -/
theorem compressSha1RunsEightyRounds : Obligations.CompressSha1RunsEightyRounds := by
  unfold Obligations.CompressSha1RunsEightyRounds
  intro s chunk hu hlen
  refine ⟨fun t => (sha1Schedule chunk).getD t 0, loopValue (sha1Round (sha1Schedule chunk)) s.h.load5,
    fun t ht => sha1Schedule_start hlen ht, fun t h0 ht => sha1Schedule_next chunk h0 ht, rfl, fun t ht => ?round, ?write⟩
  case round =>
    refine ⟨rfl, rotl_eq_rotateLeft (by decide) _, rfl, rfl, fun h20 => ?_, fun h20 h40 => ?_, fun h40 h60 => ?_, fun h60 => ?_⟩
    · exact sha1Round_a _ (q := 0) (by omega) _
    · exact sha1Round_a _ (q := 1) (by omega) _
    · exact sha1Round_a _ (q := 2) (by omega) _
    · exact sha1Round_a _ (q := 3) (by omega) _
  case write =>
    rw [← loop_eq_loopValue]
    exact exec_compress_of_invoked (a := .sha1) hu hlen

/-! ### SHA-256 (R120 to R126) -/

theorem sha256Schedule_start {chunk : List Byte} (hlen : chunk.length = 64) {t : Nat} (ht : t < 16) :
    ((sha256Schedule chunk).getD t 0).toNat = (chunk.getD (4 * t) 0).toNat * 2 ^ 24 + (chunk.getD (4 * t + 1) 0).toNat * 2 ^ 16 +
      (chunk.getD (4 * t + 2) 0).toNat * 2 ^ 8 + (chunk.getD (4 * t + 3) 0).toNat := by
  rw [sha256Schedule, parsedSchedule_start _ _ _ _ ht, beWord32_toNat (by omega)]

/-- The recurrence the SHA-2 schedules share (R124, R134). -/
theorem sha2Schedule_next {w : Nat} (ssig0 ssig1 : BitVec w → BitVec w) (count : Nat) (word : List Byte → Nat → BitVec w)
    (chunk : List Byte) {W : Nat → BitVec w}
    (hW : ∀ t, W t = (extend (sha2Next ssig0 ssig1) count (parseWords word chunk).reverse).reverse.getD t 0) {t : Nat} (h0 : 16 ≤ t)
    (ht : t < 16 + count) : W t = ssig1 (W (t - 2)) + W (t - 7) + ssig0 (W (t - 15)) + W (t - 16) := by
  obtain ⟨older, hnext, hback⟩ := parsedSchedule_next (sha2Next ssig0 ssig1) count word chunk h0 ht
  simp only [hW]
  rw [hnext, sha2Next, hback 2 (by omega) (by omega), hback 7 (by omega) (by omega), hback 15 (by omega) (by omega),
    hback 16 (by omega) (by omega)]

theorem sha256SSig0_eq (x : Word32) : sha256SSig0 x = x.rotateRight 7 ^^^ x.rotateRight 18 ^^^ x >>> 3 := by
  rw [sha256SSig0, rotr_eq_rotateRight (by decide) (by decide), rotr_eq_rotateRight (by decide) (by decide), shr]

theorem sha256SSig1_eq (x : Word32) : sha256SSig1 x = x.rotateRight 17 ^^^ x.rotateRight 19 ^^^ x >>> 10 := by
  rw [sha256SSig1, rotr_eq_rotateRight (by decide) (by decide), rotr_eq_rotateRight (by decide) (by decide), shr]

theorem sha256BSig0_eq (x : Word32) : sha256BSig0 x = x.rotateRight 2 ^^^ x.rotateRight 13 ^^^ x.rotateRight 22 := by
  rw [sha256BSig0, rotr_eq_rotateRight (by decide) (by decide), rotr_eq_rotateRight (by decide) (by decide),
    rotr_eq_rotateRight (by decide) (by decide)]

theorem sha256BSig1_eq (x : Word32) : sha256BSig1 x = x.rotateRight 6 ^^^ x.rotateRight 11 ^^^ x.rotateRight 25 := by
  rw [sha256BSig1, rotr_eq_rotateRight (by decide) (by decide), rotr_eq_rotateRight (by decide) (by decide),
    rotr_eq_rotateRight (by decide) (by decide)]

/-- Settles O26: the shared recurrence and round with the functions of SHA-256 read as rotates and shifts. -/
theorem compressSha256RunsSixtyFourRounds : Obligations.CompressSha256RunsSixtyFourRounds := by
  unfold Obligations.CompressSha256RunsSixtyFourRounds
  intro s chunk hu hlen
  refine ⟨fun t => (sha256Schedule chunk).getD t 0, loopValue (sha256Round (sha256Schedule chunk)) s.h.load8,
    fun t ht => sha256Schedule_start hlen ht, fun t h0 ht => ?schedule, rfl, fun t ht => ?round, ?write⟩
  case schedule =>
    rw [← sha256SSig1_eq, ← sha256SSig0_eq]
    exact sha2Schedule_next sha256SSig0 sha256SSig1 48 beWord32 chunk (fun _ => rfl) h0 ht
  case round =>
    refine ⟨_, _, rfl, rfl, ?_⟩
    rw [← sha256BSig0_eq, ← sha256BSig1_eq]
    rfl
  case write =>
    rw [← loop_eq_loopValue]
    exact exec_compress_of_invoked (a := .sha256) hu hlen

/-! ### SHA-512 (R130 to R134) -/

theorem sha512Schedule_start {chunk : List Byte} (hlen : chunk.length = 128) {t : Nat} (ht : t < 16) :
    ((sha512Schedule chunk).getD t 0).toNat = (chunk.getD (8 * t) 0).toNat * 2 ^ 56 + (chunk.getD (8 * t + 1) 0).toNat * 2 ^ 48 +
      (chunk.getD (8 * t + 2) 0).toNat * 2 ^ 40 + (chunk.getD (8 * t + 3) 0).toNat * 2 ^ 32 +
      (chunk.getD (8 * t + 4) 0).toNat * 2 ^ 24 + (chunk.getD (8 * t + 5) 0).toNat * 2 ^ 16 +
      (chunk.getD (8 * t + 6) 0).toNat * 2 ^ 8 + (chunk.getD (8 * t + 7) 0).toNat := by
  rw [sha512Schedule, parsedSchedule_start _ _ _ _ ht, beWord64_toNat (by omega)]

theorem sha512SSig0_eq (x : Word64) : sha512SSig0 x = x.rotateRight 1 ^^^ x.rotateRight 8 ^^^ x >>> 7 := by
  rw [sha512SSig0, rotr_eq_rotateRight (by decide) (by decide), rotr_eq_rotateRight (by decide) (by decide), shr]

theorem sha512SSig1_eq (x : Word64) : sha512SSig1 x = x.rotateRight 19 ^^^ x.rotateRight 61 ^^^ x >>> 6 := by
  rw [sha512SSig1, rotr_eq_rotateRight (by decide) (by decide), rotr_eq_rotateRight (by decide) (by decide), shr]

theorem sha512BSig0_eq (x : Word64) : sha512BSig0 x = x.rotateRight 28 ^^^ x.rotateRight 34 ^^^ x.rotateRight 39 := by
  rw [sha512BSig0, rotr_eq_rotateRight (by decide) (by decide), rotr_eq_rotateRight (by decide) (by decide),
    rotr_eq_rotateRight (by decide) (by decide)]

theorem sha512BSig1_eq (x : Word64) : sha512BSig1 x = x.rotateRight 14 ^^^ x.rotateRight 18 ^^^ x.rotateRight 41 := by
  rw [sha512BSig1, rotr_eq_rotateRight (by decide) (by decide), rotr_eq_rotateRight (by decide) (by decide),
    rotr_eq_rotateRight (by decide) (by decide)]

/-- Settles O27: the same with the functions of SHA-512, on 64-bit words. -/
theorem compressSha512RunsEightyRounds : Obligations.CompressSha512RunsEightyRounds := by
  unfold Obligations.CompressSha512RunsEightyRounds
  intro s chunk hu hlen
  refine ⟨fun t => (sha512Schedule chunk).getD t 0, loopValue (sha512Round (sha512Schedule chunk)) s.h.load64,
    fun t ht => sha512Schedule_start hlen ht, fun t h0 ht => ?schedule, rfl, fun t ht => ?round, ?write⟩
  case schedule =>
    rw [← sha512SSig1_eq, ← sha512SSig0_eq]
    exact sha2Schedule_next sha512SSig0 sha512SSig1 64 beWord64 chunk (fun _ => rfl) h0 ht
  case round =>
    refine ⟨_, _, rfl, rfl, ?_⟩
    rw [← sha512BSig0_eq, ← sha512BSig1_eq]
    rfl
  case write =>
    rw [← loop_eq_loopValue]
    exact exec_compress_of_invoked (a := .sha512) hu hlen

/-! ### MD5 (R140 to R147) -/

theorem md5Words_getD {chunk : List Byte} (hlen : chunk.length = 64) {j : Nat} (hj : j < 16) :
    ((md5Words chunk).getD j 0).toNat = (chunk.getD (4 * j) 0).toNat + (chunk.getD (4 * j + 1) 0).toNat * 2 ^ 8 +
      (chunk.getD (4 * j + 2) 0).toNat * 2 ^ 16 + (chunk.getD (4 * j + 3) 0).toNat * 2 ^ 24 := by
  rw [md5Words, parseWords_getD _ _ _ hj, leWord32_toNat (by omega)]

theorem md5Step_b (xs : List Word32) (i : Nat) (v : Work4) :
    (md5Step xs i v).b = v.b + (v.a + md5F i v.b v.c v.d + kMd5 i + xs.getD (gMd5 i) 0).rotateLeft (sMd5 i) := by
  rw [md5Step, rotl_eq_rotateLeft (sMd5_lt i)]

/-- Settles O28: the value the loop carries, each group of sixteen steps with its function, its order and its amounts. -/
theorem compressMd5RunsSixtyFourSteps : Obligations.CompressMd5RunsSixtyFourSteps := by
  unfold Obligations.CompressMd5RunsSixtyFourSteps
  intro s chunk hu hlen
  refine ⟨fun j => (md5Words chunk).getD j 0, loopValue (md5Step (md5Words chunk)) s.h.load4,
    fun j hj => md5Words_getD hlen hj, rfl, fun i hi => ?step, ?write⟩
  case step =>
    refine ⟨rfl, rfl, rfl, fun h16 => (md5Step_b _ i _).trans ?_, fun h16 h32 => (md5Step_b _ i _).trans ?_,
      fun h32 h48 => (md5Step_b _ i _).trans ?_, fun h48 => (md5Step_b _ i _).trans ?_⟩
    · have hgroup : i / 16 = 0 := by omega
      simp [md5F, sMd5, hgroup, gMd5_of_first_group h16]
    · have hgroup : i / 16 = 1 := by omega
      simp [md5F, sMd5, hgroup, gMd5_of_second_group h16 h32]
    · have hgroup : i / 16 = 2 := by omega
      simp [md5F, sMd5, hgroup, gMd5_of_third_group h32 h48]
    · have hgroup : i / 16 = 3 := by omega
      simp [md5F, sMd5, hgroup, gMd5_of_fourth_group h48]
  case write =>
    rw [← loop_eq_loopValue]
    exact exec_compress_of_invoked (a := .md5) hu hlen

end Sys2Proof.Proofs.Compression

/-! ## Proofs of the statements about PAD, SERIALIZE and the micro-operations of DIGEST (46_padding_finalizer.md R150 to R156,
47_state_serializer.md R160) -/

namespace Sys2Proof.Proofs.MicroOperations

open Sys2Proof Sys2Proof.Machine
open Sys2Proof.Proofs.Finalizer (padTail_length_of_short padTail_length_of_long exec_digest_of_active)
open Sys2Proof.Proofs.Serializer (words_take_length serialize_length)
open Sys2Proof.Proofs.Sessions (padTail_wholeChunks)
open Sys2Proof.Proofs.Absorption (length_take_wholeChunks length_drop_wholeChunks)
open Sys2Proof.Proofs.Compression (exec_compress_of_invoked)

/-! ### PAD (R152) -/

theorem padZeros_lt (a : Algorithm) (b : Nat) : padZeros a b < a.chunkBytes := by
  cases a <;> simp only [padZeros, Algorithm.chunkBytes, Algorithm.lengthBytes] <;> omega

/-- The zeros bring the length to C - F modulo C. -/
theorem add_padZeros_mod (a : Algorithm) (b : Nat) :
    (b + 1 + padZeros a b) % a.chunkBytes = a.chunkBytes - a.lengthBytes := by
  cases a <;> simp only [padZeros, Algorithm.chunkBytes, Algorithm.lengthBytes] <;> omega

/-- No two numbers of zeros below C bring the length to the same remainder, so no smaller number than that of PAD does. -/
theorem padZeros_least {a : Algorithm} {b z : Nat} (hz : z < padZeros a b) :
    (b + 1 + z) % a.chunkBytes ≠ a.chunkBytes - a.lengthBytes := by
  intro h
  have hsame : b + 1 + z ≡ b + 1 + padZeros a b [MOD a.chunkBytes] := h.trans (add_padZeros_mod a b).symm
  have heq : z = padZeros a b :=
    (Nat.ModEq.add_left_cancel' _ hsame).eq_of_lt_of_lt (hz.trans (padZeros_lt a b)) (padZeros_lt a b)
  exact absurd heq (Nat.ne_of_lt hz)

theorem exec_pad_of_invoked {a : Algorithm} {s : State} {rest : List Byte} {L : Word64} (hu : s.uop = some (.pad rest L))
    (ha : s.alg = a.tag) : exec .pad s = .next { s with pad := padTail a rest L, uop := none } :=
  exec_pad_next.2 ⟨rest, L, a, hu, by rw [ha, ofTag_tag], rfl⟩

/-- Settles O31: z is the number of zeros of PAD, the least by `padZeros_least`. -/
theorem padBuildsThePaddedTail : Obligations.PadBuildsThePaddedTail := by
  unfold Obligations.PadBuildsThePaddedTail
  intro s a rest L hu ha _
  refine ⟨padZeros a rest.length, padZeros_lt a _, add_padZeros_mod a _, fun z => padZeros_least, ?_⟩
  rw [exec_pad_of_invoked hu ha]
  cases a <;> rfl

/-! ### The chunks of the padded tail (R156) -/

/-- The padded tail of less than a chunk is one chunk or two. -/
theorem padTail_length_eq {a : Algorithm} {rest : List Byte} (L : Word64) (hrest : rest.length < a.chunkBytes) :
    (padTail a rest L).length = a.chunkBytes * (if rest.length + a.lengthBytes + 1 ≤ a.chunkBytes then 1 else 2) := by
  split_ifs with hfits
  · rw [padTail_length_of_short L hfits, Nat.mul_one]
  · rw [padTail_length_of_long L hrest (by omega), Nat.mul_comm]

/-- Settles O32: a whole message is its whole chunks and the padded tail of the rest. -/
theorem paddedTailIsOneOrTwoChunks : Obligations.PaddedTailIsOneOrTwoChunks := by
  unfold Obligations.PaddedTailIsOneOrTwoChunks
  refine ⟨fun a msg L => ?message, fun a rest L hrest => ⟨padTail_length a rest L, fun hfits => ?one, fun hlong => ?two⟩⟩
  case message =>
    have htail := length_drop_wholeChunks a msg
    have hmod := Nat.mod_lt msg.length (chunkBytes_pos a)
    rw [padTail_wholeChunks, List.length_append, length_take_wholeChunks, padTail_length_eq L (by rwa [htail]), htail]
    split_ifs <;> ring
  case one =>
    have hlen := padTail_length_of_short L hfits
    exact ⟨padZeros_short hfits, hlen, by rw [hlen, Nat.div_self (chunkBytes_pos a)]⟩
  case two =>
    have hlen := padTail_length_of_long L hrest hlong
    exact ⟨padZeros_long hrest hlong, hlen, by rw [hlen, Nat.mul_div_cancel _ (chunkBytes_pos a)]⟩

/-! ### SERIALIZE (R160) -/

theorem exec_serialize_of_invoked {a : Algorithm} {s : State} (hu : s.uop = some .serialize) (ha : s.alg = a.tag) :
    exec .serialize s = .next { s with ser := serialize a s.h, uop := none } :=
  exec_serialize_next.2 ⟨a, hu, by rw [ha, ofTag_tag], rfl⟩

/-- Byte `j` of a digest word under each descriptor (R160, R161). -/
theorem wordToBytes_getElem? (a : Algorithm) (x : Word64) {j : Nat} (hj : j < a.wordBytes) :
    (wordToBytes a x)[j]? = some (x.extractLsb' (if a.bigEndian then 8 * (a.wordBytes - 1 - j) else 8 * j) 8) := by
  simp only [wordToBytes]
  split_ifs
  · rw [toBe_getElem? _ _ _ hj, byte_of_word]
  · rw [toLe_getElem? _ _ _ hj, byte_of_word]

/-- Byte `k` of the digest is byte `k mod W/8` of word `floor(k / (W/8))`. -/
theorem serialize_getElem? (a : Algorithm) (h : Digest) {k : Nat} (hk : k < a.digestBytes) :
    (serialize a h)[k]? = (wordToBytes a (h.words.getD (k / a.wordBytes) 0))[k % a.wordBytes]? := by
  have hpos : 0 < a.wordBytes := by cases a <;> decide
  have hword : k / a.wordBytes < a.digestWords := Nat.div_lt_of_lt_mul (by rwa [Nat.mul_comm])
  rw [serialize, getElem?_flatMap_words _ _ hpos (wordToBytes_length a) _ (by rwa [words_take_length])]
  rw [List.getD_eq_getElem?_getD, List.getElem?_take_of_lt hword, ← List.getD_eq_getElem?_getD]

/-- Settles O34: byte by byte, the position by descriptor. -/
theorem serializeEmitsWordsInOrder : Obligations.SerializeEmitsWordsInOrder := by
  unfold Obligations.SerializeEmitsWordsInOrder
  intro s a hu ha
  refine ⟨serialize a s.h, exec_serialize_of_invoked hu ha, serialize_length a s.h, fun k hk => ?byte⟩
  have hmod : k % a.wordBytes < a.wordBytes := Nat.mod_lt _ (by cases a <;> decide)
  rw [serialize_getElem? a s.h hk, wordToBytes_getElem? a _ hmod]
  congr 2
  cases a <;> simp only [Algorithm.bigEndian, Algorithm.wordBytes, if_true, Bool.false_eq_true, if_false] <;> omega

/-! ### DIGEST by its micro-operations (R150, R153) -/

/-- COMPRESS invoked on chunk after chunk folds them into H. -/
theorem compressByInvocation_eq {a : Algorithm} {count : Nat} {bytes : List Byte} {s : State} (hu : s.uop = none)
    (hlen : count * a.chunkBytes ≤ bytes.length) :
    compressByInvocation a count bytes s = .next { s with h := compressChunks a count s.h bytes } := by
  induction count generalizing bytes s with
  | zero => rfl
  | succ count ih =>
    rw [Nat.succ_mul] at hlen
    have hchunk : (bytes.take a.chunkBytes).length = a.chunkBytes := List.length_take_of_le (by omega)
    rw [compressByInvocation, exec_compress_of_invoked rfl hchunk]
    refine (ih rfl (by rw [List.length_drop]; omega)).trans ?_
    rw [compressChunks, ← hu]
    rfl

/-- Settles O38: PAD gives the tail, COMPRESS on each chunk the digest, SERIALIZE the bytes that DIGEST uses. -/
theorem digestRefinesItsMicroOperations : Obligations.DigestRefinesItsMicroOperations := by
  unfold Obligations.DigestRefinesItsMicroOperations
  intro s a held hp ha hlt hheld
  refine ⟨_, _, _, _, exec_pad_of_invoked (a := a) rfl ha, compressByInvocation_eq rfl (Nat.div_mul_le_self _ _),
    exec_serialize_of_invoked (a := a) rfl ha, exec_digest_of_active hp ha (Nat.le_of_lt hlt) hheld, rfl, rfl⟩

end Sys2Proof.Proofs.MicroOperations
